-- ==== Sys2Proof/Word.lean ====
section
/-! DEFINITION. The word types of the block: 32-bit data words (10_state.md R21) and 16-bit command words (30_encoding.md R62). -/

namespace Sys2Proof

/-- A 32-bit word: a register, a data word or a response word (R21, R52).
An `f32` register holds the IEEE 754 encoding `bits(x)` of its value (00_scope.md R14). -/
abbrev Word := BitVec 32

/-- A 16-bit command word (R62). -/
abbrev CmdWord := BitVec 16

end Sys2Proof
end

