-- ==== Sys2Proof/Config.lean ====
section
/-! DEFINITION. What is fixed for the machine: the constants of 00_scope.md R8, and the open parameters of R7 as constants without a body. -/

namespace Sys2Proof

/-- The state of the attached Filter, the open type `FilterState` of 60_exceptions.md R175.
DESIGN CHOICE (log 5): a list of words, since the type is open and any finite state of a Filter is such a list;
its functions below have no body, so nothing is known of what the words mean. -/
structure FilterState where
  words : List Word
  deriving DecidableEq, Repr, Inhabited

namespace Config

/-! ## Open parameters (R7) -/

/-- `ftz`: whether subnormal operands and results are flushed to zero (R10). -/
opaque ftz : Bool

/-- `sin32`: the binary32 sine, an open total function (R11). -/
opaque sin32 : Word → Word

/-- `cos32`: the binary32 cosine, an open total function (R11). -/
opaque cos32 : Word → Word

/-- `exp32`: the binary32 exponential, an open total function (R11). -/
opaque exp32 : Word → Word

/-- `filterPOR`: the Filter's state after hardware reset (R175). -/
opaque filterPOR : FilterState

/-- `filterReset`: the Filter's `reset()` (R175). -/
opaque filterReset : FilterState → FilterState

/-- `filterUpdate`: the Filter's `updateCoefficients(cutoff, Q)` (R175). -/
opaque filterUpdate : FilterState → Word → Word → FilterState

/-- `filterRender`: the Filter's `render(sample)` (R175). -/
opaque filterRender : FilterState → Word → Word × FilterState

/-- `CMD_LATENCY` less one: the parameter is open and at least 1 (R7). -/
opaque extraLatency : Nat

/-- `CMD_LATENCY`: clock edges from acceptance of a command to its response (R7, R60). -/
def cmdLatency : Nat := extraLatency + 1

/-- `MAX_VOICES`: how many instances the host drives (R7, 60_exceptions.md R177). -/
opaque maxVoices : Nat

/-- The 31 low bits of `SUSTAIN`, open. -/
opaque sustainLow : BitVec 31

/-- `SUSTAIN`: the host's sentinel note value, an open negative int32 (R7). -/
def sustain : Word := 1#1 ++ sustainLow

/-- The free value of NaN results: the sign (bit 22) and the payload (bits 21:0) of the n-th NaN that
the arithmetic may produce (R12 and 93 S1 leave both open; log 3). -/
opaque freeNaN : Nat → BitVec 23

/-! ## Fixed constants (R8), as binary32 encodings -/

/-- `SILENCE`, 0.0001. -/
def silence : Word := 0x38D1B717#32
/-- `TWO_SILENCE`, `SILENCE + SILENCE`. -/
def twoSilence : Word := 0x3951B717#32
/-- `PI`. -/
def pi : Word := 0x40490FDB#32
/-- `PI_OVER_4`. -/
def piOver4 : Word := 0x3F490FDB#32
/-- `LEAK`, 0.997. -/
def leak : Word := 0x3F7F3B64#32
/-- `ATTACK_TARGET`, 2.0. -/
def attackTarget : Word := 0x40000000#32
/-- `ATTACK_EXIT`, 3.0. -/
def attackExit : Word := 0x40400000#32
/-- `CUT_MIN`, 30 Hz. -/
def cutMin : Word := 0x41F00000#32
/-- `CUT_MAX`, 20000 Hz. -/
def cutMax : Word := 0x469C4000#32
/-- `NOTE_CENTRE`, 60. -/
def noteCentre : Word := 0x42700000#32
/-- `NOTE_SPAN`, 24. -/
def noteSpan : Word := 0x41C00000#32
/-- `PAN_RESET`, 0.707. -/
def panReset : Word := 0x3F34FDF4#32
/-- `NEAR_ZERO_EPS`, 1e-9 (R7). -/
def nearZeroEps : Word := 0x3089705F#32

/-- +0.0. -/
def zero : Word := 0x00000000#32
/-- 0.5, the literal of 41_oscillator.md R91. -/
def half : Word := 0x3F000000#32
/-- 1.0, the literal of 43_voice_mixer.md R136 and the reset value of `PMOD` (10_state.md R26). -/
def one : Word := 0x3F800000#32
/-- -1.0, the literal of 43_voice_mixer.md R136. -/
def minusOne : Word := 0xBF800000#32
/-- 2.0, the literal of 41_oscillator.md R91 and R98. -/
def two : Word := 0x40000000#32

end Config

end Sys2Proof
end

