-- ==== Sys2Proof/Machine/Float.lean ====
section
/-! DEFINITION. The block's arithmetic (00_scope.md R9 to R13): IEEE 754 binary32 on encodings, each operation computed exactly on integers and rounded once, to nearest with ties to even.

A finite binary32 is an integer multiple of 2^-149, so its magnitude is a `Nat` in that unit (`mag`). -/

namespace Sys2Proof.Machine

/-! ## The encoding (R14): bit 31 sign, bits 30:23 biased exponent, bits 22:0 fraction -/

/-- The sign bit. -/
def signBit (w : Word) : Bool := w.msb

/-- Bits 30:0, exponent and fraction together: magnitudes are ordered as these numbers are. -/
def magBits (w : Word) : Nat := w.toNat % 2 ^ 31

/-- Bits 30:23. -/
def expField (w : Word) : Nat := magBits w / 2 ^ 23

/-- Bits 22:0. -/
def fracField (w : Word) : Nat := w.toNat % 2 ^ 23

/-- `magBits` of an infinity. -/
def infBits : Nat := 0x7F800000

/-- The word with a sign and the low 31 bits `m`. -/
def pack (s : Bool) (m : Nat) : Word := BitVec.ofNat 32 (if s then 2 ^ 31 + m else m)

def isNaN (w : Word) : Bool := infBits < magBits w
def isInf (w : Word) : Bool := magBits w == infBits
def isZero (w : Word) : Bool := magBits w == 0
def isSubnormal (w : Word) : Bool := 0 < magBits w && magBits w < 2 ^ 23

/-- `finite(x)` (R12): neither infinite nor a NaN. -/
def isFinite (w : Word) : Bool := magBits w < infBits

/-- The magnitude of a finite word in units of 2^-149. -/
def mag (w : Word) : Nat :=
  if expField w = 0 then fracField w else (2 ^ 23 + fracField w) * 2 ^ (expField w - 1)

/-- The value of a finite word in units of 2^-149. -/
def val (w : Word) : Int := if signBit w then -(mag w : Int) else (mag w : Int)

/-- Subnormals under the open parameter `ftz` (R10): a zero of the same sign, or the value itself. -/
def flush (w : Word) : Word :=
  if isSubnormal w then (if Config.ftz then pack (signBit w) 0 else w) else w

/-- A NaN result: a quiet NaN whose sign (bit 22) and payload (bits 21:0) are the free value number `k` (R12; log 3). -/
def nanResult (k : Nat) : Word :=
  pack ((Config.freeNaN k).getLsbD 22) (0x7FC00000 + (Config.freeNaN k).toNat % 2 ^ 22)

/-! ## Rounding (R9) -/

/-- The low 31 bits of the binary32 nearest to `n/d` (in units of 2^-149), ties to even: with `k` the
number of low bits the format drops at this size, the quotient by `d * 2^k` is rounded, and
`significand + k * 2^23` is its encoding; a carry into the next binade and overflow to infinity come
out of the same sum. -/
def roundMag (n d : Nat) : Nat :=
  let q := n / d
  let k := if q < 2 ^ 24 then 0 else q.log2 - 23
  let u := d * 2 ^ k
  let m := n / u
  let r := n % u
  let m' := if u < 2 * r || (2 * r == u && m % 2 == 1) then m + 1 else m
  min (m' + k * 2 ^ 23) infBits

/-- The rounded result of sign `s` and magnitude `n/d`, subnormal results as `ftz` says (R10). -/
def roundResult (s : Bool) (n d : Nat) : Word := flush (pack s (roundMag n d))

/-! ## The operations; `k` is the number of the free value a NaN result takes -/

/-- Sum of two flushed operands. -/
def addCore (k : Nat) (a b : Word) : Word :=
  if isNaN a || isNaN b then nanResult k
  else if isInf a then
    if isInf b && signBit a != signBit b then nanResult k else a
  else if isInf b then b
  else
    let x := val a + val b
    if x = 0 then pack (signBit a && signBit b) 0
    else roundResult (decide (x < 0)) x.natAbs 1

/-- `a + b`. -/
def fadd (k : Nat) (a b : Word) : Word := addCore k (flush a) (flush b)

/-- The word with its sign bit inverted. -/
def flipSign (w : Word) : Word := w ^^^ 0x80000000#32

/-- `-a` (R10 applied to its operand; log 2). -/
def fneg (a : Word) : Word := flipSign (flush a)

/-- `a - b`, that is `a + (-b)`. -/
def fsub (k : Nat) (a b : Word) : Word := addCore k (flush a) (flipSign (flush b))

/-- Product of two flushed operands. -/
def mulCore (k : Nat) (a b : Word) : Word :=
  let s := signBit a != signBit b
  if isNaN a || isNaN b then nanResult k
  else if isInf a then (if isZero b then nanResult k else pack s infBits)
  else if isInf b then (if isZero a then nanResult k else pack s infBits)
  else roundResult s (mag a * mag b) (2 ^ 149)

/-- `a × b`. -/
def fmul (k : Nat) (a b : Word) : Word := mulCore k (flush a) (flush b)

/-- Quotient of two flushed operands. -/
def divCore (k : Nat) (a b : Word) : Word :=
  let s := signBit a != signBit b
  if isNaN a || isNaN b then nanResult k
  else if isInf a then (if isInf b then nanResult k else pack s infBits)
  else if isInf b then pack s 0
  else if isZero b then (if isZero a then nanResult k else pack s infBits)
  else roundResult s (mag a * 2 ^ 149) (mag b)

/-- `a / b`. -/
def fdiv (k : Nat) (a b : Word) : Word := divCore k (flush a) (flush b)

/-! ## Comparisons, clamp, floor, conversion -/

/-- A number in the order of the non-NaN binary32 values; the two zeros are equal. -/
def orderKey (w : Word) : Int := if signBit w then -(magBits w : Int) else (magBits w : Int)

/-- `a < b`, false for a NaN (R12). -/
def flt (a b : Word) : Bool :=
  !isNaN a && !isNaN b && decide (orderKey (flush a) < orderKey (flush b))

/-- `a <= b`, false for a NaN (R12). -/
def fle (a b : Word) : Bool :=
  !isNaN a && !isNaN b && decide (orderKey (flush a) ≤ orderKey (flush b))

/-- `a > b`. -/
def fgt (a b : Word) : Bool := flt b a

/-- `a >= b`. -/
def fge (a b : Word) : Bool := fle b a

/-- `clamp(x, lo, hi)` (R12): a NaN `x` comes back unchanged. -/
def fclamp (x lo hi : Word) : Word := if flt x lo then lo else if flt hi x then hi else x

/-- `floor` of a finite magnitude, in whole units of 1.0: towards zero for a positive value, away from
zero for a negative one. -/
def floorMag (s : Bool) (m : Nat) : Nat := if s then (m + (2 ^ 149 - 1)) / 2 ^ 149 else m / 2 ^ 149

/-- `floor32(x)` (R11): the largest integral binary32 not greater than `x`; a NaN, an infinity and a zero
are their own floor. -/
def ffloor (x : Word) : Word :=
  if isNaN x then x
  else
    let y := flush x
    if isInf y || isZero y then y
    else roundResult (signBit y) (floorMag (signBit y) (mag y) * 2 ^ 149) 1

/-- `toF32(n)` (R13): an int32 to binary32, to nearest with ties to even. -/
def toF32 (n : Word) : Word := roundResult n.msb (n.toInt.natAbs * 2 ^ 149) 1

end Sys2Proof.Machine
end

