-- ==== Sys2Proof/Syntax.lean ====
section
/-! DEFINITION. The commands of the block as data: one constructor per row of spec/opcode_table.json, with the registers by name. -/

namespace Sys2Proof

/-- The oscillator units (10_state.md R20). -/
inductive OscUnit where
  | osc1 | osc2
  deriving DecidableEq, Repr

/-- `other(O)` of 00_scope.md R14. -/
def OscUnit.other : OscUnit → OscUnit
  | .osc1 => .osc2
  | .osc2 => .osc1

/-- The envelope units (R20). -/
inductive EnvUnit where
  | aenv | fenv
  deriving DecidableEq, Repr

/-- The registers of an oscillator unit (10_state.md section 2). -/
inductive OscReg where
  | period | ampl | pmod | phase | phmax | inc | sin0 | sin1 | dsin | dc | out
  deriving DecidableEq, Repr

/-- The registers of an envelope unit (10_state.md section 3). -/
inductive EnvReg where
  | attmul | decmul | suslvl | relmul | level | target | mult | status
  deriving DecidableEq, Repr

/-- The registers of the voice unit (10_state.md section 4). -/
inductive VoiceReg where
  | note | period | tperiod | glide | cutoff | filtq | fenvdepth | filtmod | pbend | detune | ctrl
  | saw | panl | panr | out | outl | outr | modcut | fault | fcmd | vstatus
  deriving DecidableEq, Repr

/-- A register of the register space: a defined (`UNIT`, `REG`) pair (20_memory.md R50). -/
inductive Reg where
  | osc (u : OscUnit) (r : OscReg)
  | env (u : EnvUnit) (r : EnvReg)
  | voice (r : VoiceReg)
  deriving DecidableEq, Repr

/-- The commands (30_encoding.md R64), with the data word of the three that use it (R65). -/
inductive Instr where
  /-- `NOP`, 40_register_access.md R80. -/
  | nop
  /-- `WR U.R, v`, R81. -/
  | wr (r : Reg) (v : Word)
  /-- `RD U.R`, R82. -/
  | rd (r : Reg)
  /-- `OSC_RESET O`, 41_oscillator.md R90. -/
  | oscReset (o : OscUnit)
  /-- `ENV_RESET E`, 42_envelope.md R110. -/
  | envReset (e : EnvUnit)
  /-- `VOICE_RESET`, 43_voice_mixer.md R130. -/
  | voiceReset
  /-- `OSC_NEXT O`, R91. -/
  | oscNext (o : OscUnit)
  /-- `ENV_NEXT E`, R111. -/
  | envNext (e : EnvUnit)
  /-- `VOICE_RENDER noise`, R131. -/
  | voiceRender (noise : Word)
  /-- `ENV_ATTACK E`, R112. -/
  | envAttack (e : EnvUnit)
  /-- `ENV_RELEASE E`, R113. -/
  | envRelease (e : EnvUnit)
  /-- `VOICE_RELEASE`, R135. -/
  | voiceRelease
  /-- `ENV_NUDGE E`, R114. -/
  | envNudge (e : EnvUnit)
  /-- `OSC_SQUARE O, newPeriod`, R98. -/
  | oscSquare (o : OscUnit) (np : Word)
  /-- `VOICE_PAN`, R136. -/
  | voicePan
  /-- `VOICE_CTRL`, 44_cutoff_modulator.md R150. -/
  | voiceCtrl
  /-- `VOICE_SETPER`, R138. -/
  | voiceSetper
  deriving DecidableEq, Repr

end Sys2Proof
end

