-- ==== Sys2Proof/WellFormed.lean ====
section
/-! DEFINITION. Which commands of the syntax the block has: a WR addresses an RW register (30_encoding.md R67 item 6). The other items of R67 cannot be broken by a term of `Instr`. -/

namespace Sys2Proof

/-- The oscillator registers listed as RW (10_state.md section 2). -/
def OscReg.writable : OscReg → Bool
  | .period | .ampl | .pmod => true
  | .phase | .phmax | .inc | .sin0 | .sin1 | .dsin | .dc | .out => false

/-- The envelope registers listed as RW (10_state.md section 3). -/
def EnvReg.writable : EnvReg → Bool
  | .attmul | .decmul | .suslvl | .relmul => true
  | .level | .target | .mult | .status => false

/-- The voice registers listed as RW (10_state.md section 4). -/
def VoiceReg.writable : VoiceReg → Bool
  | .note | .period | .tperiod | .glide | .cutoff | .filtq | .fenvdepth | .filtmod | .pbend
  | .detune | .ctrl => true
  | .saw | .panl | .panr | .out | .outl | .outr | .modcut | .fault | .fcmd | .vstatus => false

/-- Whether `WR` may address the register. -/
def Reg.writable : Reg → Bool
  | .osc _ r => r.writable
  | .env _ r => r.writable
  | .voice r => r.writable

/-- A command the block has: a `WR` addresses a register listed as RW (R67 item 6). -/
def Instr.wellFormed : Instr → Bool
  | .wr r _ => r.writable
  | .nop | .rd _ | .oscReset _ | .envReset _ | .voiceReset | .oscNext _ | .envNext _
  | .voiceRender _ | .envAttack _ | .envRelease _ | .voiceRelease | .envNudge _
  | .oscSquare _ _ | .voicePan | .voiceCtrl | .voiceSetper => true

end Sys2Proof
end

