-- ==== Sys2Proof/Decode.lean ====
section
/-! DEFINITION. Command words to commands (30_encoding.md R62 to R69), total on any words and rejecting by name, and after it the encoder. -/

namespace Sys2Proof

/-- Why a command word is illegal: the items of R67. -/
inductive Reject where
  /-- Item 1: `OP` is 0xC to 0xF. -/
  | reservedOp
  /-- Item 2: `UNIT` is 5 to 15. -/
  | reservedUnit
  /-- Item 3: the (`OP`, `UNIT`) pair is illegal. -/
  | illegalPair
  /-- Item 4: `REG` is not 0 outside `WR` and `RD`. -/
  | nonzeroReg
  /-- Items 5 and 6: no register has this index. -/
  | noRegister
  /-- Item 6: a `WR` of a register that is not RW. -/
  | readOnly
  deriving DecidableEq, Repr

/-- What decoding answers: a command, or a named rejection. -/
inductive Decoded where
  | ok (i : Instr)
  | reject (r : Reject)
  deriving DecidableEq, Repr

/-- The command of a decoding, if any. -/
def Decoded.instr? : Decoded → Option Instr
  | .ok i => some i
  | .reject _ => none

/-! ## Fields (R63) -/

/-- `OP = cmd_word[15:12]`. -/
def opField (w : CmdWord) : BitVec 4 := w.extractLsb' 12 4
/-- `UNIT = cmd_word[11:8]`. -/
def unitField (w : CmdWord) : BitVec 4 := w.extractLsb' 8 4
/-- `REG = cmd_word[7:0]`. -/
def regField (w : CmdWord) : BitVec 8 := w.extractLsb' 0 8

/-- The oscillator register at an index (10_state.md section 2). -/
def oscRegAt (idx : BitVec 8) : Option OscReg :=
  match idx.toNat with
  | 0x00 => some .period
  | 0x01 => some .ampl
  | 0x02 => some .pmod
  | 0x10 => some .phase
  | 0x11 => some .phmax
  | 0x12 => some .inc
  | 0x13 => some .sin0
  | 0x14 => some .sin1
  | 0x15 => some .dsin
  | 0x16 => some .dc
  | 0x17 => some .out
  | _ => none

/-- The envelope register at an index (10_state.md section 3). -/
def envRegAt (idx : BitVec 8) : Option EnvReg :=
  match idx.toNat with
  | 0x00 => some .attmul
  | 0x01 => some .decmul
  | 0x02 => some .suslvl
  | 0x03 => some .relmul
  | 0x10 => some .level
  | 0x11 => some .target
  | 0x12 => some .mult
  | 0x20 => some .status
  | _ => none

/-- The voice register at an index (10_state.md section 4). -/
def voiceRegAt (idx : BitVec 8) : Option VoiceReg :=
  match idx.toNat with
  | 0x00 => some .note
  | 0x01 => some .period
  | 0x02 => some .tperiod
  | 0x03 => some .glide
  | 0x04 => some .cutoff
  | 0x05 => some .filtq
  | 0x06 => some .fenvdepth
  | 0x07 => some .filtmod
  | 0x08 => some .pbend
  | 0x09 => some .detune
  | 0x0A => some .ctrl
  | 0x10 => some .saw
  | 0x11 => some .panl
  | 0x12 => some .panr
  | 0x13 => some .out
  | 0x14 => some .outl
  | 0x15 => some .outr
  | 0x16 => some .modcut
  | 0x20 => some .fault
  | 0x21 => some .fcmd
  | 0x22 => some .vstatus
  | _ => none

/-- The unit a unit number names (R62), or none for 5 to 15. -/
inductive UnitSel where
  | osc (u : OscUnit)
  | env (u : EnvUnit)
  | voice
  deriving DecidableEq, Repr

/-- The unit of a unit number: 0 `OSC1`, 1 `OSC2`, 2 `AENV`, 3 `FENV`, 4 `VOICE`; 5 to 15 are reserved (R62). -/
def unitAt (u : BitVec 4) : Option UnitSel :=
  match u.toNat with
  | 0 => some (.osc .osc1)
  | 1 => some (.osc .osc2)
  | 2 => some (.env .aenv)
  | 3 => some (.env .fenv)
  | 4 => some .voice
  | _ => none

/-- The register at an index of a unit (20_memory.md R50). -/
def regAt (u : UnitSel) (idx : BitVec 8) : Option Reg :=
  match u with
  | .osc o => (oscRegAt idx).map (.osc o)
  | .env e => (envRegAt idx).map (.env e)
  | .voice => (voiceRegAt idx).map .voice

/-- The operation map of R64 for the operations other than `WR` and `RD`: the command of an
(`OP`, unit) pair, with the data word for the two of them that use it (R65). -/
def commandAt (op : BitVec 4) (u : UnitSel) (data : Word) : Option Instr :=
  match op.toNat, u with
  | 0x0, .osc .osc1 => some .nop
  | 0x3, .osc o => some (.oscReset o)
  | 0x3, .env e => some (.envReset e)
  | 0x3, .voice => some .voiceReset
  | 0x4, .osc o => some (.oscNext o)
  | 0x4, .env e => some (.envNext e)
  | 0x4, .voice => some (.voiceRender data)
  | 0x5, .env e => some (.envAttack e)
  | 0x6, .env e => some (.envRelease e)
  | 0x6, .voice => some .voiceRelease
  | 0x7, .env e => some (.envNudge e)
  | 0x8, .osc o => some (.oscSquare o data)
  | 0x9, .voice => some .voicePan
  | 0xA, .voice => some .voiceCtrl
  | 0xB, .voice => some .voiceSetper
  | _, _ => none

/-- Decoding of a `WR` word (R67 items 5 and 6). -/
def decodeWr (u : UnitSel) (idx : BitVec 8) (data : Word) : Decoded :=
  match regAt u idx with
  | none => .reject .noRegister
  | some r => if r.writable then .ok (.wr r data) else .reject .readOnly

/-- Decoding of an `RD` word (R67 item 5). -/
def decodeRd (u : UnitSel) (idx : BitVec 8) : Decoded :=
  match regAt u idx with
  | none => .reject .noRegister
  | some r => .ok (.rd r)

/-- Decoding of a word whose `OP` is neither `WR` nor `RD` (R67 items 3 and 4). -/
def decodeOp (op : BitVec 4) (u : UnitSel) (idx : BitVec 8) (data : Word) : Decoded :=
  match commandAt op u data with
  | none => .reject .illegalPair
  | some i => if idx = 0#8 then .ok i else .reject .nonzeroReg

/-- The command of a command word and its data word (R62 to R69), or why the word is illegal (R67). -/
def decode (w : CmdWord) (data : Word) : Decoded :=
  if 0xC#4 ≤ opField w then .reject .reservedOp
  else
    match unitAt (unitField w) with
    | none => .reject .reservedUnit
    | some u =>
      if opField w = 1#4 then decodeWr u (regField w) data
      else if opField w = 2#4 then decodeRd u (regField w)
      else decodeOp (opField w) u (regField w) data

/-! ## The encoder -/

/-- The unit number of an oscillator unit (R62). -/
def OscUnit.number : OscUnit → BitVec 4
  | .osc1 => 0#4
  | .osc2 => 1#4

/-- The unit number of an envelope unit (R62). -/
def EnvUnit.number : EnvUnit → BitVec 4
  | .aenv => 2#4
  | .fenv => 3#4

/-- The unit number of `VOICE` (R62). -/
def voiceNumber : BitVec 4 := 4#4

/-- The index of an oscillator register (10_state.md section 2). -/
def OscReg.index : OscReg → BitVec 8
  | .period => 0x00#8
  | .ampl => 0x01#8
  | .pmod => 0x02#8
  | .phase => 0x10#8
  | .phmax => 0x11#8
  | .inc => 0x12#8
  | .sin0 => 0x13#8
  | .sin1 => 0x14#8
  | .dsin => 0x15#8
  | .dc => 0x16#8
  | .out => 0x17#8

/-- The index of an envelope register (10_state.md section 3). -/
def EnvReg.index : EnvReg → BitVec 8
  | .attmul => 0x00#8
  | .decmul => 0x01#8
  | .suslvl => 0x02#8
  | .relmul => 0x03#8
  | .level => 0x10#8
  | .target => 0x11#8
  | .mult => 0x12#8
  | .status => 0x20#8

/-- The index of a voice register (10_state.md section 4). -/
def VoiceReg.index : VoiceReg → BitVec 8
  | .note => 0x00#8
  | .period => 0x01#8
  | .tperiod => 0x02#8
  | .glide => 0x03#8
  | .cutoff => 0x04#8
  | .filtq => 0x05#8
  | .fenvdepth => 0x06#8
  | .filtmod => 0x07#8
  | .pbend => 0x08#8
  | .detune => 0x09#8
  | .ctrl => 0x0A#8
  | .saw => 0x10#8
  | .panl => 0x11#8
  | .panr => 0x12#8
  | .out => 0x13#8
  | .outl => 0x14#8
  | .outr => 0x15#8
  | .modcut => 0x16#8
  | .fault => 0x20#8
  | .fcmd => 0x21#8
  | .vstatus => 0x22#8

/-- The unit number of a register. -/
def Reg.unit : Reg → BitVec 4
  | .osc u _ => u.number
  | .env u _ => u.number
  | .voice _ => voiceNumber

/-- The index of a register in its unit. -/
def Reg.index : Reg → BitVec 8
  | .osc _ r => r.index
  | .env _ r => r.index
  | .voice r => r.index

/-- `OP` of a command (R64). -/
def Instr.op : Instr → BitVec 4
  | .nop => 0x0#4
  | .wr _ _ => 0x1#4
  | .rd _ => 0x2#4
  | .oscReset _ | .envReset _ | .voiceReset => 0x3#4
  | .oscNext _ | .envNext _ | .voiceRender _ => 0x4#4
  | .envAttack _ => 0x5#4
  | .envRelease _ | .voiceRelease => 0x6#4
  | .envNudge _ => 0x7#4
  | .oscSquare _ _ => 0x8#4
  | .voicePan => 0x9#4
  | .voiceCtrl => 0xA#4
  | .voiceSetper => 0xB#4

/-- `UNIT` of a command (R64). -/
def Instr.unit : Instr → BitVec 4
  | .nop => 0#4
  | .wr r _ | .rd r => r.unit
  | .oscReset o | .oscNext o | .oscSquare o _ => o.number
  | .envReset e | .envNext e | .envAttack e | .envRelease e | .envNudge e => e.number
  | .voiceReset | .voiceRender _ | .voiceRelease | .voicePan | .voiceCtrl | .voiceSetper => voiceNumber

/-- `REG` of a command: 0 for all but `WR` and `RD` (R62). -/
def Instr.reg : Instr → BitVec 8
  | .wr r _ | .rd r => r.index
  | .nop | .oscReset _ | .envReset _ | .voiceReset | .oscNext _ | .envNext _ | .voiceRender _
  | .envAttack _ | .envRelease _ | .voiceRelease | .envNudge _ | .oscSquare _ _ | .voicePan
  | .voiceCtrl | .voiceSetper => 0#8

/-- The command word of a command: `OP[15:12] UNIT[11:8] REG[7:0]` (R62). -/
def Instr.cmdWord (i : Instr) : CmdWord := i.op ++ i.unit ++ i.reg

/-- The data word of a command, +0 bits where the command ignores it (R65). -/
def Instr.data : Instr → Word
  | .wr _ v => v
  | .voiceRender n => n
  | .oscSquare _ np => np
  | .nop | .rd _ | .oscReset _ | .envReset _ | .voiceReset | .oscNext _ | .envNext _ | .envAttack _
  | .envRelease _ | .voiceRelease | .envNudge _ | .voicePan | .voiceCtrl | .voiceSetper => 0#32

/-- The words of a command: its command word and its data word. -/
def encode (i : Instr) : CmdWord × Word := (i.cmdWord, i.data)

/-! ## The words of the opcode table -/

/-- The command word in a number laid out as spec/opcode_table.json numbers bits: bits 15:0 of the
low `nbits` bits. -/
def tableCmdWord (nbits w : Nat) : CmdWord := BitVec.ofNat 16 (w % 2 ^ nbits)

/-- The data word beside it: bits 47:16 of the low `nbits` bits, so zero for the table's 16-bit rows. -/
def tableDataWord (nbits w : Nat) : Word := BitVec.ofNat 32 ((w % 2 ^ nbits) / 2 ^ 16)

/-- What the decoder reads from a word of the opcode table. -/
def decodeTableWord (nbits w : Nat) : Option Instr :=
  (decode (tableCmdWord nbits w) (tableDataWord nbits w)).instr?

end Sys2Proof
end

