-- ==== Sys2Proof/Machine/State.lean ====
section
/-! DEFINITION. The state of the block (10_state.md): every register of the five units, the set flags, the Filter's state, FCOEF, the command in flight, the response outputs, and the host's pins at the coming clock edges. -/

namespace Sys2Proof.Machine

/-- The model's own stops. There is none: every fault of the spec lets the block go on (60_exceptions.md R161)
and is a next state, and "No behaviour of the block is `stuck`" (93_implementation_defined.md section 2). -/
inductive Fault where
  deriving DecidableEq, Repr

/-- Refusals. -/
inductive Refusal where
  /-- Raised by an arm of `exec` that has no meaning yet; no arm of this model raises it. Safe. -/
  | notModelled (mnemonic : String)
  deriving DecidableEq, Repr

/-- The causes of the block's own faults (60_exceptions.md R160). -/
inductive Cause where
  /-- 1: an illegal command word (R162). -/
  | illegalCmd
  /-- 2: a read of an UNSET register, or a filtered render with no coefficients (R163). -/
  | unsetOperand
  /-- 3: `PMOD` not greater than 0 at a cycle start (R164). -/
  | pmodNonpos
  /-- 4: phaseMax not greater than 0, or a non-finite half-period, at a cycle start (R165). -/
  | oscDegenerate
  deriving DecidableEq, Repr

/-- An oscillator unit (10_state.md section 2). A register with a set flag is an `Option`: `none` is
the UNSET condition, in which the register "holds no value" (R22; log 1). -/
structure Osc where
  period : Option Word
  ampl : Option Word
  pmod : Word
  phase : Word
  phmax : Word
  inc : Word
  sin0 : Word
  sin1 : Word
  dsin : Word
  dc : Word
  out : Word
  deriving DecidableEq, Repr

/-- An envelope unit (10_state.md section 3); `STATUS` is computed and holds nothing (R31). -/
structure Env where
  attmul : Option Word
  decmul : Option Word
  suslvl : Option Word
  relmul : Option Word
  level : Word
  target : Word
  mult : Word
  deriving DecidableEq, Repr

/-- The voice unit (10_state.md section 4); `VSTATUS` is computed and holds nothing (R43). -/
structure Voice where
  note : Word
  period : Option Word
  tperiod : Option Word
  glide : Option Word
  cutoff : Option Word
  filtq : Option Word
  fenvdepth : Option Word
  filtmod : Option Word
  pbend : Option Word
  detune : Option Word
  ctrl : Word
  saw : Word
  panl : Word
  panr : Word
  out : Word
  outl : Word
  outr : Word
  modcut : Option Word
  fault : Word
  fcmd : Word
  deriving DecidableEq, Repr

/-- The response outputs while `rsp_valid` is 1 (30_encoding.md R60, R66). -/
structure Response where
  fault : Bool
  cause : BitVec 4
  d0 : Word
  d1 : Word
  d2 : Word
  deriving DecidableEq, Repr

/-- A command between acceptance and response (70_reset_and_hazards.md R200), with the number of clock
edges left to its response edge, that edge included. -/
structure InFlight where
  word : CmdWord
  data : Word
  left : Nat
  deriving DecidableEq, Repr

/-- The block's input ports at one rising clock edge (30_encoding.md R60). -/
structure Pins where
  rstN : Bool
  cmdValid : Bool
  cmdWord : CmdWord
  cmdData : Word
  deriving DecidableEq, Repr

/-- The whole state. -/
structure State where
  osc1 : Osc
  osc2 : Osc
  aenv : Env
  fenv : Env
  voice : Voice
  /-- The attached Filter's state (10_state.md R44). -/
  filter : FilterState
  /-- The filter-coefficient flag (R45). -/
  fcoef : Bool
  /-- The command in flight, if any (R46). -/
  inflight : Option InFlight
  /-- The response outputs: `none` is `rsp_valid = 0` (R60; log 8). -/
  rsp : Option Response
  /-- The model's own: the host's pins at the coming edges, the next one first (log 6). -/
  pins : List Pins
  /-- The model's own: the counter of the free NaN values (log 3). -/
  nanDraws : Nat
  deriving DecidableEq, Repr

/-- An oscillator after hardware reset (70_reset_and_hazards.md R190). -/
def Osc.afterReset : Osc where
  period := none
  ampl := none
  pmod := Config.one
  phase := Config.zero
  phmax := Config.zero
  inc := Config.zero
  sin0 := Config.zero
  sin1 := Config.zero
  dsin := Config.zero
  dc := Config.zero
  out := Config.zero

/-- An envelope after hardware reset (R190). -/
def Env.afterReset : Env where
  attmul := none
  decmul := none
  suslvl := none
  relmul := none
  level := Config.zero
  target := Config.zero
  mult := Config.zero

/-- The voice unit after hardware reset (R190). -/
def Voice.afterReset : Voice where
  note := 0#32
  period := none
  tperiod := none
  glide := none
  cutoff := none
  filtq := none
  fenvdepth := none
  filtmod := none
  pbend := none
  detune := none
  ctrl := 0#32
  saw := Config.zero
  panl := Config.panReset
  panr := Config.panReset
  out := Config.zero
  outl := Config.zero
  outr := Config.zero
  modcut := none
  fault := 0#32
  fcmd := 0#32

/-- The block right after hardware reset (R190), with no host input placed and the free-value counter
at 0 (the model's own fields, DESIGN CHOICE, logs 3 and 6). -/
def State.reset : State where
  osc1 := Osc.afterReset
  osc2 := Osc.afterReset
  aenv := Env.afterReset
  fenv := Env.afterReset
  voice := Voice.afterReset
  filter := Config.filterPOR
  fcoef := false
  inflight := none
  rsp := none
  pins := []
  nanDraws := 0

end Sys2Proof.Machine
end

