-- ==== Sys2Proof/Machine/Flags.lean ====
section
/-! DEFINITION. The status bits (10_state.md R47): STATUS and VSTATUS, computed from the registers at each read, and the fields of CTRL, FAULT and FCMD. -/

namespace Sys2Proof.Machine

/-- A Bool as one bit. -/
def bit (b : Bool) : BitVec 1 := BitVec.ofBool b

/-- `STATUS.ACTIVE`: `LEVEL > SILENCE` (R31). -/
def Env.active (u : Env) : Bool := fgt u.level Config.silence

/-- `STATUS.ATTACK`: `TARGET >= ATTACK_TARGET` (R31). -/
def Env.attacking (u : Env) : Bool := fge u.target Config.attackTarget

/-- The `STATUS` word of an envelope (R31): bit 0 `ACTIVE`, bit 1 `ATTACK`, bits 31:2 zero. -/
def Env.status (u : Env) : Word := 0#30 ++ bit u.attacking ++ bit u.active

/-- `CTRL.FBYP` (R40): bit 0. -/
def Voice.fbyp (v : Voice) : Bool := v.ctrl.getLsbD 0

/-- `FAULT.CAUSE` (R41): bits 3:0. -/
def Voice.cause (v : Voice) : BitVec 4 := v.fault.extractLsb' 0 4

/-- `VSTATUS` bit 5 `FAULTED` (R43): `FAULT.CAUSE != 0`. -/
def Voice.faulted (v : Voice) : Bool := v.cause != 0#4

/-- The `VSTATUS` word (R43). -/
def State.vstatus (s : State) : Word :=
  0#26 ++ bit s.voice.faulted ++ bit s.fcoef ++ bit s.fenv.attacking ++ bit s.fenv.active
    ++ bit s.aenv.attacking ++ bit s.aenv.active

/-- The `CTRL` word with its reserved bits 31:1 zero (R40). -/
def ctrlWord (w : Word) : Word := w &&& 0x00000001#32

/-- The `FAULT` word with its reserved bits 31:4 zero (R41). -/
def faultWord (w : Word) : Word := w &&& 0x0000000F#32

/-- The `FCMD` word with its reserved bits 31:16 zero (R42). -/
def fcmdWord (w : Word) : Word := w &&& 0x0000FFFF#32

end Sys2Proof.Machine
end

