-- ==== Sys2Proof/Machine/Operands.lean ====
section
/-! DEFINITION. The register space (20_memory.md R50, R51): reading and writing one register, the operand check `need` of 00_scope.md R14, and access to a unit by its name. -/

namespace Sys2Proof.Machine

/-- The oscillator unit of a name. -/
def State.osc (s : State) : OscUnit → Osc
  | .osc1 => s.osc1
  | .osc2 => s.osc2

/-- The state with that oscillator unit replaced. -/
def State.setOsc (s : State) (u : OscUnit) (o : Osc) : State :=
  match u with
  | .osc1 => { s with osc1 := o }
  | .osc2 => { s with osc2 := o }

/-- The envelope unit of a name. -/
def State.env (s : State) : EnvUnit → Env
  | .aenv => s.aenv
  | .fenv => s.fenv

/-- The state with that envelope unit replaced. -/
def State.setEnv (s : State) (u : EnvUnit) (e : Env) : State :=
  match u with
  | .aenv => { s with aenv := e }
  | .fenv => { s with fenv := e }

/-- `need(U.NAME)` (R14): the value, or the fault `UNSET_OPERAND` where the register is UNSET. -/
def need (r : Option Word) : Except Cause Word :=
  match r with
  | none => .error .unsetOperand
  | some w => .ok w

/-- A register of an oscillator; `none` is UNSET. -/
def Osc.read (o : Osc) : OscReg → Option Word
  | .period => o.period
  | .ampl => o.ampl
  | .pmod => some o.pmod
  | .phase => some o.phase
  | .phmax => some o.phmax
  | .inc => some o.inc
  | .sin0 => some o.sin0
  | .sin1 => some o.sin1
  | .dsin => some o.dsin
  | .dc => some o.dc
  | .out => some o.out

/-- A register of an envelope; `none` is UNSET. -/
def Env.read (u : Env) : EnvReg → Option Word
  | .attmul => u.attmul
  | .decmul => u.decmul
  | .suslvl => u.suslvl
  | .relmul => u.relmul
  | .level => some u.level
  | .target => some u.target
  | .mult => some u.mult
  | .status => some u.status

/-- A register of the voice unit; `none` is UNSET. Reserved bits read as zero (R21). -/
def State.readVoice (s : State) : VoiceReg → Option Word
  | .note => some s.voice.note
  | .period => s.voice.period
  | .tperiod => s.voice.tperiod
  | .glide => s.voice.glide
  | .cutoff => s.voice.cutoff
  | .filtq => s.voice.filtq
  | .fenvdepth => s.voice.fenvdepth
  | .filtmod => s.voice.filtmod
  | .pbend => s.voice.pbend
  | .detune => s.voice.detune
  | .ctrl => some (ctrlWord s.voice.ctrl)
  | .saw => some s.voice.saw
  | .panl => some s.voice.panl
  | .panr => some s.voice.panr
  | .out => some s.voice.out
  | .outl => some s.voice.outl
  | .outr => some s.voice.outr
  | .modcut => s.voice.modcut
  | .fault => some (faultWord s.voice.fault)
  | .fcmd => some (fcmdWord s.voice.fcmd)
  | .vstatus => some s.vstatus

/-- `RegRead(U, idx)` (20_memory.md R51); `none` where the register is in the UNSET condition (10_state.md R22). -/
def State.regRead (s : State) : Reg → Option Word
  | .osc u r => (s.osc u).read r
  | .env u r => (s.env u).read r
  | .voice r => s.readVoice r

/-- A write of an RW register of an oscillator; its set flag becomes 1 where it has one (10_state.md R22). -/
def Osc.write (o : Osc) (r : OscReg) (w : Word) : Osc :=
  match r with
  | .period => { o with period := some w }
  | .ampl => { o with ampl := some w }
  | .pmod => { o with pmod := w }
  | .phase | .phmax | .inc | .sin0 | .sin1 | .dsin | .dc | .out => o

/-- A write of an RW register of an envelope, with its set flag. -/
def Env.write (u : Env) (r : EnvReg) (w : Word) : Env :=
  match r with
  | .attmul => { u with attmul := some w }
  | .decmul => { u with decmul := some w }
  | .suslvl => { u with suslvl := some w }
  | .relmul => { u with relmul := some w }
  | .level | .target | .mult | .status => u

/-- A write of an RW register of the voice unit, with its set flag. `CTRL` ignores its reserved bits (R40). -/
def Voice.write (v : Voice) (r : VoiceReg) (w : Word) : Voice :=
  match r with
  | .note => { v with note := w }
  | .period => { v with period := some w }
  | .tperiod => { v with tperiod := some w }
  | .glide => { v with glide := some w }
  | .cutoff => { v with cutoff := some w }
  | .filtq => { v with filtq := some w }
  | .fenvdepth => { v with fenvdepth := some w }
  | .filtmod => { v with filtmod := some w }
  | .pbend => { v with pbend := some w }
  | .detune => { v with detune := some w }
  | .ctrl => { v with ctrl := ctrlWord w }
  | .saw | .panl | .panr | .out | .outl | .outr | .modcut | .fault | .fcmd | .vstatus => v

/-- `RegWrite(U, idx, w)` (20_memory.md R51) together with `setflag(U, idx) <- 1`. `WR` checks first that the
register is RW (R81), so the read-only registers, which this leaves alone, are never reached. -/
def State.regWrite (s : State) (r : Reg) (w : Word) : State :=
  match r with
  | .osc u r => s.setOsc u ((s.osc u).write r w)
  | .env u r => s.setEnv u ((s.env u).write r w)
  | .voice r => { s with voice := s.voice.write r w }

end Sys2Proof.Machine
end

