-- ==== Sys2Proof/Machine/Ops.lean ====
section
/-! DEFINITION. The operations every command shares: the response (30_encoding.md R66), taking a fault (60_exceptions.md R161), committing a command (00_scope.md R15), hardware reset and the command port. -/

namespace Sys2Proof.Machine

/-- The cause code (60_exceptions.md R160). -/
def Cause.code : Cause → BitVec 4
  | .illegalCmd => 1#4
  | .unsetOperand => 2#4
  | .pmodNonpos => 3#4
  | .oscDegenerate => 4#4

/-- The response of a command that completes without a fault (R66). -/
def okResponse (d0 d1 d2 : Word) : Response :=
  { fault := false, cause := 0#4, d0 := d0, d1 := d1, d2 := d2 }

/-- The response of a command that faults (R66, R161). -/
def faultResponse (c : Cause) : Response :=
  { fault := true, cause := c.code, d0 := 0#32, d1 := 0#32, d2 := 0#32 }

/-- `respond(d0, d1, d2)` (00_scope.md R14). -/
def respond (d0 d1 d2 : Word) (s : State) : State := { s with rsp := some (okResponse d0 d1 d2) }

/-- The free-value counter after `n` uses (the model's own; log 3). -/
def State.draw (s : State) (n : Nat) : State := { s with nanDraws := s.nanDraws + n }

/-- The fault record after a fault (R161): only the first fault since hardware reset is kept. -/
def recordFault (c : Cause) (w : CmdWord) (v : Voice) : Voice :=
  if v.cause = 0#4 then { v with fault := c.code.setWidth 32, fcmd := w.setWidth 32 } else v

/-- `raise Fault(cause)` by the command word `w` in the state `s` the command found (R161): every update is
discarded, the record takes the first fault, and the response reports this one. -/
def raiseFault (c : Cause) (w : CmdWord) (s : State) : State :=
  { s with voice := recordFault c w s.voice, rsp := some (faultResponse c) }

/-- The end of command `i`, begun in state `s` (00_scope.md R15): its copy is committed, or its fault is taken.
There is no return from a fault (R170): the next command executes normally. -/
def commit (i : Instr) (s : State) (r : Except Cause State) : Host.Outcome State Fault Refusal :=
  match r with
  | .ok t => .next t
  | .error c => .next (raiseFault c i.cmdWord s)

/-! ## Hardware reset and the command port -/

/-- Hardware reset (70_reset_and_hazards.md R190, R191): the reset state, whatever was before. The model's own
fields, the host's coming pins and the free-value counter, go on (log 15). -/
def hardReset (s : State) : State := { State.reset with pins := s.pins, nanDraws := s.nanDraws }

/-- The pins of an idle host: no reset, no command. -/
def Pins.idle : Pins := { rstN := true, cmdValid := false, cmdWord := 0#16, cmdData := 0#32 }

/-- The pins at the coming edge; a host with nothing more to do is idle (log 6). -/
def State.nextPins (s : State) : Pins :=
  match s.pins with
  | [] => Pins.idle
  | p :: _ => p

/-- The state with the coming edge's pins taken. -/
def State.dropPins (s : State) : State := { s with pins := s.pins.tail }

/-- Whether the coming edge is the response edge of the command in flight. -/
def InFlight.responds (c : InFlight) : Bool := c.left ≤ 1

/-- `cmd_ready` at the coming edge, with `rst_n` given (30_encoding.md R60): "0 from acceptance until the edge at
which `rsp_valid` is 1", and 0 in reset (log 7). -/
def cmdReady (rstN : Bool) (s : State) : Bool :=
  rstN &&
    match s.inflight with
    | none => true
    | some c => c.responds

/-- `rsp_valid` after an edge. -/
def rspValid (s : State) : Bool := s.rsp.isSome

/-- The response phase of an edge with no command responding: `rsp_valid` is 0 and one edge of the command in
flight, if any, has passed. -/
def waitEdge (s : State) : State :=
  { s with
    rsp := none
    inflight := s.inflight.map fun c => { c with left := c.left - 1 } }

/-- The state a command at its response edge is run from: no command in flight, no response yet. -/
def takeInFlight (s : State) : State := { s with inflight := none, rsp := none }

/-- Acceptance at an edge (R60): `cmd_valid = 1` and no command in flight any more; the words are sampled and the
response follows `CMD_LATENCY` edges later. -/
def accept (p : Pins) (s : State) : State :=
  if p.cmdValid && s.inflight.isNone then
    { s with inflight := some { word := p.cmdWord, data := p.cmdData, left := Config.cmdLatency } }
  else s

end Sys2Proof.Machine
end

