-- ==== Sys2Proof/Machine/Envelope.lean ====
section
/-! DEFINITION. ENV_RESET, ENV_NEXT, ENV_ATTACK, ENV_RELEASE and ENV_NUDGE (42_envelope.md R110 to R121). -/

namespace Sys2Proof.Machine

/-- The effects of `ENV_RESET E` on the unit (R110; 10_state.md R33). -/
def envReset (u : Env) : Env :=
  { u with level := Config.zero, target := Config.zero, mult := Config.zero }

/-- The recurrence `(MULT * (LEVEL - TARGET)) + TARGET` (R111). -/
def nextLevel (k : Nat) (u : Env) : Word :=
  fadd (k + 2) (fmul (k + 1) u.mult (fsub k u.level u.target)) u.target

/-- The attack exit test `(lv + TARGET) > ATTACK_EXIT`, with the `TARGET` of before the switch (R111). -/
def attackEnds (k : Nat) (u : Env) : Bool :=
  fgt (fadd (k + 3) (nextLevel k u) u.target) Config.attackExit

/-- How many free values one `ENV_NEXT` may take. -/
def envNextDraws : Nat := 4

/-- `ENV_NEXT E` on the unit (R111); the value returned is the new `LEVEL`. -/
def envNext (k : Nat) (u : Env) : Except Cause Env :=
  if attackEnds k u then do
    let m ← need u.decmul
    let t ← need u.suslvl
    return { u with level := nextLevel k u, mult := m, target := t }
  else .ok { u with level := nextLevel k u }

/-- `LEVEL + TWO_SILENCE` (R112, R114). -/
def nudged (k : Nat) (u : Env) : Word := fadd k u.level Config.twoSilence

/-- `ENV_ATTACK E` on the unit (R112). -/
def envAttack (k : Nat) (u : Env) : Except Cause Env := do
  let am ← need u.attmul
  return { u with level := nudged k u, target := Config.attackTarget, mult := am }

/-- `ENV_RELEASE E` on the unit (R113). -/
def envRelease (u : Env) : Except Cause Env := do
  let rm ← need u.relmul
  return { u with target := Config.zero, mult := rm }

/-- `ENV_RESET E` (R110). -/
def execEnvReset (e : EnvUnit) (s : State) : Host.Outcome State Fault Refusal :=
  commit (.envReset e) s (.ok (respond 0#32 0#32 0#32 (s.setEnv e (envReset (s.env e)))))

/-- One step of an envelope unit in the state. -/
def envStep (e : EnvUnit) (s : State) : Except Cause State := do
  let u ← envNext s.nanDraws (s.env e)
  return (s.setEnv e u).draw envNextDraws

/-- `ENV_NEXT E` (R111), answering the new level (30_encoding.md R66). -/
def envNextCommand (e : EnvUnit) (s : State) : Except Cause State := do
  let t ← envStep e s
  return respond (t.env e).level 0#32 0#32 t

/-- `ENV_NEXT E` (R111). -/
def execEnvNext (e : EnvUnit) (s : State) : Host.Outcome State Fault Refusal :=
  commit (.envNext e) s (envNextCommand e s)

/-- `ENV_ATTACK E` (R112). -/
def envAttackCommand (e : EnvUnit) (s : State) : Except Cause State := do
  let u ← envAttack s.nanDraws (s.env e)
  return respond 0#32 0#32 0#32 ((s.setEnv e u).draw 1)

/-- `ENV_ATTACK E` (R112). -/
def execEnvAttack (e : EnvUnit) (s : State) : Host.Outcome State Fault Refusal :=
  commit (.envAttack e) s (envAttackCommand e s)

/-- The release of an envelope unit in the state (R113). -/
def releaseStep (e : EnvUnit) (s : State) : Except Cause State := do
  let u ← envRelease (s.env e)
  return s.setEnv e u

/-- `ENV_RELEASE E` (R113). -/
def envReleaseCommand (e : EnvUnit) (s : State) : Except Cause State := do
  let t ← releaseStep e s
  return respond 0#32 0#32 0#32 t

/-- `ENV_RELEASE E` (R113). -/
def execEnvRelease (e : EnvUnit) (s : State) : Host.Outcome State Fault Refusal :=
  commit (.envRelease e) s (envReleaseCommand e s)

/-- `ENV_NUDGE E` (R114). -/
def execEnvNudge (e : EnvUnit) (s : State) : Host.Outcome State Fault Refusal :=
  commit (.envNudge e) s
    (.ok (respond 0#32 0#32 0#32
      ((s.setEnv e { s.env e with level := nudged s.nanDraws (s.env e) }).draw 1)))

end Sys2Proof.Machine
end

