-- ==== Sys2Proof/Machine/Cutoff.lean ====
section
/-! DEFINITION. VOICE_CTRL (44_cutoff_modulator.md R150 to R156). -/

namespace Sys2Proof.Machine

/-- The glide `p + (g * (tp - p))` (R150, R151). -/
def glided (k : Nat) (p g tp : Word) : Word := fadd (k + 2) p (fmul (k + 1) g (fsub k tp p))

/-- The cutoff before the clamp, `(c * exp32(fm + (fd * fe))) / pb` (R150). -/
def rawCutoff (k : Nat) (c fm fd fe pb : Word) : Word :=
  fdiv (k + 3) (fmul (k + 2) c (Config.exp32 (fadd (k + 1) fm (fmul k fd fe)))) pb

/-- The clamp to [30 Hz, 20000 Hz] (R150, R152): a NaN passes. -/
def clampCutoff (mc : Word) : Word := fclamp mc Config.cutMin Config.cutMax

/-- How many free values the glide and the cutoff may take. -/
def ctrlDraws : Nat := 7

/-- `VOICE_CTRL` (R150): glide, filter envelope, cutoff, Filter update, in this order of checks. -/
def ctrlCommand (s : State) : Except Cause State := do
  let k := s.nanDraws
  let g ← need s.voice.glide
  let tp ← need s.voice.tperiod
  let p ← need s.voice.period
  let t ← envStep .fenv (s.draw ctrlDraws)
  let c ← need s.voice.cutoff
  let fm ← need s.voice.filtmod
  let fd ← need s.voice.fenvdepth
  let pb ← need s.voice.pbend
  let q ← need s.voice.filtq
  let mc := clampCutoff (rawCutoff (k + 3) c fm fd t.fenv.level pb)
  return respond mc 0#32 0#32
    { t with
      voice := { t.voice with period := some (glided k p g tp), modcut := some mc }
      filter := Config.filterUpdate t.filter mc q
      fcoef := true }

/-- `VOICE_CTRL` (R150). -/
def execVoiceCtrl (s : State) : Host.Outcome State Fault Refusal :=
  commit .voiceCtrl s (ctrlCommand s)

end Sys2Proof.Machine
end

