-- ==== Sys2Proof/Machine/Register.lean ====
section
/-! DEFINITION. NOP, WR and RD (40_register_access.md R80 to R82). -/

namespace Sys2Proof.Machine

/-- `NOP` (R80). -/
def execNop (s : State) : Host.Outcome State Fault Refusal :=
  commit .nop s (.ok (respond 0#32 0#32 0#32 s))

/-- `WR U.R, v` (R81). -/
def writeCommand (r : Reg) (v : Word) (s : State) : Except Cause State :=
  if r.writable then .ok (respond 0#32 0#32 0#32 (s.regWrite r v)) else .error .illegalCmd

/-- `WR U.R, v` (R81). -/
def execWr (r : Reg) (v : Word) (s : State) : Host.Outcome State Fault Refusal :=
  commit (.wr r v) s (writeCommand r v s)

/-- `RD U.R` (R82): every register of the syntax is a legal one, so only an UNSET register faults. -/
def readCommand (r : Reg) (s : State) : Except Cause State := do
  let w ← need (s.regRead r)
  return respond w 0#32 0#32 s

/-- `RD U.R` (R82). -/
def execRd (r : Reg) (s : State) : Host.Outcome State Fault Refusal :=
  commit (.rd r) s (readCommand r s)

end Sys2Proof.Machine
end

