-- ==== Sys2Proof/Machine/Oscillator.lean ====
section
/-! DEFINITION. OSC_RESET, OSC_NEXT and OSC_SQUARE (41_oscillator.md R90 to R102). The argument `k` is the first of the free values that NaN results take (log 3). -/

namespace Sys2Proof.Machine

/-- The effects of `OSC_RESET O` on the unit (R90; 10_state.md R28). -/
def oscReset (o : Osc) : Osc :=
  { o with
    phase := Config.zero
    phmax := Config.zero
    inc := Config.zero
    sin0 := Config.zero
    sin1 := Config.zero
    dsin := Config.zero
    dc := Config.zero
    out := Config.zero }

/-- The half-period `(per / 2.0) * pm` (R91). -/
def halfPeriod (k : Nat) (per pm : Word) : Word := fmul (k + 1) (fdiv k per Config.two) pm

/-- phaseMax in samples, `floor32(0.5 + hp) - 0.5` (R91). -/
def phaseMaxSamples (k : Nat) (hp : Word) : Word :=
  fsub (k + 1) (ffloor (fadd k Config.half hp)) Config.half

/-- The sample before the DC subtraction at a cycle start (R91, R95): `SIN0 / p`, or the amplitude near zero. -/
def startSample (k : Nat) (p sin0 amp : Word) : Word :=
  if fgt (fmul k p p) Config.nearZeroEps then fdiv (k + 1) sin0 p else amp

/-- The cycle start of `OSC_NEXT` (R91, R92), from the incremented phase `p` and the parameters read: every
register it writes. -/
def cycleStart (k : Nat) (p per pm amp : Word) (o : Osc) : Osc :=
  let hp := halfPeriod k per pm
  let pms := phaseMaxSamples (k + 2) hp
  let dc := fdiv (k + 5) (fmul (k + 4) Config.half amp) pms
  let phmax := fmul (k + 6) pms Config.pi
  let inc := fdiv (k + 7) phmax hp
  let p := fneg p
  let sin0 := fmul (k + 8) amp (Config.sin32 p)
  let sin1 := fmul (k + 10) amp (Config.sin32 (fsub (k + 9) p inc))
  let dsin := fmul (k + 11) Config.two (Config.cos32 inc)
  let y := startSample (k + 12) p sin0 amp
  { o with
    dc := dc, phmax := phmax, inc := inc, sin0 := sin0, sin1 := sin1, dsin := dsin
    phase := p
    out := fsub (k + 14) y dc }

/-- The precondition faults of a cycle start (R93), `PMOD_NONPOS` before `OSC_DEGENERATE`. -/
def cycleCheck (k : Nat) (per pm : Word) : Except Cause Unit :=
  if !fgt pm Config.zero then .error .pmodNonpos
  else
    let hp := halfPeriod k per pm
    if !fgt (phaseMaxSamples (k + 2) hp) Config.zero || !isFinite hp then .error .oscDegenerate
    else .ok ()

/-- The samples inside a cycle (R91, R94), from the incremented phase `p`. -/
def inCycle (k : Nat) (p : Word) (o : Osc) : Osc :=
  let reflects := fgt p o.phmax
  let p' := if reflects then fsub (k + 1) (fadd k o.phmax o.phmax) p else p
  let inc := if reflects then fneg o.inc else o.inc
  let s := fsub (k + 3) (fmul (k + 2) o.dsin o.sin0) o.sin1
  let y := fdiv (k + 4) s p'
  { o with
    inc := inc, sin1 := o.sin0, sin0 := s
    phase := p'
    out := fsub (k + 5) y o.dc }

/-- The incremented phase of `OSC_NEXT` (R91). -/
def nextPhase (k : Nat) (o : Osc) : Word := fadd k o.phase o.inc

/-- Whether `OSC_NEXT` starts a cycle (R91, R92): the incremented phase is at most `PI_OVER_4`. -/
def startsCycle (k : Nat) (o : Osc) : Bool := fle (nextPhase k o) Config.piOver4

/-- How many free values one `OSC_NEXT` may take. -/
def oscNextDraws : Nat := 16

/-- `OSC_NEXT O` on the unit (R91); the sample is its `OUT`. -/
def oscNext (k : Nat) (o : Osc) : Except Cause Osc :=
  if startsCycle k o then do
    let per ← need o.period
    let amp ← need o.ampl
    cycleCheck (k + 1) per o.pmod
    return cycleStart (k + 1) (nextPhase k o) per o.pmod amp o
  else .ok (inCycle (k + 1) (nextPhase k o) o)

/-- `OSC_SQUARE O, newPeriod` on the unit `o`, with `q` the reference (R98). -/
def oscSquare (k : Nat) (q : Osc) (np : Word) (o : Osc) : Osc :=
  let ph :=
    if fgt q.inc Config.zero then fsub (k + 1) (fadd k q.phmax q.phmax) q.phase
    else if flt q.inc Config.zero then q.phase
    else fneg Config.pi
  let inc :=
    if fgt q.inc Config.zero then fneg q.inc
    else if flt q.inc Config.zero then q.inc
    else Config.pi
  let ph := fadd (k + 4) ph (fdiv (k + 3) (fmul (k + 2) Config.pi np) Config.two)
  { oscReset o with phase := ph, inc := inc, phmax := ph }

/-- How many free values one `OSC_SQUARE` may take. -/
def oscSquareDraws : Nat := 5

/-- `OSC_RESET O` (R90). -/
def execOscReset (u : OscUnit) (s : State) : Host.Outcome State Fault Refusal :=
  commit (.oscReset u) s (.ok (respond 0#32 0#32 0#32 (s.setOsc u (oscReset (s.osc u)))))

/-- One step of an oscillator unit in the state. -/
def oscStep (u : OscUnit) (s : State) : Except Cause State := do
  let o ← oscNext s.nanDraws (s.osc u)
  return (s.setOsc u o).draw oscNextDraws

/-- `OSC_NEXT O` (R91), answering the sample (30_encoding.md R66). -/
def oscNextCommand (u : OscUnit) (s : State) : Except Cause State := do
  let t ← oscStep u s
  return respond (t.osc u).out 0#32 0#32 t

/-- `OSC_NEXT O` (R91). -/
def execOscNext (u : OscUnit) (s : State) : Host.Outcome State Fault Refusal :=
  commit (.oscNext u) s (oscNextCommand u s)

/-- `OSC_SQUARE O, newPeriod` (R98): the reference is the other oscillator. -/
def execOscSquare (u : OscUnit) (np : Word) (s : State) : Host.Outcome State Fault Refusal :=
  commit (.oscSquare u np) s
    (.ok (respond 0#32 0#32 0#32
      ((s.setOsc u (oscSquare s.nanDraws (s.osc u.other) np (s.osc u))).draw oscSquareDraws)))

end Sys2Proof.Machine
end

