-- ==== Sys2Proof/Machine/VoiceMixer.lean ====
section
/-! DEFINITION. VOICE_RESET, VOICE_RENDER, VOICE_RELEASE, VOICE_PAN and VOICE_SETPER (43_voice_mixer.md R130 to R138). -/

namespace Sys2Proof.Machine

/-- The `VOICE` registers after `VOICE_RESET` (R130). -/
def voiceReset (v : Voice) : Voice :=
  { v with
    note := 0#32
    saw := Config.zero
    panl := Config.panReset
    panr := Config.panReset
    out := Config.zero
    outl := Config.zero
    outr := Config.zero }

/-- `VOICE_RESET` (R130). -/
def execVoiceReset (s : State) : Host.Outcome State Fault Refusal :=
  commit .voiceReset s
    (.ok (respond 0#32 0#32 0#32
      { s with
        osc1 := oscReset s.osc1
        osc2 := oscReset s.osc2
        aenv := envReset s.aenv
        fenv := envReset s.fenv
        voice := voiceReset s.voice
        filter := Config.filterReset s.filter }))

/-- The leaky integrator `(SAW * LEAK) + (s1 - s2)` (R131, R133). -/
def nextSaw (k : Nat) (saw s1 s2 : Word) : Word :=
  fadd (k + 2) (fmul k saw Config.leak) (fsub (k + 1) s1 s2)

/-- The Filter slot (R131): bypassed with `FBYP = 1`, else rendered, which faults while `FCOEF = 0` (10_state.md R45). -/
def filterSlot (s : State) (x : Word) : Except Cause (Word × FilterState) :=
  if s.voice.fbyp then .ok (x, s.filter)
  else if s.fcoef then .ok (Config.filterRender s.filter x)
  else .error .unsetOperand

/-- How many free values the mixing arithmetic of `VOICE_RENDER` may take. -/
def mixDraws : Nat := 7

/-- `VOICE_RENDER noise` (R131): OSC1, OSC2, integrator, noise, Filter, AENV, gains. -/
def renderCommand (n : Word) (s : State) : Except Cause State := do
  let s1 ← oscStep .osc1 s
  let s2 ← oscStep .osc2 s1
  let k := s2.nanDraws
  let saw := nextSaw k s2.voice.saw s2.osc1.out s2.osc2.out
  let x := fadd (k + 3) saw n
  let (y, f) ← filterSlot s2 x
  let s3 ← envStep .aenv (s2.draw mixDraws)
  let out := fmul (k + 4) y s3.aenv.level
  let outl := fmul (k + 5) out s3.voice.panl
  let outr := fmul (k + 6) out s3.voice.panr
  return respond out outl outr
    { s3 with
      filter := f
      voice := { s3.voice with saw := saw, out := out, outl := outl, outr := outr } }

/-- `VOICE_RENDER noise` (R131). -/
def execVoiceRender (n : Word) (s : State) : Host.Outcome State Fault Refusal :=
  commit (.voiceRender n) s (renderCommand n s)

/-- `VOICE_RELEASE` (R135): both envelopes, `AENV` first. -/
def voiceReleaseCommand (s : State) : Except Cause State := do
  let t ← releaseStep .aenv s
  let t ← releaseStep .fenv t
  return respond 0#32 0#32 0#32 t

/-- `VOICE_RELEASE` (R135). -/
def execVoiceRelease (s : State) : Host.Outcome State Fault Refusal :=
  commit .voiceRelease s (voiceReleaseCommand s)

/-- `clamp((toF32(NOTE) - NOTE_CENTRE) / NOTE_SPAN, -1.0, 1.0)` (R136). -/
def panOf (k : Nat) (note : Word) : Word :=
  fclamp (fdiv (k + 1) (fsub k (toF32 note) Config.noteCentre) Config.noteSpan) Config.minusOne Config.one

/-- `PANL` of a pan position (R136). -/
def panLeft (k : Nat) (pan : Word) : Word :=
  Config.sin32 (fmul (k + 1) Config.piOver4 (fsub k Config.one pan))

/-- `PANR` of a pan position (R136). -/
def panRight (k : Nat) (pan : Word) : Word :=
  Config.sin32 (fmul (k + 1) Config.piOver4 (fadd k Config.one pan))

/-- How many free values `VOICE_PAN` may take. -/
def panDraws : Nat := 6

/-- `VOICE_PAN` (R136). -/
def execVoicePan (s : State) : Host.Outcome State Fault Refusal :=
  let k := s.nanDraws
  let pan := panOf k s.voice.note
  commit .voicePan s
    (.ok (respond 0#32 0#32 0#32
      (({ s with voice := { s.voice with panl := panLeft (k + 2) pan, panr := panRight (k + 4) pan } } : State).draw
        panDraws)))

/-- `VOICE_SETPER` (R138): the oscillator periods and their set flags. -/
def setperCommand (s : State) : Except Cause State := do
  let k := s.nanDraws
  let p ← need s.voice.period
  let pb ← need s.voice.pbend
  let dt ← need s.voice.detune
  let p1 := fmul k p pb
  let p2 := fmul (k + 1) p1 dt
  return respond 0#32 0#32 0#32
    (({ s with osc1 := { s.osc1 with period := some p1 }, osc2 := { s.osc2 with period := some p2 } } : State).draw 2)

/-- `VOICE_SETPER` (R138). -/
def execVoiceSetper (s : State) : Host.Outcome State Fault Refusal :=
  commit .voiceSetper s (setperCommand s)

end Sys2Proof.Machine
end

