-- ==== Sys2Proof/Machine/Dispatch.lean ====
section
/-! DEFINITION. One arm per command: which meaning each constructor of Instr has. -/

namespace Sys2Proof.Machine

/-- The meaning of a command in a state. -/
def exec (i : Instr) (s : State) : Host.Outcome State Fault Refusal :=
  match i with
  | .nop => Sys2Proof.Machine.execNop s
  | .wr r v => Sys2Proof.Machine.execWr r v s
  | .rd r => Sys2Proof.Machine.execRd r s
  | .oscReset o => Sys2Proof.Machine.execOscReset o s
  | .envReset e => Sys2Proof.Machine.execEnvReset e s
  | .voiceReset => Sys2Proof.Machine.execVoiceReset s
  | .oscNext o => Sys2Proof.Machine.execOscNext o s
  | .envNext e => Sys2Proof.Machine.execEnvNext e s
  | .voiceRender n => Sys2Proof.Machine.execVoiceRender n s
  | .envAttack e => Sys2Proof.Machine.execEnvAttack e s
  | .envRelease e => Sys2Proof.Machine.execEnvRelease e s
  | .voiceRelease => Sys2Proof.Machine.execVoiceRelease s
  | .envNudge e => Sys2Proof.Machine.execEnvNudge e s
  | .oscSquare o np => Sys2Proof.Machine.execOscSquare o np s
  | .voicePan => Sys2Proof.Machine.execVoicePan s
  | .voiceCtrl => Sys2Proof.Machine.execVoiceCtrl s
  | .voiceSetper => Sys2Proof.Machine.execVoiceSetper s

end Sys2Proof.Machine
end

