-- ==== Sys2Proof/Machine/Port.lean ====
section
/-! DEFINITION. One command from its words (30_encoding.md R61) and one clock edge of the command port (R60). -/

namespace Sys2Proof.Machine

/-- One command given as its words (R61): a legal word runs its command, an illegal one faults with
`ILLEGAL_CMD` and reads and writes nothing else (R67, 60_exceptions.md R162). -/
def runCommand (w : CmdWord) (d : Word) (s : State) : Host.Outcome State Fault Refusal :=
  match decode w d with
  | .ok i => exec i s
  | .reject _ => .next (raiseFault .illegalCmd w s)

/-- The response phase of a clock edge: the command in flight runs at its response edge, else one edge passes. -/
def responsePhase (s : State) : Host.Outcome State Fault Refusal :=
  match s.inflight with
  | none => .next (waitEdge s)
  | some c => if c.responds then runCommand c.word c.data (takeInFlight s) else .next (waitEdge s)

/-- An outcome followed by acceptance at the same edge. -/
def thenAccept (p : Pins) : Host.Outcome State Fault Refusal → Host.Outcome State Fault Refusal
  | .next t => .next (accept p t)
  | .fault r => .fault r
  | .refused r => .refused r

/-- One rising edge of `clk` with the pins `p` (R60, 70_reset_and_hazards.md R190): reset while `rst_n` is 0; else
the response phase and then, `cmd_ready` being 1, acceptance. -/
def clockEdge (p : Pins) (s : State) : Host.Outcome State Fault Refusal :=
  if p.rstN then thenAccept p (responsePhase s) else .next (hardReset s)

/-- Several commands one after another, each as its words (R57, R61): the order of a finite run (60_exceptions.md R188). -/
def runCommands : List (CmdWord × Word) → State → Host.Outcome State Fault Refusal
  | [], s => .next s
  | (w, d) :: cs, s =>
    match runCommand w d s with
    | .next t => runCommands cs t
    | .fault r => .fault r
    | .refused r => .refused r

end Sys2Proof.Machine
end

