-- ==== Sys2Proof/Machine/Step.lean ====
section
/-! DEFINITION. The step: one rising clock edge with the host's pins at that edge; and the placing of a command so that the very next step runs it. -/

namespace Sys2Proof.Machine

/-- One step: one rising edge of `clk` (30_encoding.md R60), with the next of the host's pins. -/
def step (s : State) : Host.Outcome State Fault Refusal := clockEdge s.nextPins s.dropPins

/-- The state with the command of a table word in flight at its response edge, and the host idle at that edge, so
that the next step runs exactly that command (log 16). -/
def State.withFetchWord (s : State) (nbits w : Nat) : State :=
  { s with
    inflight := some { word := tableCmdWord nbits w, data := tableDataWord nbits w, left := 1 }
    pins := Pins.idle :: s.pins }

end Sys2Proof.Machine
end

