-- ==== Sys2Proof/Machine/Assembly.lean ====
section
/-! DEFINITION. The command syntax of 30_encoding.md R70 as a listing of each command, and the pseudo-commands of R71 as the lists of commands they stand for. -/

namespace Sys2Proof.Machine

/-- The name of an oscillator unit (R70). -/
def oscUnitName : OscUnit → String
  | .osc1 => "OSC1"
  | .osc2 => "OSC2"

/-- The name of an envelope unit (R70). -/
def envUnitName : EnvUnit → String
  | .aenv => "AENV"
  | .fenv => "FENV"

/-- The name of an oscillator register (10_state.md section 2). -/
def oscRegName : OscReg → String
  | .period => "PERIOD"
  | .ampl => "AMPL"
  | .pmod => "PMOD"
  | .phase => "PHASE"
  | .phmax => "PHMAX"
  | .inc => "INC"
  | .sin0 => "SIN0"
  | .sin1 => "SIN1"
  | .dsin => "DSIN"
  | .dc => "DC"
  | .out => "OUT"

/-- The name of an envelope register (10_state.md section 3). -/
def envRegName : EnvReg → String
  | .attmul => "ATTMUL"
  | .decmul => "DECMUL"
  | .suslvl => "SUSLVL"
  | .relmul => "RELMUL"
  | .level => "LEVEL"
  | .target => "TARGET"
  | .mult => "MULT"
  | .status => "STATUS"

/-- The name of a voice register (10_state.md section 4). -/
def voiceRegName : VoiceReg → String
  | .note => "NOTE"
  | .period => "PERIOD"
  | .tperiod => "TPERIOD"
  | .glide => "GLIDE"
  | .cutoff => "CUTOFF"
  | .filtq => "FILTQ"
  | .fenvdepth => "FENVDEPTH"
  | .filtmod => "FILTMOD"
  | .pbend => "PBEND"
  | .detune => "DETUNE"
  | .ctrl => "CTRL"
  | .saw => "SAW"
  | .panl => "PANL"
  | .panr => "PANR"
  | .out => "OUT"
  | .outl => "OUTL"
  | .outr => "OUTR"
  | .modcut => "MODCUT"
  | .fault => "FAULT"
  | .fcmd => "FCMD"
  | .vstatus => "VSTATUS"

/-- `<unit>.<reg>` (R70). -/
def regName : Reg → String
  | .osc u r => oscUnitName u ++ "." ++ oscRegName r
  | .env u r => envUnitName u ++ "." ++ envRegName r
  | .voice r => "VOICE." ++ voiceRegName r

/-- The hexadecimal digit of a number below 16. -/
def hexDigit (n : Nat) : Char := if n < 10 then Char.ofNat (48 + n) else Char.ofNat (55 + n)

/-- A hex word `0xHHHHHHHH`, "stored as those bits" (R70). -/
def hexWord (w : Word) : String :=
  "0x" ++ String.ofList ((List.range 8).map fun i => hexDigit (w.toNat / 16 ^ (7 - i) % 16))

/-- One command in the syntax of R70, its values as hex words. -/
def asmLine : Instr → String
  | .nop => "NOP"
  | .wr r v => "WR " ++ regName r ++ ", " ++ hexWord v
  | .rd r => "RD " ++ regName r
  | .oscReset o => "OSC_RESET " ++ oscUnitName o
  | .envReset e => "ENV_RESET " ++ envUnitName e
  | .voiceReset => "VOICE_RESET"
  | .oscNext o => "OSC_NEXT " ++ oscUnitName o
  | .envNext e => "ENV_NEXT " ++ envUnitName e
  | .voiceRender n => "VOICE_RENDER " ++ hexWord n
  | .envAttack e => "ENV_ATTACK " ++ envUnitName e
  | .envRelease e => "ENV_RELEASE " ++ envUnitName e
  | .voiceRelease => "VOICE_RELEASE"
  | .envNudge e => "ENV_NUDGE " ++ envUnitName e
  | .oscSquare o np => "OSC_SQUARE " ++ oscUnitName o ++ ", " ++ hexWord np
  | .voicePan => "VOICE_PAN"
  | .voiceCtrl => "VOICE_CTRL"
  | .voiceSetper => "VOICE_SETPER"

/-! ## Pseudo-commands (R71): their parts execute as separate commands -/

/-- `ATTACK_BOTH`. -/
def attackBoth : List Instr := [.envAttack .aenv, .envAttack .fenv]

/-- `SET_NOTE <n>`. -/
def setNote (n : Word) : List Instr := [.wr (.voice .note) n, .voicePan]

/-- `LOAD_ENV <env>, <a>, <d>, <s>, <r>`. -/
def loadEnv (e : EnvUnit) (a d s r : Word) : List Instr :=
  [.wr (.env e .attmul) a, .wr (.env e .decmul) d, .wr (.env e .suslvl) s, .wr (.env e .relmul) r]

/-- `LOAD_OSC <osc>, <period>, <ampl>`. -/
def loadOsc (o : OscUnit) (period ampl : Word) : List Instr :=
  [.wr (.osc o .period) period, .wr (.osc o .ampl) ampl]

/-- `CHECK_SILENT`: the host then tests bit 0 of the response itself. -/
def checkSilent : List Instr := [.rd (.voice .vstatus)]

end Sys2Proof.Machine
end

