-- ==== Sys2Proof/Machine/System.lean ====
section
/-! DEFINITION. Several instances beside each other (60_exceptions.md R177): each with its own command port, registers, Filter and fault record. -/

namespace Sys2Proof.Machine

/-- The instances right after hardware reset: `MAX_VOICES` of them (00_scope.md R7). -/
def systemReset : List State := List.replicate Config.maxVoices State.reset

/-- One step of instance `n`; the host sequences the instances, which share nothing (R177). -/
def stepInstance (n : Nat) (sys : List State) : Host.Outcome (List State) Fault Refusal :=
  match sys[n]? with
  | none => .next sys
  | some s =>
    match step s with
    | .next t => .next (sys.set n t)
    | .fault r => .fault r
    | .refused r => .refused r

end Sys2Proof.Machine
end

