-- ==== Sys2Proof/Safety.lean ====
section
/-! DEFINITION. The terms claims use: the legal command words as 30_encoding.md R68 and R69 list them, the registers each command may write, when a command completes without a fault, correct rounding, the invariant of the state, and the faults of a run. -/

namespace Sys2Proof.Machine

/-! ## Legal command words, as R68 and R69 list them -/

/-- The rows of R68 other than `WR` and `RD`, as (match, mask). -/
def fixedRows : List (CmdWord × CmdWord) :=
  [(0x0000#16, 0xFFFF#16), (0x3000#16, 0xFEFF#16), (0x3200#16, 0xFEFF#16), (0x3400#16, 0xFFFF#16),
   (0x4000#16, 0xFEFF#16), (0x4200#16, 0xFEFF#16), (0x4400#16, 0xFFFF#16), (0x5200#16, 0xFEFF#16),
   (0x6200#16, 0xFEFF#16), (0x6400#16, 0xFFFF#16), (0x7200#16, 0xFEFF#16), (0x8000#16, 0xFEFF#16),
   (0x9400#16, 0xFFFF#16), (0xA400#16, 0xFFFF#16), (0xB400#16, 0xFFFF#16)]

/-- All rows of R68, as (match, mask). -/
def tableRows : List (CmdWord × CmdWord) :=
  fixedRows ++ [(0x1000#16, 0xF000#16), (0x2000#16, 0xF000#16)]

/-- `lo` to `hi`, both included. -/
def between (lo hi n : Nat) : Bool := lo ≤ n && n ≤ hi

/-- The legal `WR` pairs of R69. -/
def legalWrPair (u r : Nat) : Bool :=
  (between 0 1 u && between 0x00 0x02 r) || (between 2 3 u && between 0x00 0x03 r)
    || (u == 4 && between 0x00 0x0A r)

/-- The legal `RD` pairs of R69. -/
def legalRdPair (u r : Nat) : Bool :=
  (between 0 1 u && (between 0x00 0x02 r || between 0x10 0x17 r))
    || (between 2 3 u && (between 0x00 0x03 r || between 0x10 0x12 r || r == 0x20))
    || (u == 4 && (between 0x00 0x0A r || between 0x10 0x16 r || between 0x20 0x22 r))

/-- A legal command word: it matches a row of R68, and a `WR` or `RD` word is one of R69. -/
def legalWord (w : CmdWord) : Bool :=
  fixedRows.any (fun row => w &&& row.2 == row.1)
    || (w &&& 0xF000#16 == 0x1000#16 && legalWrPair (w.toNat / 256 % 16) (w.toNat % 256))
    || (w &&& 0xF000#16 == 0x2000#16 && legalRdPair (w.toNat / 256 % 16) (w.toNat % 256))

/-- The three commands that use the data word (R65). -/
def usesData : Instr → Bool
  | .wr _ _ | .oscSquare _ _ | .voiceRender _ => true
  | .nop | .rd _ | .oscReset _ | .envReset _ | .voiceReset | .oscNext _ | .envNext _ | .envAttack _
  | .envRelease _ | .voiceRelease | .envNudge _ | .voicePan | .voiceCtrl | .voiceSetper => false

/-! ## What each command may write: the "Status written" entries of files 40 to 44 -/

/-- The oscillator's continuous state, `PHASE` to `OUT`. -/
def oscContinuous : OscReg → Bool
  | .period | .ampl | .pmod => false
  | .phase | .phmax | .inc | .sin0 | .sin1 | .dsin | .dc | .out => true

/-- The registers a command may write when it completes without a fault, with the computed words `STATUS`
and `VSTATUS` where a register they read from is among them. -/
def writes : Instr → Reg → Bool
  | .nop, _ => false
  | .rd _, _ => false
  | .wr r _, q => q == r
  | .oscReset u, .osc v r => v == u && oscContinuous r
  | .oscNext u, .osc v r => v == u && oscContinuous r
  | .oscSquare u _, .osc v r => v == u && oscContinuous r
  | .envReset e, .env f r => f == e && !r.writable
  | .envNext e, .env f r => f == e && !r.writable
  | .envAttack e, .env f r => f == e && !r.writable
  | .envRelease e, .env f r => f == e && (r == .target || r == .mult || r == .status)
  | .envNudge e, .env f r => f == e && (r == .level || r == .status)
  | .envReset _, .voice r | .envNext _, .voice r | .envAttack _, .voice r | .envRelease _, .voice r
  | .envNudge _, .voice r => r == .vstatus
  | .voiceReset, .osc _ r => oscContinuous r
  | .voiceReset, .env _ r => !r.writable
  | .voiceReset, .voice r =>
    r == .note || r == .saw || r == .panl || r == .panr || r == .out || r == .outl || r == .outr || r == .vstatus
  | .voiceRender _, .osc _ r => oscContinuous r
  | .voiceRender _, .env f r => f == .aenv && !r.writable
  | .voiceRender _, .voice r => r == .saw || r == .out || r == .outl || r == .outr || r == .vstatus
  | .voiceRelease, .env _ r => r == .target || r == .mult || r == .status
  | .voiceRelease, .voice r => r == .vstatus
  | .voicePan, .voice r => r == .panl || r == .panr
  | .voiceCtrl, .env f r => f == .fenv && !r.writable
  | .voiceCtrl, .voice r => r == .period || r == .modcut || r == .vstatus
  | .voiceSetper, .osc _ r => r == .period
  | .oscReset _, _ | .oscNext _, _ | .oscSquare _ _, _ | .envReset _, _ | .envNext _, _ | .envAttack _, _
  | .envRelease _, _ | .envNudge _, _ | .voiceRelease, _ | .voicePan, _ | .voiceCtrl, _ | .voiceSetper, _ => false

/-- The commands that act on the attached Filter (60_exceptions.md R175). -/
def actsOnFilter : Instr → Bool
  | .voiceReset | .voiceRender _ | .voiceCtrl => true
  | .nop | .wr _ _ | .rd _ | .oscReset _ | .envReset _ | .oscNext _ | .envNext _ | .envAttack _
  | .envRelease _ | .voiceRelease | .envNudge _ | .oscSquare _ _ | .voicePan | .voiceSetper => false

/-! ## When a command completes without a fault -/

/-- The parameters a cycle start needs (41_oscillator.md R91, R93): `PERIOD` and `AMPL` set, `PMOD > 0`,
phaseMax in samples above 0 and a finite half-period. The numbers `k` only name free NaN values. -/
def parametersGood (k : Nat) (per amp : Option Word) (pm : Word) : Bool :=
  match per, amp with
  | some p, some _ =>
    let hp := fmul (k + 2) (fdiv (k + 1) p Config.two) pm
    let pms := fsub (k + 4) (ffloor (fadd (k + 3) Config.half hp)) Config.half
    fgt pm Config.zero && fgt pms Config.zero && isFinite hp
  | _, _ => false

/-- `OSC_NEXT` on this unit raises no fault: it is inside a cycle, or its parameters are good. -/
def oscReady (k : Nat) (o : Osc) : Bool :=
  !fle (fadd k o.phase o.inc) Config.piOver4 || parametersGood k o.period o.ampl o.pmod

/-- `ENV_NEXT` on this unit raises no fault: the step does not end an attack, or `DECMUL` and `SUSLVL` are set
(42_envelope.md R111). -/
def envReady (k : Nat) (u : Env) : Bool :=
  let lv := fadd (k + 2) (fmul (k + 1) u.mult (fsub k u.level u.target)) u.target
  !fgt (fadd (k + 3) lv u.target) Config.attackExit || (u.decmul.isSome && u.suslvl.isSome)

/-! ## Correct rounding (00_scope.md R9) -/

/-- Half an ulp past the largest finite magnitude, in units of 2^-149: from here on values round to infinity. -/
def overflowMag : Nat := (2 ^ 25 - 1) * 2 ^ 252

/-- `w` is the binary32 nearest to `n/d` (in units of 2^-149), ties to even; an infinity at and past the
overflow threshold; of the sign of `n`. -/
def NearestEven (n : Int) (d : Nat) (w : Word) : Prop :=
  (n < 0 → signBit w = true) ∧ (0 < n → signBit w = false) ∧
  (overflowMag * d ≤ n.natAbs → isInf w = true) ∧
  (n.natAbs < overflowMag * d → isFinite w = true ∧
    ∀ x : Word, isFinite x = true →
      (val w * d - n).natAbs ≤ (val x * d - n).natAbs ∧
      ((val w * d - n).natAbs = (val x * d - n).natAbs → val x ≠ val w → w.getLsbD 0 = false))

/-! ## The invariant of the state -/

/-- What every state of the block keeps: reserved bits are zero (10_state.md R40 to R42), only the causes of
60_exceptions.md R160 are recorded and with the command word that raised them, `FCOEF` is set exactly when
`MODCUT` is (R39, R45), `MODCUT` is a NaN or in [30 Hz, 20000 Hz] (44 R152), a command in flight is at most
`CMD_LATENCY` edges from its response (30 R60), and a response is that of R66. -/
structure State.Inv (s : State) : Prop where
  ctrl_reserved : ctrlWord s.voice.ctrl = s.voice.ctrl
  fault_codes : s.voice.fault.toNat ≤ 4
  fcmd_reserved : fcmdWord s.voice.fcmd = s.voice.fcmd
  no_fault_no_word : s.voice.fault = 0#32 → s.voice.fcmd = 0#32
  illegal_cause : s.voice.fault = 1#32 → legalWord (s.voice.fcmd.setWidth 16) = false
  legal_cause : 2 ≤ s.voice.fault.toNat → legalWord (s.voice.fcmd.setWidth 16) = true
  coefficients : s.fcoef = s.voice.modcut.isSome
  cutoff_range : ∀ m, s.voice.modcut = some m →
    isNaN m = true ∨ (fle Config.cutMin m = true ∧ fle m Config.cutMax = true)
  in_flight : ∀ c, s.inflight = some c → 1 ≤ c.left ∧ c.left ≤ Config.cmdLatency
  response : ∀ r, s.rsp = some r →
    (r.fault = false → r.cause = 0#4) ∧
    (r.fault = true → 1 ≤ r.cause.toNat ∧ r.cause.toNat ≤ 4 ∧ r.d0 = 0#32 ∧ r.d1 = 0#32 ∧ r.d2 = 0#32)

/-! ## Runs and the fault record -/

/-- The causes and command words of the faults of a run of commands, in order. -/
def runFaults : List (CmdWord × Word) → State → List (BitVec 4 × CmdWord)
  | [], _ => []
  | (w, d) :: cs, s =>
    match runCommand w d s with
    | .next t =>
      (match t.rsp with
        | some r => if r.fault then [(r.cause, w)] else []
        | none => []) ++ runFaults cs t
    | .fault _ => []
    | .refused _ => []

/-- A run of commands is safe when none of them faults (60_exceptions.md R188). -/
def safeRun (cs : List (CmdWord × Word)) (s : State) : Prop := runFaults cs s = []

/-- The state with another fault record. -/
def State.withRecord (s : State) (fault fcmd : Word) : State :=
  { s with voice := { s.voice with fault := fault, fcmd := fcmd } }

/-- An outcome with its fault record blanked. -/
def blankRecord : Host.Outcome State Fault Refusal → Host.Outcome State Fault Refusal
  | .next t => .next (t.withRecord 0#32 0#32)
  | .fault r => .fault r
  | .refused r => .refused r

/-- The commands that read the fault record: `RD` of `FAULT`, `FCMD` or `VSTATUS`. -/
def readsRecord : Instr → Bool
  | .rd (.voice .fault) | .rd (.voice .fcmd) | .rd (.voice .vstatus) => true
  | _ => false

/-! ## The stage of an envelope, for reading only (10_state.md R32) -/

/-- The stage names of R32. -/
inductive Stage where
  | attack | decaySustain | release | idle
  deriving DecidableEq, Repr

/-- The stage as a function of `TARGET` and `STATUS.ACTIVE` (R32); a negative or NaN `TARGET` is in no stage.
Nothing of the block reads it. -/
def Env.stage (u : Env) : Option Stage :=
  if fge u.target Config.attackTarget then some .attack
  else if fgt u.target Config.zero then some .decaySustain
  else if fle u.target Config.zero && fge u.target Config.zero then
    if u.active then some .release else some .idle
  else none

end Sys2Proof.Machine
end

