-- ==== Sys2Proof/Certificates/Slice0/Obligations.lean ====
section
/-! DEFINITION. The statements about the model, each from the rules of spec/ that its docstring names. The numbers added to `nanDraws` only name the free NaN values of an operation (log 3); every statement holds for every value of them. -/

open Sys2Proof Sys2Proof.Machine

/-! ## Encoding (30_encoding.md) -/

/-- R62 to R65: the decoder gives back every well-formed command from its words, and the commands that do not use
the data word whatever its bits. -/
def Obligations.DecodeOfEncodeIsTheCommand : Prop :=
  ∀ i : Instr, i.wellFormed = true →
    decode (encode i).1 (encode i).2 = .ok i ∧
    (usesData i = false → ∀ d : Word, decode i.cmdWord d = .ok i)

/-- R63, R65: a decoded word is the command word of what it decodes to, and a used data word is kept whole. -/
def Obligations.EncodeOfDecodeIsTheWord : Prop :=
  ∀ (w : CmdWord) (d : Word) (i : Instr), decode w d = .ok i →
    i.cmdWord = w ∧ i.wellFormed = true ∧ (usesData i = true → i.data = d)

/-- R68, R69: the words that decode are the rows of R68 with the `WR` and `RD` words of R69, and no word matches two rows. -/
def Obligations.LegalWordsAreTheListedOnes : Prop :=
  (∀ (w : CmdWord) (d : Word), (decode w d).instr?.isSome = legalWord w) ∧
  (∀ w : CmdWord, (tableRows.filter fun row => w &&& row.2 == row.1).length ≤ 1)

/-- R68, R69: one word of every family, written out from the tables, is the command it stands for. -/
def Obligations.WrittenOutWordsDecode : Prop :=
  decode 0x1000#16 0x42C80000#32 = .ok (.wr (.osc .osc1 .period) 0x42C80000#32) ∧
  decode 0x2422#16 0#32 = .ok (.rd (.voice .vstatus)) ∧
  decode 0x8100#16 0x42C80000#32 = .ok (.oscSquare .osc2 0x42C80000#32) ∧
  decode 0x5300#16 0#32 = .ok (.envAttack .fenv) ∧
  decode 0x4400#16 0x3E800000#32 = .ok (.voiceRender 0x3E800000#32) ∧
  decode 0xA400#16 0#32 = .ok .voiceCtrl

/-! ## Faults (60_exceptions.md) -/

/-- R162: an illegal word faults with `ILLEGAL_CMD` and has no effect but the fault record. -/
def Obligations.IllegalWordOnlyFaults : Prop :=
  ∀ (w : CmdWord) (d : Word) (s : State), legalWord w = false →
    runCommand w d s = .next { s with
      voice := if s.voice.cause = 0#4 then { s.voice with fault := 1#32, fcmd := w.setWidth 32 } else s.voice
      rsp := some { fault := true, cause := 1#4, d0 := 0#32, d1 := 0#32, d2 := 0#32 } }

/-- R160, R161, R167: a command that faults, with a cause of 1 to 4, leaves the whole state as it found it but for the
record of the first fault and the response. -/
def Obligations.FaultingCommandIsPrecise : Prop :=
  ∀ (i : Instr) (s t : State) (r : Response), exec i s = .next t → t.rsp = some r → r.fault = true →
    t = { s with
      voice :=
        if s.voice.cause = 0#4 then
          { s.voice with fault := r.cause.setWidth 32, fcmd := i.cmdWord.setWidth 32 }
        else s.voice
      rsp := some r } ∧
    1 ≤ r.cause.toNat ∧ r.cause.toNat ≤ 4 ∧ r.d0 = 0#32 ∧ r.d1 = 0#32 ∧ r.d2 = 0#32

/-- R161, R170: once a fault is recorded, no step that is no hardware reset changes `FAULT` or `FCMD`. -/
def Obligations.FaultRecordIsSticky : Prop :=
  ∀ s t : State, step s = .next t → s.nextPins.rstN = true → s.voice.cause ≠ 0#4 →
    t.voice.fault = s.voice.fault ∧ t.voice.fcmd = s.voice.fcmd

/-- R161, R188: after a run of commands from a state with no fault recorded, the record is that of the first
command that faulted, and none when none did. -/
def Obligations.RunRecordsItsFirstFault : Prop :=
  ∀ (cs : List (CmdWord × Word)) (s t : State), s.voice.cause = 0#4 → runCommands cs s = .next t →
    (safeRun cs s → t.voice.fault = s.voice.fault ∧ t.voice.fcmd = s.voice.fcmd) ∧
    (∀ (c : BitVec 4) (w : CmdWord) (rest : List (BitVec 4 × CmdWord)), runFaults cs s = (c, w) :: rest →
      c ≠ 0#4 ∧ t.voice.fault = c.setWidth 32 ∧ t.voice.fcmd = w.setWidth 32)

/-- R161, R171: the fault record steers nothing: a command that does not read it does the same, up to the record,
whatever the record holds. -/
def Obligations.FaultRecordSteersNothing : Prop :=
  ∀ (i : Instr) (s : State) (f w : Word), readsRecord i = false →
    blankRecord (exec i (s.withRecord f w)) = blankRecord (exec i s)

/-! ## Whole-machine rules -/

/-- The invariant of 10_state.md R39 to R42 and R45, 60 R160, 44 R152 and 30 R60, R66 is kept by every step. -/
def Obligations.StepKeepsTheInvariant : Prop :=
  ∀ s t : State, s.Inv → step s = .next t → t.Inv

/-- The invariant holds after hardware reset. -/
def Obligations.ResetMeetsTheInvariant : Prop := State.reset.Inv

/-- 70 R203, 60 R161: a step always answers a next state: nothing stalls or stops the block. -/
def Obligations.StepAlwaysAnswersNext : Prop := ∀ s : State, ∃ t, step s = .next t

/-- R60, R61: at its response edge a command in flight is decoded and run, and the same edge may accept the next
one; a table word placed with `withFetchWord` is run by the next step. -/
def Obligations.StepRunsTheDecodedCommand : Prop :=
  (∀ (s : State) (c : InFlight) (i : Instr), s.inflight = some c → c.left ≤ 1 → s.nextPins.rstN = true →
    decode c.word c.data = .ok i →
    ∃ t, exec i { s with inflight := none, rsp := none, pins := s.pins.tail } = .next t ∧
      step s = .next (if s.nextPins.cmdValid then
        { t with inflight := some {
            word := s.nextPins.cmdWord, data := s.nextPins.cmdData, left := Config.cmdLatency } }
        else t)) ∧
  (∀ (s : State) (nbits w : Nat) (i : Instr), decodeTableWord nbits w = some i →
    step (s.withFetchWord nbits w) = exec i { s with inflight := none, rsp := none })

/-- R60, R202: a command offered to an idle block is answered by the edge `CMD_LATENCY` edges after its acceptance, if
no reset comes between; until then there is no response and no register changes. -/
def Obligations.CommandRespondsAfterItsLatency : Prop :=
  ∀ (s : State) (w : CmdWord) (d : Word) (ps qs : List Pins),
    s.inflight = none →
    s.pins = { rstN := true, cmdValid := true, cmdWord := w, cmdData := d } :: (ps ++ qs) →
    ps.length = Config.cmdLatency → (∀ p ∈ ps, p.rstN = true) →
    (∀ n, n < Config.cmdLatency → ∃ t, Sys2Proof.core.run (n + 1) s = .next t ∧ rspValid t = false ∧
      ∀ q, State.regRead t q = s.regRead q) ∧
    (∀ last, ps.getLast? = some last →
      Sys2Proof.core.run (Config.cmdLatency + 1) s =
        thenAccept last (runCommand w d { s with rsp := none, pins := qs }))

/-- R60, 70 R200: while a command in flight is not at its response edge, `cmd_ready` is 0 and an edge accepts nothing,
answers nothing and changes no register. -/
def Obligations.NothingAcceptedInFlight : Prop :=
  ∀ (s : State) (c : InFlight), s.inflight = some c → 2 ≤ c.left → s.nextPins.rstN = true →
    cmdReady true s = false ∧
    step s = .next { s with
      inflight := some { c with left := c.left - 1 }, rsp := none, pins := s.pins.tail }

/-- 70 R190: every edge with `rst_n` = 0 gives the reset state, whatever was before (the model's own fields `pins` and
`nanDraws` go on, log 15); what every register then reads, the flags and the Filter; `cmd_ready` in reset and after it. -/
def Obligations.HardwareResetState : Prop :=
  (∀ s : State, s.nextPins.rstN = false →
    step s = .next { State.reset with pins := s.pins.tail, nanDraws := s.nanDraws } ∧ cmdReady false s = false) ∧
  (∀ u, State.reset.regRead (.osc u .period) = none ∧ State.reset.regRead (.osc u .ampl) = none ∧
    State.reset.regRead (.osc u .pmod) = some 0x3F800000#32 ∧
    ∀ r, oscContinuous r = true → State.reset.regRead (.osc u r) = some 0#32) ∧
  (∀ u r, State.reset.regRead (.env u r) = if r.writable then none else some 0#32) ∧
  (∀ r ∈ [VoiceReg.period, .tperiod, .glide, .cutoff, .filtq, .fenvdepth, .filtmod, .pbend, .detune, .modcut],
    State.reset.regRead (.voice r) = none) ∧
  (∀ r ∈ [VoiceReg.note, .ctrl, .saw, .out, .outl, .outr, .fault, .fcmd, .vstatus],
    State.reset.regRead (.voice r) = some 0#32) ∧
  (∀ r ∈ [VoiceReg.panl, .panr], State.reset.regRead (.voice r) = some 0x3F34FDF4#32) ∧
  State.reset.fcoef = false ∧ State.reset.filter = Config.filterPOR ∧ rspValid State.reset = false ∧
  (∀ s t : State, s.nextPins.rstN = false → step s = .next t → cmdReady true t = true)

/-- 70 R191: hardware reset abandons a command in flight: no response and none of its updates. -/
def Obligations.ResetAbandonsTheCommandInFlight : Prop :=
  ∀ (s t : State) (c : InFlight), s.inflight = some c → s.nextPins.rstN = false → step s = .next t →
    t.inflight = none ∧ rspValid t = false ∧ (∀ q, t.regRead q = State.reset.regRead q) ∧
    t.filter = Config.filterPOR ∧ t.fcoef = false

/-- 20 R54: a command that completes writes only the registers its rule names; the Filter, `FCOEF`, the command port
and the host's pins change only where the rule says so. -/
def Obligations.CommandsWriteOnlyWhatTheirRuleNames : Prop :=
  ∀ (i : Instr) (s t : State) (r : Response), exec i s = .next t → t.rsp = some r → r.fault = false →
    (∀ q, writes i q = false → t.regRead q = s.regRead q) ∧
    (actsOnFilter i = false → t.filter = s.filter) ∧
    (i ≠ .voiceCtrl → t.fcoef = s.fcoef) ∧
    t.inflight = s.inflight ∧ t.pins = s.pins

/-- 10 R22, R23: a set flag is never cleared by a command, and is set only by a `WR` of its register, by
`VOICE_SETPER` for the oscillator periods, or by `VOICE_CTRL` for `MODCUT`. -/
def Obligations.SetFlagsChangeOnlyWhereNamed : Prop :=
  ∀ (i : Instr) (s t : State) (q : Reg), exec i s = .next t →
    ((s.regRead q).isSome = true → (t.regRead q).isSome = true) ∧
    (s.regRead q = none → t.regRead q ≠ none →
      (∃ v, i = .wr q v) ∨ (i = .voiceSetper ∧ ∃ u, q = .osc u .period) ∨
        (i = .voiceCtrl ∧ q = .voice .modcut))

/-- 10 R45: `FCOEF` is 0 after hardware reset, set by a `VOICE_CTRL` that completes and by nothing else, and cleared by
no command; a `VOICE_RENDER` with `FBYP` = 0 and `FCOEF` = 0 faults, with `UNSET_OPERAND` when the oscillators raise no fault
before it. -/
def Obligations.FcoefIsSetByVoiceCtrlOnly : Prop :=
  State.reset.fcoef = false ∧
  (∀ (i : Instr) (s t : State), exec i s = .next t →
    (t.fcoef = true ↔ s.fcoef = true ∨ (i = .voiceCtrl ∧ ∃ r, t.rsp = some r ∧ r.fault = false))) ∧
  (∀ (n : Word) (s : State), s.voice.ctrl.getLsbD 0 = false → s.fcoef = false →
    (∃ c, exec (.voiceRender n) s = .next (raiseFault c 0x4400#16 s)) ∧
    (oscReady s.nanDraws s.osc1 = true → oscReady (s.nanDraws + 16) s.osc2 = true →
      exec (.voiceRender n) s = .next (raiseFault .unsetOperand 0x4400#16 s)))

/-! ## Register access (40_register_access.md) -/

/-- R80: `NOP` changes nothing, whatever its data word, and `0x0nnn` with any other bit set is illegal. -/
def Obligations.NopDoesNothing : Prop :=
  (∀ s : State, exec .nop s = .next { s with rsp := some (okResponse 0#32 0#32 0#32) }) ∧
  (∀ (d : Word) (s : State), runCommand 0x0000#16 d s = .next { s with rsp := some (okResponse 0#32 0#32 0#32) }) ∧
  (∀ w : CmdWord, opField w = 0#4 → w ≠ 0#16 → legalWord w = false)

/-- R81, 20 R51, R54: a `WR` of an RW register completes for any word; the register then reads that word (`CTRL` only
its bit 0), no other register changes, the computed words included, and a following `RD` answers it. -/
def Obligations.WrStoresTheWord : Prop :=
  ∀ (r : Reg) (v : Word) (s : State), r.writable = true →
    ∃ t, exec (.wr r v) s = .next t ∧ t.rsp = some (okResponse 0#32 0#32 0#32) ∧
      t.regRead r = some (if r = .voice .ctrl then v &&& 1#32 else v) ∧
      (∀ q, q ≠ r → t.regRead q = s.regRead q) ∧
      t.filter = s.filter ∧ t.fcoef = s.fcoef ∧ t.inflight = s.inflight ∧
      exec (.rd r) t =
        .next { t with rsp := some (okResponse (if r = .voice .ctrl then v &&& 1#32 else v) 0#32 0#32) }

/-- R81, R67 item 6: a `WR` of a register that is not RW faults with `ILLEGAL_CMD`. -/
def Obligations.WrOfReadOnlyRegisterFaults : Prop :=
  ∀ (r : Reg) (v : Word) (s : State), r.writable = false →
    exec (.wr r v) s = .next (raiseFault .illegalCmd (Instr.wr r v).cmdWord s) ∧
    legalWord (Instr.wr r v).cmdWord = false

/-- R82: `RD` answers the register and changes nothing else; an UNSET register faults with `UNSET_OPERAND`; `FAULT`,
`FCMD` and `VSTATUS` never fault. -/
def Obligations.RdAnswersTheRegister : Prop :=
  (∀ (r : Reg) (w : Word) (s : State), s.regRead r = some w →
    exec (.rd r) s = .next { s with rsp := some (okResponse w 0#32 0#32) }) ∧
  (∀ (r : Reg) (s : State), s.regRead r = none →
    exec (.rd r) s = .next (raiseFault .unsetOperand (Instr.rd r).cmdWord s)) ∧
  (∀ s : State, ∀ r ∈ [VoiceReg.fault, .fcmd, .vstatus], (s.regRead (.voice r)).isSome = true)

/-- 10 R31: `STATUS` bit 0 is `LEVEL > SILENCE`, bit 1 is `TARGET >= 2.0`, the rest zero; each bit is 0 for a NaN. -/
def Obligations.StatusWordIsComputed : Prop :=
  (∀ (s : State) (e : EnvUnit), ∃ w, s.regRead (.env e .status) = some w ∧
    w.toNat = (if fgt (s.env e).level 0x38D1B717#32 then 1 else 0) +
      (if fge (s.env e).target 0x40000000#32 then 2 else 0)) ∧
  (∀ (s : State) (e : EnvUnit) (w : Word), s.regRead (.env e .status) = some w →
    (isNaN (s.env e).level = true → w.getLsbD 0 = false) ∧ (isNaN (s.env e).target = true → w.getLsbD 1 = false)) ∧
  (∀ e, State.reset.regRead (.env e .status) = some 0#32)

/-- 10 R43: the bits of `VSTATUS`. -/
def Obligations.VstatusWordIsComputed : Prop :=
  (∀ s : State, ∃ w a f, s.regRead (.voice .vstatus) = some w ∧
    s.regRead (.env .aenv .status) = some a ∧ s.regRead (.env .fenv .status) = some f ∧
    w.toNat = a.toNat + 4 * f.toNat + (if s.fcoef then 16 else 0) + (if s.voice.cause ≠ 0#4 then 32 else 0)) ∧
  State.reset.regRead (.voice .vstatus) = some 0#32

/-! ## Oscillators (41_oscillator.md) -/

/-- R90: `OSC_RESET` clears `PHASE` to `OUT` of its unit and nothing else, and the next `OSC_NEXT` of the unit starts a cycle. -/
def Obligations.OscResetClearsTheContinuousState : Prop :=
  (Instr.oscReset .osc1).cmdWord = 0x3000#16 ∧ (Instr.oscReset .osc2).cmdWord = 0x3100#16 ∧
  ∀ (u : OscUnit) (s : State), ∃ t,
    exec (.oscReset u) s = .next t ∧
    t = { s.setOsc u { s.osc u with
        phase := 0#32, phmax := 0#32, inc := 0#32, sin0 := 0#32, sin1 := 0#32, dsin := 0#32, dc := 0#32, out := 0#32 }
      with rsp := some (okResponse 0#32 0#32 0#32) } ∧
    fle (fadd t.nanDraws (t.osc u).phase (t.osc u).inc) 0x3F490FDB#32 = true

/-- 10 R28: `OSC_RESET` and `VOICE_RESET` set every register from `PHASE` to `OUT` to +0.0 and leave the parameters
and their set flags. -/
def Obligations.OscillatorResetsKeepParameters : Prop :=
  ∀ (u : OscUnit) (s : State), ∀ i ∈ [Instr.oscReset u, .voiceReset], ∃ t, exec i s = .next t ∧
    (∀ r, oscContinuous r = true → t.regRead (.osc u r) = some 0#32) ∧
    (∀ r, oscContinuous r = false → t.regRead (.osc u r) = s.regRead (.osc u r))

/-- R91, R92, R95, R96, with the constants of R7 and R8: a cycle start of `OSC_NEXT`, with good parameters: every register
it writes and the sample. -/
def Obligations.OscNextStartsACycle : Prop :=
  Config.pi = 0x40490FDB#32 ∧ Config.piOver4 = 0x3F490FDB#32 ∧ Config.nearZeroEps = 0x3089705F#32 ∧
  ∀ (u : OscUnit) (s : State) (per amp : Word),
    let o := s.osc u
    let k := s.nanDraws
    let p0 := fadd k o.phase o.inc
    let hp := fmul (k + 2) (fdiv (k + 1) per 0x40000000#32) o.pmod
    let pms := fsub (k + 4) (ffloor (fadd (k + 3) 0x3F000000#32 hp)) 0x3F000000#32
    fle p0 Config.piOver4 = true → o.period = some per → o.ampl = some amp →
    fgt o.pmod 0#32 = true → fgt pms 0#32 = true → isFinite hp = true →
    let dc := fdiv (k + 6) (fmul (k + 5) 0x3F000000#32 amp) pms
    let phmax := fmul (k + 7) pms Config.pi
    let inc := fdiv (k + 8) phmax hp
    let p := fneg p0
    let sin0 := fmul (k + 9) amp (Config.sin32 p)
    let sin1 := fmul (k + 11) amp (Config.sin32 (fsub (k + 10) p inc))
    let dsin := fmul (k + 12) 0x40000000#32 (Config.cos32 inc)
    let y := if fgt (fmul (k + 13) p p) Config.nearZeroEps then fdiv (k + 14) sin0 p else amp
    let out := fsub (k + 15) y dc
    exec (.oscNext u) s = .next
      (respond out 0#32 0#32
        ((s.setOsc u { o with
            phase := p, phmax := phmax, inc := inc, sin0 := sin0, sin1 := sin1, dsin := dsin, dc := dc, out := out }).draw
          16))

/-- R91, R94: a sample inside a cycle, with the reflection. -/
def Obligations.OscNextInsideACycle : Prop :=
  ∀ (u : OscUnit) (s : State),
    let o := s.osc u
    let k := s.nanDraws
    let p := fadd k o.phase o.inc
    fle p Config.piOver4 = false →
    let reflects := fgt p o.phmax
    let p' := if reflects then fsub (k + 2) (fadd (k + 1) o.phmax o.phmax) p else p
    let n := fsub (k + 4) (fmul (k + 3) o.dsin o.sin0) o.sin1
    let out := fsub (k + 6) (fdiv (k + 5) n p') o.dc
    exec (.oscNext u) s = .next
      (respond out 0#32 0#32
        ((s.setOsc u { o with
            phase := p', inc := if reflects then fneg o.inc else o.inc
            sin1 := o.sin0, sin0 := n, out := out }).draw 16))

/-- R91, R93, 60 R163 to R166: the faults of a cycle start and their order. -/
def Obligations.OscNextFaultsInOrder : Prop :=
  ∀ (u : OscUnit) (s : State),
    let o := s.osc u
    let k := s.nanDraws
    let w := (Instr.oscNext u).cmdWord
    fle (fadd k o.phase o.inc) Config.piOver4 = true →
    (o.period = none ∨ o.ampl = none → exec (.oscNext u) s = .next (raiseFault .unsetOperand w s)) ∧
    (∀ per amp, o.period = some per → o.ampl = some amp →
      (fgt o.pmod 0#32 = false → exec (.oscNext u) s = .next (raiseFault .pmodNonpos w s)) ∧
      (fgt o.pmod 0#32 = true → parametersGood k o.period o.ampl o.pmod = false →
        exec (.oscNext u) s = .next (raiseFault .oscDegenerate w s)))

/-- R93, 60 R165: at `PMOD` = 1.0 a cycle start is accepted exactly for the finite periods from 0.99999994 (0x3F7FFFFF) up. -/
def Obligations.PeriodThresholdAtUnitModulation : Prop :=
  ∀ (k : Nat) (per amp : Word),
    parametersGood k (some per) (some amp) 0x3F800000#32 = true ↔
      isFinite per = true ∧ fle 0x3F7FFFFF#32 per = true

/-- 60 R182 says that the host's duties (`PERIOD` at least 6, `PMOD` above 0) exclude the faults of R164 and R165. As the
rules R91 and R93 stand this fails: a small `PMOD` makes the half-period round to 0 (log 18). -/
def Obligations.HostDutiesExcludeOscillatorFaults : Prop :=
  ∀ (k : Nat) (per amp pm : Word), isFinite per = true → fle 0x40C00000#32 per = true → fgt pm 0#32 = true →
    parametersGood k (some per) (some amp) pm = true

/-- 70 R196: inside a cycle `OSC_NEXT` reads no parameter: writing any of the three changes nothing it does. -/
def Obligations.InCycleSampleIgnoresParameters : Prop :=
  ∀ (u : OscUnit) (s : State) (per amp : Option Word) (pm : Word),
    fle (fadd s.nanDraws (s.osc u).phase (s.osc u).inc) Config.piOver4 = false →
    ∃ t, exec (.oscNext u) s = .next t ∧
      exec (.oscNext u) (s.setOsc u { s.osc u with period := per, ampl := amp, pmod := pm }) =
        .next (t.setOsc u { t.osc u with period := per, ampl := amp, pmod := pm })

/-- R98: `OSC_SQUARE` for a rising, a falling and an idle reference; the reference is unchanged and nothing faults. -/
def Obligations.OscSquareLocksToTheOther : Prop :=
  (∀ np, (Instr.oscSquare .osc1 np).cmdWord = 0x8000#16 ∧ (Instr.oscSquare .osc2 np).cmdWord = 0x8100#16) ∧
  ∀ (u : OscUnit) (np : Word) (s : State),
    let q := s.osc u.other
    let k := s.nanDraws
    let offset := fdiv (k + 3) (fmul (k + 2) Config.pi np) 0x40000000#32
    let locked := fun (ph inc : Word) => ({ s.osc u with
      phase := fadd (k + 4) ph offset, phmax := fadd (k + 4) ph offset, inc := inc
      sin0 := 0#32, sin1 := 0#32, dsin := 0#32, dc := 0#32, out := 0#32 } : Osc)
    let answer := fun (o : Osc) =>
      (.next (respond 0#32 0#32 0#32 ((s.setOsc u o).draw 5)) : Host.Outcome State Fault Refusal)
    (fgt q.inc 0#32 = true →
      exec (.oscSquare u np) s =
        answer (locked (fsub (k + 1) (fadd k q.phmax q.phmax) q.phase) (fneg q.inc))) ∧
    (fgt q.inc 0#32 = false → flt q.inc 0#32 = true →
      exec (.oscSquare u np) s = answer (locked q.phase q.inc)) ∧
    (fgt q.inc 0#32 = false → flt q.inc 0#32 = false →
      exec (.oscSquare u np) s = answer (locked (fneg Config.pi) Config.pi))

/-! ## Envelopes (42_envelope.md) -/

/-- R110: `ENV_RESET` clears `LEVEL`, `TARGET` and `MULT` of its unit and nothing else, `STATUS` then reads 0, and
`ENV_NEXT` of an envelope so cleared answers +0.0 and leaves it so. -/
def Obligations.EnvResetForcesSilence : Prop :=
  (Instr.envReset .aenv).cmdWord = 0x3200#16 ∧ (Instr.envReset .fenv).cmdWord = 0x3300#16 ∧
  (∀ (e : EnvUnit) (s : State), ∃ t,
    exec (.envReset e) s = .next t ∧
    t = { s.setEnv e { s.env e with level := 0#32, target := 0#32, mult := 0#32 } with
      rsp := some (okResponse 0#32 0#32 0#32) } ∧
    t.regRead (.env e .status) = some 0#32) ∧
  (∀ (e : EnvUnit) (s : State),
    (s.env e).level = 0#32 → (s.env e).target = 0#32 → (s.env e).mult = 0#32 →
    exec (.envNext e) s = .next (respond 0#32 0#32 0#32 (s.draw 4)))

/-- 10 R33: `ENV_RESET` and `VOICE_RESET` set `LEVEL`, `TARGET` and `MULT` to +0.0 and leave the parameters and their
set flags. -/
def Obligations.EnvelopeResetsKeepParameters : Prop :=
  ∀ (e : EnvUnit) (s : State), ∀ i ∈ [Instr.envReset e, .voiceReset], ∃ t, exec i s = .next t ∧
    (∀ r, r.writable = false → t.regRead (.env e r) = some 0#32) ∧
    (∀ r, r.writable = true → t.regRead (.env e r) = s.regRead (.env e r))

/-- R111: `ENV_NEXT`: the recurrence, the switch where `lv + TARGET > 3.0` with the target of before it, and its faults. -/
def Obligations.EnvNextStepsAndSwitches : Prop :=
  (Instr.envNext .aenv).cmdWord = 0x4200#16 ∧ (Instr.envNext .fenv).cmdWord = 0x4300#16 ∧
  Config.attackExit = 0x40400000#32 ∧
  ∀ (e : EnvUnit) (s : State),
    let u := s.env e
    let k := s.nanDraws
    let lv := fadd (k + 2) (fmul (k + 1) u.mult (fsub k u.level u.target)) u.target
    (fgt (fadd (k + 3) lv u.target) Config.attackExit = false →
      exec (.envNext e) s = .next (respond lv 0#32 0#32 ((s.setEnv e { u with level := lv }).draw 4))) ∧
    (fgt (fadd (k + 3) lv u.target) Config.attackExit = true →
      (∀ m t, u.decmul = some m → u.suslvl = some t →
        exec (.envNext e) s = .next
          (respond lv 0#32 0#32 ((s.setEnv e { u with level := lv, mult := m, target := t }).draw 4))) ∧
      (u.decmul = none ∨ u.suslvl = none →
        exec (.envNext e) s = .next (raiseFault .unsetOperand (Instr.envNext e).cmdWord s)))

/-- R112, 10 R32: `ENV_ATTACK` nudges the level, sets `TARGET` 2.0 and `MULT` from `ATTMUL`: the stage is then Attack. -/
def Obligations.EnvAttackStartsTheAttack : Prop :=
  Config.twoSilence = 0x3951B717#32 ∧
  ∀ (e : EnvUnit) (s : State),
    (∀ am, (s.env e).attmul = some am → ∃ t,
      exec (.envAttack e) s = .next t ∧
      t = respond 0#32 0#32 0#32
        ((s.setEnv e { s.env e with
            level := fadd s.nanDraws (s.env e).level Config.twoSilence, target := 0x40000000#32, mult := am }).draw 1) ∧
      (t.env e).attacking = true ∧ (t.env e).stage = some .attack) ∧
    ((s.env e).attmul = none →
      exec (.envAttack e) s = .next (raiseFault .unsetOperand (Instr.envAttack e).cmdWord s))

/-- R113: `ENV_RELEASE` sets `TARGET` +0.0 and `MULT` from `RELMUL`: `STATUS.ATTACK` is then 0 and `LEVEL` unchanged. -/
def Obligations.EnvReleaseStartsTheRelease : Prop :=
  ∀ (e : EnvUnit) (s : State),
    (∀ rm, (s.env e).relmul = some rm → ∃ t,
      exec (.envRelease e) s = .next t ∧
      t = respond 0#32 0#32 0#32 (s.setEnv e { s.env e with target := 0#32, mult := rm }) ∧
      (t.env e).attacking = false) ∧
    ((s.env e).relmul = none →
      exec (.envRelease e) s = .next (raiseFault .unsetOperand (Instr.envRelease e).cmdWord s))

/-- R114: `ENV_NUDGE` adds `TWO_SILENCE` to `LEVEL` and changes nothing else. -/
def Obligations.EnvNudgeRaisesTheLevel : Prop :=
  (Instr.envNudge .aenv).cmdWord = 0x7200#16 ∧ (Instr.envNudge .fenv).cmdWord = 0x7300#16 ∧
  ∀ (e : EnvUnit) (s : State),
    exec (.envNudge e) s = .next
      (respond 0#32 0#32 0#32
        ((s.setEnv e { s.env e with level := fadd s.nanDraws (s.env e).level 0x3951B717#32 }).draw 1))

/-- R114: on an Idle envelope (`TARGET` = `MULT` = +0.0) of any finite level the next `ENV_NEXT` answers +0.0. -/
def Obligations.IdleEnvelopeFallsToZero : Prop :=
  ∀ (e : EnvUnit) (s : State), isFinite (s.env e).level = true → (s.env e).target = 0#32 → (s.env e).mult = 0#32 →
    exec (.envNext e) s =
      .next (respond 0#32 0#32 0#32 ((s.setEnv e { s.env e with level := 0#32 }).draw 4))

/-- R116: with `TARGET` = 2.0 the smallest level that ends the attack is 1.0000002 (0x3F800002). -/
def Obligations.AttackExitThreshold : Prop :=
  ∀ (k : Nat) (lv : Word), isNaN lv = false →
    (fgt (fadd k lv 0x40000000#32) 0x40400000#32 = true ↔ fle 0x3F800002#32 lv = true)

/-- 70 R197: the latch points of the envelope: the parameters a command does not read change nothing it does. -/
def Obligations.EnvelopeLatchPoints : Prop :=
  ∀ (e : EnvUnit) (s : State) (a d l r : Option Word),
    (attackEnds s.nanDraws (s.env e) = false → ∃ t, exec (.envNext e) s = .next t ∧
      exec (.envNext e) (s.setEnv e { s.env e with attmul := a, decmul := d, suslvl := l, relmul := r }) =
        .next (t.setEnv e { t.env e with attmul := a, decmul := d, suslvl := l, relmul := r })) ∧
    ((s.env e).attmul.isSome = true → ∃ t, exec (.envAttack e) s = .next t ∧
      exec (.envAttack e) (s.setEnv e { s.env e with decmul := d, suslvl := l, relmul := r }) =
        .next (t.setEnv e { t.env e with decmul := d, suslvl := l, relmul := r })) ∧
    ((s.env e).relmul.isSome = true → ∃ t, exec (.envRelease e) s = .next t ∧
      exec (.envRelease e) (s.setEnv e { s.env e with attmul := a, decmul := d, suslvl := l }) =
        .next (t.setEnv e { t.env e with attmul := a, decmul := d, suslvl := l }))

/-! ## Voice mixer (43_voice_mixer.md) -/

/-- R130: `VOICE_RESET`: every register it writes; all else, the record, the flags and `MODCUT` included, unchanged. -/
def Obligations.VoiceResetSilencesTheVoice : Prop :=
  Instr.voiceReset.cmdWord = 0x3400#16 ∧
  ∀ s : State, exec .voiceReset s = .next { s with
    osc1 := { s.osc1 with
      phase := 0#32, phmax := 0#32, inc := 0#32, sin0 := 0#32, sin1 := 0#32, dsin := 0#32, dc := 0#32, out := 0#32 }
    osc2 := { s.osc2 with
      phase := 0#32, phmax := 0#32, inc := 0#32, sin0 := 0#32, sin1 := 0#32, dsin := 0#32, dc := 0#32, out := 0#32 }
    aenv := { s.aenv with level := 0#32, target := 0#32, mult := 0#32 }
    fenv := { s.fenv with level := 0#32, target := 0#32, mult := 0#32 }
    voice := { s.voice with
      note := 0#32, saw := 0#32, panl := 0x3F34FDF4#32, panr := 0x3F34FDF4#32, out := 0#32, outl := 0#32, outr := 0#32 }
    filter := Config.filterReset s.filter
    rsp := some (okResponse 0#32 0#32 0#32) }

/-- R131: `VOICE_RENDER` completes where its steps do: it is `OSC_NEXT OSC1`, `OSC_NEXT OSC2`, the integrator, the noise,
the Filter slot, `ENV_NEXT AENV` and the gains. -/
def Obligations.VoiceRenderComposesItsSteps : Prop :=
  Config.leak = 0x3F7F3B64#32 ∧
  ∀ (n : Word) (s : State),
    oscReady s.nanDraws s.osc1 = true → oscReady (s.nanDraws + 16) s.osc2 = true →
    (s.voice.ctrl.getLsbD 0 = true ∨ s.fcoef = true) → envReady (s.nanDraws + 39) s.aenv = true →
    ∃ o1 o2 u,
      exec (.oscNext .osc1) s = .next (respond o1.out 0#32 0#32 ((s.setOsc .osc1 o1).draw 16)) ∧
      exec (.oscNext .osc2) (s.draw 16) =
        .next (respond o2.out 0#32 0#32 (((s.draw 16).setOsc .osc2 o2).draw 16)) ∧
      exec (.envNext .aenv) (s.draw 39) =
        .next (respond u.level 0#32 0#32 (((s.draw 39).setEnv .aenv u).draw 4)) ∧
      (let k := s.nanDraws + 32
       let saw := fadd (k + 2) (fmul k s.voice.saw Config.leak) (fsub (k + 1) o1.out o2.out)
       let x := fadd (k + 3) saw n
       let y := if s.voice.ctrl.getLsbD 0 then (x, s.filter) else Config.filterRender s.filter x
       let out := fmul (k + 4) y.1 u.level
       let outl := fmul (k + 5) out s.voice.panl
       let outr := fmul (k + 6) out s.voice.panr
       exec (.voiceRender n) s = .next { s with
         osc1 := o1, osc2 := o2, aenv := u, filter := y.2
         voice := { s.voice with saw := saw, out := out, outl := outl, outr := outr }
         nanDraws := s.nanDraws + 43
         rsp := some (okResponse out outl outr) })

/-- R131, 60 R166, 10 R45: the faults of `VOICE_RENDER` in their order: OSC1's, OSC2's, the Filter's, AENV's; each discards
every update. -/
def Obligations.VoiceRenderFaultsInOrder : Prop :=
  ∀ (n : Word) (s : State),
    (oscReady s.nanDraws s.osc1 = false → ∃ c,
      exec (.oscNext .osc1) s = .next (raiseFault c 0x4000#16 s) ∧
      exec (.voiceRender n) s = .next (raiseFault c 0x4400#16 s)) ∧
    (oscReady s.nanDraws s.osc1 = true →
      (oscReady (s.nanDraws + 16) s.osc2 = false → ∃ c,
        exec (.oscNext .osc2) (s.draw 16) = .next (raiseFault c 0x4100#16 (s.draw 16)) ∧
        exec (.voiceRender n) s = .next (raiseFault c 0x4400#16 s)) ∧
      (oscReady (s.nanDraws + 16) s.osc2 = true →
        (s.voice.ctrl.getLsbD 0 = false → s.fcoef = false →
          exec (.voiceRender n) s = .next (raiseFault .unsetOperand 0x4400#16 s)) ∧
        (s.voice.ctrl.getLsbD 0 = true ∨ s.fcoef = true → envReady (s.nanDraws + 39) s.aenv = false →
          exec (.voiceRender n) s = .next (raiseFault .unsetOperand 0x4400#16 s))))

/-- R132: `SAW`, the oscillators and the envelope do not take the noise. -/
def Obligations.NoiseDoesNotReachTheIntegrator : Prop :=
  ∀ (n n' : Word) (s t t' : State), exec (.voiceRender n) s = .next t → exec (.voiceRender n') s = .next t' →
    t.voice.saw = t'.voice.saw ∧ t.osc1 = t'.osc1 ∧ t.osc2 = t'.osc2 ∧ t.aenv = t'.aenv ∧ t.fenv = s.fenv

/-- R135: `VOICE_RELEASE` releases both envelopes, or with a `RELMUL` UNSET neither. -/
def Obligations.VoiceReleaseReleasesBothEnvelopes : Prop :=
  Instr.voiceRelease.cmdWord = 0x6400#16 ∧
  ∀ s : State,
    (∀ ra rf, s.aenv.relmul = some ra → s.fenv.relmul = some rf →
      exec .voiceRelease s = .next { s with
        aenv := { s.aenv with target := 0#32, mult := ra }
        fenv := { s.fenv with target := 0#32, mult := rf }
        rsp := some (okResponse 0#32 0#32 0#32) }) ∧
    (s.aenv.relmul = none ∨ s.fenv.relmul = none →
      exec .voiceRelease s = .next (raiseFault .unsetOperand 0x6400#16 s))

/-- R136: `VOICE_PAN` computes both gains from the clamped pan position, for every note. -/
def Obligations.VoicePanComputesTheGains : Prop :=
  Instr.voicePan.cmdWord = 0x9400#16 ∧
  ∀ s : State,
    let k := s.nanDraws
    let pan := fclamp (fdiv (k + 1) (fsub k (toF32 s.voice.note) 0x42700000#32) 0x41C00000#32)
      0xBF800000#32 0x3F800000#32
    exec .voicePan s = .next
      (respond 0#32 0#32 0#32
        (({ s with voice := { s.voice with
            panl := Config.sin32 (fmul (k + 3) 0x3F490FDB#32 (fsub (k + 2) 0x3F800000#32 pan))
            panr := Config.sin32 (fmul (k + 5) 0x3F490FDB#32 (fadd (k + 4) 0x3F800000#32 pan)) } } : State).draw 6))

/-- R136, R137: notes up to 36, the sentinel `SUSTAIN` among them, pan hard left, notes from 84 hard right, and note 60
in the centre. -/
def Obligations.PanExtremesAndCentre : Prop :=
  ∀ s : State, ∃ t, exec .voicePan s = .next t ∧
    (s.voice.note.toInt ≤ 36 →
      t.voice.panl = Config.sin32 0x3FC90FDB#32 ∧ t.voice.panr = Config.sin32 0#32) ∧
    (84 ≤ s.voice.note.toInt →
      t.voice.panl = Config.sin32 0#32 ∧ t.voice.panr = Config.sin32 0x3FC90FDB#32) ∧
    (s.voice.note.toInt = 60 →
      t.voice.panl = Config.sin32 0x3F490FDB#32 ∧ t.voice.panr = Config.sin32 0x3F490FDB#32) ∧
    (s.voice.note = Config.sustain →
      t.voice.panl = Config.sin32 0x3FC90FDB#32 ∧ t.voice.panr = Config.sin32 0#32)

/-- R138, 10 R23: `VOICE_SETPER` writes both oscillator periods and sets their flags, or with an operand UNSET neither. -/
def Obligations.VoiceSetperRefreshesThePeriods : Prop :=
  Instr.voiceSetper.cmdWord = 0xB400#16 ∧
  ∀ s : State,
    (∀ p pb dt, s.voice.period = some p → s.voice.pbend = some pb → s.voice.detune = some dt →
      let p1 := fmul s.nanDraws p pb
      exec .voiceSetper s = .next { s with
        osc1 := { s.osc1 with period := some p1 }
        osc2 := { s.osc2 with period := some (fmul (s.nanDraws + 1) p1 dt) }
        nanDraws := s.nanDraws + 2
        rsp := some (okResponse 0#32 0#32 0#32) }) ∧
    (s.voice.period = none ∨ s.voice.pbend = none ∨ s.voice.detune = none →
      exec .voiceSetper s = .next (raiseFault .unsetOperand 0xB400#16 s))

/-! ## Cutoff modulator (44_cutoff_modulator.md) -/

/-- R150: `VOICE_CTRL` with every operand set: the glide, the filter envelope's step, the clamped cutoff, `FCOEF` and the
Filter's update. -/
def Obligations.VoiceCtrlCompletes : Prop :=
  Instr.voiceCtrl.cmdWord = 0xA400#16 ∧
  ∀ (s : State) (g tp p c fm fd pb q : Word),
    s.voice.glide = some g → s.voice.tperiod = some tp → s.voice.period = some p →
    envReady (s.nanDraws + 7) s.fenv = true →
    s.voice.cutoff = some c → s.voice.filtmod = some fm → s.voice.fenvdepth = some fd →
    s.voice.pbend = some pb → s.voice.filtq = some q →
    ∃ u, exec (.envNext .fenv) (s.draw 7) =
        .next (respond u.level 0#32 0#32 (((s.draw 7).setEnv .fenv u).draw 4)) ∧
      (let k := s.nanDraws
       let raw := fdiv (k + 6)
         (fmul (k + 5) c (Config.exp32 (fadd (k + 4) fm (fmul (k + 3) fd u.level)))) pb
       let mc := fclamp raw 0x41F00000#32 0x469C4000#32
       exec .voiceCtrl s = .next { s with
         fenv := u
         voice := { s.voice with
           period := some (fadd (k + 2) p (fmul (k + 1) g (fsub k tp p))), modcut := some mc }
         filter := Config.filterUpdate s.filter mc q
         fcoef := true
         nanDraws := k + 11
         rsp := some (okResponse mc 0#32 0#32) })

/-- R150, 60 R163: `VOICE_CTRL` with any operand UNSET, or with an attack to end and `DECMUL` or `SUSLVL` UNSET, faults
and discards the glide and the envelope step too. -/
def Obligations.VoiceCtrlFaultsOnUnsetOperands : Prop :=
  ∀ s : State,
    s.voice.glide = none ∨ s.voice.tperiod = none ∨ s.voice.period = none ∨
      envReady (s.nanDraws + 7) s.fenv = false ∨ s.voice.cutoff = none ∨ s.voice.filtmod = none ∨
      s.voice.fenvdepth = none ∨ s.voice.pbend = none ∨ s.voice.filtq = none →
    exec .voiceCtrl s = .next (raiseFault .unsetOperand 0xA400#16 s)

/-- R155, R152: a `VOICE_CTRL` that completes leaves `MODCUT` a NaN or in [30 Hz, 20000 Hz], answers that value and hands it
to the Filter; one that faults leaves `MODCUT`, `FCOEF` and the Filter as they were; a read of `MODCUT` before the first
faults. -/
def Obligations.CutoffStaysInItsRange : Prop :=
  (∀ (s t : State) (r : Response), exec .voiceCtrl s = .next t → t.rsp = some r →
    (r.fault = false → ∃ mc q, t.voice.modcut = some mc ∧ r.d0 = mc ∧ s.voice.filtq = some q ∧
      t.filter = Config.filterUpdate s.filter mc q ∧ t.fcoef = true ∧
      (isNaN mc = true ∨ (fle 0x41F00000#32 mc = true ∧ fle mc 0x469C4000#32 = true))) ∧
    (r.fault = true → t.voice.modcut = s.voice.modcut ∧ t.fcoef = s.fcoef ∧ t.filter = s.filter)) ∧
  State.reset.voice.modcut = none ∧
  (∀ s : State, s.voice.modcut = none →
    exec (.rd (.voice .modcut)) s = .next (raiseFault .unsetOperand 0x2416#16 s))

/-! ## Arithmetic (00_scope.md) -/

/-- R9, R10: each operation on finite operands (subnormals as `ftz` says) is the exact result rounded once to the nearest
binary32, ties to even, a subnormal result again as `ftz` says. -/
def Obligations.ArithmeticRoundsOnceToNearestEven : Prop :=
  ∀ (k : Nat) (a b : Word), isFinite a = true → isFinite b = true →
    let a' := flush a
    let b' := flush b
    (∃ w, NearestEven (val a' + val b') 1 w ∧ fadd k a b = flush w) ∧
    (∃ w, NearestEven (val a' - val b') 1 w ∧ fsub k a b = flush w) ∧
    (∃ w, NearestEven (val a' * val b') (2 ^ 149) w ∧ fmul k a b = flush w) ∧
    (isZero b' = false → ∃ w,
      NearestEven (if signBit b' then -(val a' * 2 ^ 149) else val a' * 2 ^ 149) (mag b') w ∧ fdiv k a b = flush w)

/-- R9, R12: the IEEE 754 results that rounding an exact finite value does not give: NaN operands and invalid operations,
infinities, division by zero, zeros with their signs; every NaN result is quiet. R10: a subnormal operand as `ftz` says, also
of the negation (log 2), which inverts the sign bit. -/
def Obligations.ArithmeticOfSpecialValues : Prop :=
  ∀ (k : Nat) (a b : Word),
    let s := signBit a != signBit b
    (isNaN a = true ∨ isNaN b = true →
      isNaN (fadd k a b) = true ∧ isNaN (fsub k a b) = true ∧ isNaN (fmul k a b) = true ∧ isNaN (fdiv k a b) = true) ∧
    (isInf a = true → isInf b = true →
      (signBit a = signBit b → fadd k a b = a ∧ isNaN (fsub k a b) = true) ∧
      (signBit a ≠ signBit b → isNaN (fadd k a b) = true ∧ fsub k a b = a) ∧
      fmul k a b = pack s infBits ∧ isNaN (fdiv k a b) = true) ∧
    (isInf a = true → isFinite b = true →
      fadd k a b = a ∧ fsub k a b = a ∧ fdiv k a b = pack s infBits ∧
      (isZero (flush b) = true → isNaN (fmul k a b) = true) ∧
      (isZero (flush b) = false → fmul k a b = pack s infBits)) ∧
    (isFinite a = true → isInf b = true →
      fadd k a b = b ∧ fsub k a b = pack (!signBit b) infBits ∧ fdiv k a b = pack s 0 ∧
      (isZero (flush a) = true → isNaN (fmul k a b) = true) ∧
      (isZero (flush a) = false → fmul k a b = pack s infBits)) ∧
    (isFinite a = true → isFinite b = true →
      (val (flush a) + val (flush b) = 0 →
        fadd k a b = if signBit a && signBit b then 0x80000000#32 else 0#32) ∧
      (val (flush a) - val (flush b) = 0 →
        fsub k a b = if signBit a && !signBit b then 0x80000000#32 else 0#32) ∧
      (isZero (flush a) = true ∨ isZero (flush b) = true → fmul k a b = pack s 0) ∧
      (isZero (flush a) = true → isZero (flush b) = false → fdiv k a b = pack s 0) ∧
      (isZero (flush a) = false → isZero (flush b) = true → fdiv k a b = pack s infBits) ∧
      (isZero (flush a) = true → isZero (flush b) = true → isNaN (fdiv k a b) = true)) ∧
    (∀ r ∈ [fadd k a b, fsub k a b, fmul k a b, fdiv k a b], isNaN r = true → r.getLsbD 22 = true) ∧
    (isSubnormal a = false ∨ Config.ftz = false → flush a = a ∧ fneg a = a ^^^ 0x80000000#32) ∧
    (isSubnormal a = true → Config.ftz = true →
      flush a = (if signBit a then 0x80000000#32 else 0#32) ∧ fneg a = if signBit a then 0#32 else 0x80000000#32)

/-- R12: ordered comparisons: false for a NaN, else the order of the values, the two zeros equal and the infinities at the
ends; the clamp with `lo <= hi` as R12 defines it. Operands of comparisons are flushed as R10 says of operands, the clamp's
result is not (log 2). -/
def Obligations.ComparisonsAreOrdered : Prop :=
  ∀ a b : Word,
    (isNaN a = true ∨ isNaN b = true → flt a b = false ∧ fle a b = false ∧ fgt a b = false ∧ fge a b = false) ∧
    (isFinite a = true → isFinite b = true →
      (flt a b = true ↔ val (flush a) < val (flush b)) ∧ (fle a b = true ↔ val (flush a) ≤ val (flush b)) ∧
      (fgt a b = true ↔ val (flush b) < val (flush a)) ∧ (fge a b = true ↔ val (flush b) ≤ val (flush a))) ∧
    (isFinite a = true → isInf b = true →
      flt a b = !signBit b ∧ fle a b = !signBit b ∧ fgt a b = signBit b ∧ fge a b = signBit b) ∧
    (isInf a = true → isFinite b = true →
      flt a b = signBit a ∧ fle a b = signBit a ∧ fgt a b = !signBit a ∧ fge a b = !signBit a) ∧
    (isInf a = true → isInf b = true →
      flt a b = (signBit a && !signBit b) ∧ fle a b = (signBit a || !signBit b) ∧
      fgt a b = (!signBit a && signBit b) ∧ fge a b = (!signBit a || signBit b)) ∧
    (∀ lo hi : Word, fle lo hi = true →
      (flt a lo = true → fclamp a lo hi = lo) ∧
      (flt hi a = true → fclamp a lo hi = hi) ∧
      (flt a lo = false → flt hi a = false → fclamp a lo hi = a) ∧
      (isNaN a = true → fclamp a lo hi = a) ∧
      (isNaN a = false → fle lo (fclamp a lo hi) = true ∧ fle (fclamp a lo hi) hi = true))

/-- R11: `floor32` is the largest integral value not above its operand; NaN, infinities and zeros are their own floor. -/
def Obligations.FloorIsExact : Prop :=
  ∀ x : Word,
    (isNaN x = true ∨ isInf x = true ∨ isZero x = true → ffloor x = x) ∧
    (isFinite x = true → isFinite (ffloor x) = true ∧ (2 ^ 149 : Int) ∣ val (ffloor x) ∧
      val (ffloor x) ≤ val (flush x) ∧ val (flush x) < val (ffloor x) + 2 ^ 149)

/-- R13: `toF32` rounds to nearest, ties to even, and is exact for |n| up to 2^24. -/
def Obligations.IntegerConversionIsExact : Prop :=
  ∀ n : Word, NearestEven (n.toInt * 2 ^ 149) 1 (toF32 n) ∧
    (n.toInt.natAbs ≤ 2 ^ 24 → val (toF32 n) = n.toInt * 2 ^ 149)
end

