-- ==== Sys2Proof/Laws/Float.lean ====
section
/-! SUPPORT. The rounding of `roundMag` is correct: nearest, ties to even, monotone, exact on what the format holds, with the overflow threshold of IEEE 754. -/

namespace Sys2Proof.Machine

/-! ## Magnitudes by their encoding -/

/-- The magnitude, in units of 2^-149, of the encoding `b` of exponent and fraction (past the format's largest
exponent too). -/
def magOf (b : Nat) : Nat :=
  if b / 2 ^ 23 = 0 then b % 2 ^ 23 else (2 ^ 23 + b % 2 ^ 23) * 2 ^ (b / 2 ^ 23 - 1)

theorem mag_eq_magOf (w : Word) : mag w = magOf (magBits w) := by
  have h : magBits w % 2 ^ 23 = fracField w := Nat.mod_mod_of_dvd _ (by decide)
  unfold mag magOf expField
  rw [h]

theorem magBits_lt (w : Word) : magBits w < 2 ^ 31 := Nat.mod_lt _ (by decide)

/-- A significand and the number of low bits dropped, as an encoding. -/
theorem magOf_scaled (m k : Nat) (h : m ≤ 2 ^ 24) (hk : k = 0 ∨ 2 ^ 23 ≤ m) : magOf (m + k * 2 ^ 23) = m * 2 ^ k := by
  unfold magOf
  rcases Nat.lt_or_ge m (2 ^ 23) with hm | hm
  · obtain rfl : k = 0 := by omega
    have h1 : (m + 0 * 2 ^ 23) / 2 ^ 23 = 0 := by omega
    rw [if_pos h1]; omega
  · rcases Nat.lt_or_ge m (2 ^ 24) with hm' | hm'
    · have h1 : (m + k * 2 ^ 23) / 2 ^ 23 = k + 1 := by omega
      have h2 : (m + k * 2 ^ 23) % 2 ^ 23 = m - 2 ^ 23 := by omega
      rw [if_neg (by omega), h1, h2, Nat.add_sub_cancel, show 2 ^ 23 + (m - 2 ^ 23) = m by omega]
    · obtain rfl : m = 2 ^ 24 := by omega
      have h1 : (2 ^ 24 + k * 2 ^ 23) / 2 ^ 23 = k + 2 := by omega
      have h2 : (2 ^ 24 + k * 2 ^ 23) % 2 ^ 23 = 0 := by omega
      rw [if_neg (by omega), h1, h2, show k + 2 - 1 = k + 1 by omega, Nat.pow_succ]
      omega

/-- Every encoding is a significand below 2^24 with some low bits dropped. -/
theorem magOf_form (b : Nat) : ∃ m j, magOf b = m * 2 ^ j ∧ m < 2 ^ 24 := by
  unfold magOf
  split
  · exact ⟨b % 2 ^ 23, 0, by simp, by omega⟩
  · exact ⟨_, _, rfl, by omega⟩

theorem magOf_lt_succ (b : Nat) : magOf b < magOf (b + 1) := by
  obtain ⟨e, f, hb, hf⟩ : ∃ e f, b = f + e * 2 ^ 23 ∧ f < 2 ^ 23 := ⟨b / 2 ^ 23, b % 2 ^ 23, by omega, by omega⟩
  rcases Nat.eq_zero_or_pos e with rfl | he
  · have h1 := magOf_scaled f 0 (by omega) (.inl rfl)
    have h2 := magOf_scaled (f + 1) 0 (by omega) (.inl rfl)
    rw [hb, h1, show f + 0 * 2 ^ 23 + 1 = f + 1 + 0 * 2 ^ 23 by omega, h2]
    omega
  · have h1 := magOf_scaled (f + 2 ^ 23) (e - 1) (by omega) (.inr (by omega))
    have h2 := magOf_scaled (f + 2 ^ 23 + 1) (e - 1) (by omega) (.inr (by omega))
    rw [hb, show f + e * 2 ^ 23 = f + 2 ^ 23 + (e - 1) * 2 ^ 23 by omega, h1,
      show f + 2 ^ 23 + (e - 1) * 2 ^ 23 + 1 = f + 2 ^ 23 + 1 + (e - 1) * 2 ^ 23 by omega, h2]
    exact Nat.mul_lt_mul_of_pos_right (by omega) (by positivity)

theorem magOf_strictMono : StrictMono magOf := strictMono_nat_of_lt_succ magOf_lt_succ

theorem magOf_zero : magOf 0 = 0 := by decide

/-! ## The rounding without the overflow to infinity -/

/-- The low bits dropped for a quotient `q`. -/
def dropped (q : Nat) : Nat := if q < 2 ^ 24 then 0 else q.log2 - 23

/-- The significand after rounding, of `m` whole units and the remainder `r` of the unit `u`. -/
def roundedUp (m r u : Nat) : Nat := if u < 2 * r || (2 * r == u && m % 2 == 1) then m + 1 else m

/-- The rounded encoding before the bound at infinity. -/
def roundBits (n d : Nat) : Nat :=
  roundedUp (n / (d * 2 ^ dropped (n / d))) (n % (d * 2 ^ dropped (n / d))) (d * 2 ^ dropped (n / d))
    + dropped (n / d) * 2 ^ 23

theorem roundMag_eq_min (n d : Nat) : roundMag n d = min (roundBits n d) infBits := rfl

theorem quotient_bounds (n d : Nat) :
    n / (d * 2 ^ dropped (n / d)) < 2 ^ 24 ∧ (dropped (n / d) = 0 ∨ 2 ^ 23 ≤ n / (d * 2 ^ dropped (n / d))) := by
  rw [← Nat.div_div_eq_div_mul]
  generalize n / d = q
  unfold dropped
  split
  · simpa using ‹q < 2 ^ 24›
  · rename_i hq
    have hq0 : q ≠ 0 := by omega
    have h1 : 2 ^ q.log2 ≤ q := Nat.log2_self_le hq0
    have h2 : q < 2 ^ (q.log2 + 1) := Nat.lt_log2_self
    have h24 : 24 ≤ q.log2 := (Nat.le_log2 hq0).mpr (by omega)
    have e1 : 2 ^ q.log2 = 2 ^ 23 * 2 ^ (q.log2 - 23) := by rw [← Nat.pow_add]; congr 1; omega
    have e2 : 2 ^ (q.log2 + 1) = 2 ^ 24 * 2 ^ (q.log2 - 23) := by rw [← Nat.pow_add]; congr 1; omega
    have hp : 0 < 2 ^ (q.log2 - 23) := by positivity
    exact ⟨(Nat.div_lt_iff_lt_mul hp).mpr (by rw [← e2]; exact h2),
      .inr ((Nat.le_div_iff_mul_le hp).mpr (by rw [← e1]; exact h1))⟩

theorem roundedUp_bounds (m r u : Nat) : m ≤ roundedUp m r u ∧ roundedUp m r u ≤ m + 1 := by
  unfold roundedUp; split <;> omega

/-- The rounded encoding stands for a whole number of units. -/
theorem magOf_roundBits (n d : Nat) :
    magOf (roundBits n d) =
      roundedUp (n / (d * 2 ^ dropped (n / d))) (n % (d * 2 ^ dropped (n / d))) (d * 2 ^ dropped (n / d))
        * 2 ^ dropped (n / d) := by
  obtain ⟨h1, h2⟩ := quotient_bounds n d
  have h3 := roundedUp_bounds (n / (d * 2 ^ dropped (n / d))) (n % (d * 2 ^ dropped (n / d))) (d * 2 ^ dropped (n / d))
  exact magOf_scaled _ _ (by omega) (by omega)

/-- The distance of two numbers. -/
def dist (a b : Nat) : Nat := (a - b) + (b - a)

/-- Rounding a quotient to whole units: nearest, and to an even number of units on a tie. -/
theorem roundedUp_nearest (m r u c : Nat) (hr : r < u) :
    dist (roundedUp m r u * u) (m * u + r) ≤ dist (c * u) (m * u + r) ∧
    (dist (roundedUp m r u * u) (m * u + r) = dist (c * u) (m * u + r) → c ≠ roundedUp m r u →
      roundedUp m r u % 2 = 0) := by
  have hcase : c * u ≤ m * u ∧ (c = m ∨ c * u + u ≤ m * u) ∨ m * u + u ≤ c * u ∧ (c = m + 1 ∨ m * u + 2 * u ≤ c * u) := by
    rcases Nat.lt_trichotomy c m with h | h | h
    · have := Nat.mul_le_mul_right u (show c + 1 ≤ m by omega)
      rw [Nat.add_mul, Nat.one_mul] at this
      exact .inl ⟨by omega, .inr this⟩
    · exact .inl ⟨by rw [h], .inl h⟩
    · have := Nat.mul_le_mul_right u (show m + 1 ≤ c by omega)
      rw [Nat.add_mul, Nat.one_mul] at this
      refine .inr ⟨this, ?_⟩
      rcases Nat.lt_or_ge (m + 1) c with h' | h'
      · right
        have := Nat.mul_le_mul_right u (show m + 2 ≤ c by omega)
        rwa [Nat.add_mul] at this
      · left; omega
  have e : (m + 1) * u = m * u + u := by rw [Nat.add_mul, Nat.one_mul]
  unfold roundedUp dist
  split
  · rename_i hup
    simp only [Bool.or_eq_true, decide_eq_true_eq, Bool.and_eq_true, beq_iff_eq] at hup
    rw [e]
    constructor
    · omega
    · intro h1 h2
      rcases hup with hup | hup
      · exfalso; omega
      · omega
  · rename_i hup
    simp only [Bool.or_eq_true, decide_eq_true_eq, Bool.and_eq_true, beq_iff_eq, not_or, not_and] at hup
    constructor
    · omega
    · intro h1 h2
      by_contra h3
      rcases hcase with ⟨h4, h5 | h5⟩ | ⟨h4, h5 | h5⟩ <;> omega

/-- The rounded encoding is the nearest one, and the even one on a tie. -/
theorem roundBits_nearest (n d b : Nat) (hd : 0 < d) :
    dist (magOf (roundBits n d) * d) n ≤ dist (magOf b * d) n ∧
    (dist (magOf (roundBits n d) * d) n = dist (magOf b * d) n → magOf b ≠ magOf (roundBits n d) →
      roundBits n d % 2 = 0) := by
  obtain ⟨hq1, hq2⟩ := quotient_bounds n d
  have hbits : roundBits n d % 2 = roundedUp (n / (d * 2 ^ dropped (n / d))) (n % (d * 2 ^ dropped (n / d)))
      (d * 2 ^ dropped (n / d)) % 2 := by unfold roundBits; omega
  rw [hbits, magOf_roundBits]
  generalize hk : dropped (n / d) = k at *
  have hu : 0 < d * 2 ^ k := by positivity
  have hn : n = n / (d * 2 ^ k) * (d * 2 ^ k) + n % (d * 2 ^ k) := by
    rw [Nat.mul_comm]; exact (Nat.div_add_mod n _).symm
  have hr := Nat.mod_lt n hu
  generalize n / (d * 2 ^ k) = m at *
  generalize n % (d * 2 ^ k) = r at *
  obtain ⟨c, j, hb, hc⟩ := magOf_form b
  have ecomm : ∀ x, x * 2 ^ k * d = x * (d * 2 ^ k) := fun x => by ring
  rw [hb, ecomm, hn]
  rcases Nat.lt_or_ge j k with hj | hj
  · -- fewer dropped bits: the other number is below the quotient
    have hm : 2 ^ 23 ≤ m := by omega
    have h1 : c * 2 ^ j * d < m * (d * 2 ^ k) := by
      have h2 : c * 2 ^ j < 2 ^ 23 * 2 ^ k := by
        calc c * 2 ^ j < 2 ^ 24 * 2 ^ j := Nat.mul_lt_mul_of_pos_right hc (by positivity)
          _ = 2 ^ 23 * 2 ^ (j + 1) := by rw [Nat.pow_succ]; ring
          _ ≤ 2 ^ 23 * 2 ^ k := Nat.mul_le_mul_left _ (Nat.pow_le_pow_right (by decide) hj)
      calc c * 2 ^ j * d < 2 ^ 23 * 2 ^ k * d := Nat.mul_lt_mul_of_pos_right h2 hd
        _ = 2 ^ 23 * (d * 2 ^ k) := by ring
        _ ≤ m * (d * 2 ^ k) := Nat.mul_le_mul_right _ hm
    have h2 := (roundedUp_nearest m r (d * 2 ^ k) m hr).1
    unfold dist at *
    constructor
    · omega
    · intro h3; exfalso; omega
  · -- a whole number of units
    have h1 : c * 2 ^ j * d = c * 2 ^ (j - k) * (d * 2 ^ k) := by
      rw [show 2 ^ j = 2 ^ (j - k) * 2 ^ k by rw [← Nat.pow_add]; congr 1; omega]; ring
    have h2 := roundedUp_nearest m r (d * 2 ^ k) (c * 2 ^ (j - k)) hr
    rw [h1]
    refine ⟨h2.1, fun h3 h4 => h2.2 h3 fun h5 => h4 ?_⟩
    rw [← h5, show 2 ^ j = 2 ^ (j - k) * 2 ^ k by rw [← Nat.pow_add]; congr 1; omega]; ring

/-- A magnitude the format holds is its own rounding. -/
theorem roundBits_exact (b d : Nat) (hd : 0 < d) : roundBits (magOf b * d) d = b := by
  have h := (roundBits_nearest (magOf b * d) d b hd).1
  have h0 : dist (magOf (roundBits (magOf b * d) d) * d) (magOf b * d) = 0 := by
    have : dist (magOf b * d) (magOf b * d) = 0 := by unfold dist; omega
    omega
  have h1 : magOf (roundBits (magOf b * d) d) * d = magOf b * d := by unfold dist at h0; omega
  exact magOf_strictMono.injective (Nat.eq_of_mul_eq_mul_right hd h1)

theorem dropped_mono {q q' : Nat} (h : q ≤ q') : dropped q ≤ dropped q' := by
  unfold dropped
  split
  · exact Nat.zero_le _
  · rw [if_neg (by omega)]
    have : q.log2 ≤ q'.log2 := (Nat.le_log2 (by omega)).mpr ((Nat.log2_self_le (by omega)).trans h)
    omega

/-- Rounding keeps the order. -/
theorem roundBits_mono {n n' : Nat} (d : Nat) (h : n ≤ n') : roundBits n d ≤ roundBits n' d := by
  have hk : dropped (n / d) ≤ dropped (n' / d) := dropped_mono (Nat.div_le_div_right h)
  obtain ⟨hq1, hq2⟩ := quotient_bounds n d
  obtain ⟨hq1', hq2'⟩ := quotient_bounds n' d
  unfold roundBits
  rcases Nat.lt_or_ge (dropped (n / d)) (dropped (n' / d)) with hlt | hge
  · have h1 := (roundedUp_bounds (n / (d * 2 ^ dropped (n / d))) (n % (d * 2 ^ dropped (n / d)))
      (d * 2 ^ dropped (n / d))).2
    have h2 := (roundedUp_bounds (n' / (d * 2 ^ dropped (n' / d))) (n' % (d * 2 ^ dropped (n' / d)))
      (d * 2 ^ dropped (n' / d))).1
    have h3 : 2 ^ 23 ≤ n' / (d * 2 ^ dropped (n' / d)) := by omega
    have h4 := Nat.mul_le_mul_right (2 ^ 23) (show dropped (n / d) + 1 ≤ dropped (n' / d) by omega)
    omega
  · have hkk : dropped (n' / d) = dropped (n / d) := by omega
    rw [hkk]
    generalize d * 2 ^ dropped (n / d) = u
    apply Nat.add_le_add_right
    have hm : n / u ≤ n' / u := Nat.div_le_div_right h
    rcases Nat.lt_or_ge (n / u) (n' / u) with h1 | h1
    · have h2 := (roundedUp_bounds (n / u) (n % u) u).2
      have h3 := (roundedUp_bounds (n' / u) (n' % u) u).1
      omega
    · have hmm : n' / u = n / u := by omega
      have hr : n % u ≤ n' % u := by
        have e1 := Nat.div_add_mod n u
        have e2 := Nat.div_add_mod n' u
        rw [hmm] at e2; omega
      rw [hmm]
      unfold roundedUp
      split <;> split <;> rename_i ha hb
      · omega
      · simp only [Bool.or_eq_true, decide_eq_true_eq, Bool.and_eq_true, beq_iff_eq, not_or, not_and] at ha hb
        omega
      · omega
      · omega

/-! ## Overflow -/

theorem magOf_infBits : magOf infBits = 2 ^ 25 * 2 ^ 252 := by decide
theorem magOf_maxFinite : magOf (infBits - 1) = (2 ^ 24 - 1) * 2 ^ 253 := by decide

/-- A magnitude rounds to a finite number exactly when it is below the overflow threshold. -/
theorem roundBits_finite_iff (n d : Nat) (hd : 0 < d) : roundBits n d < infBits ↔ n < overflowMag * d := by
  have hinf := roundBits_nearest n d infBits hd
  have hmax := (roundBits_nearest n d (infBits - 1) hd).1
  rw [magOf_infBits] at hinf
  rw [magOf_maxFinite] at hmax
  have hT : overflowMag * d = (2 ^ 24 - 1) * 2 ^ 253 * d + 2 ^ 252 * d := by unfold overflowMag; ring
  have hI : 2 ^ 25 * 2 ^ 252 * d = (2 ^ 24 - 1) * 2 ^ 253 * d + 2 ^ 252 * d + 2 ^ 252 * d := by ring
  have hpos : 0 < 2 ^ 252 * d := by positivity
  constructor
  · intro hlt
    by_contra hn
    have h1 : magOf (roundBits n d) ≤ (2 ^ 24 - 1) * 2 ^ 253 := by
      rw [← magOf_maxFinite]; exact magOf_strictMono.monotone (by omega)
    have h2 : magOf (roundBits n d) * d ≤ (2 ^ 24 - 1) * 2 ^ 253 * d := Nat.mul_le_mul_right d h1
    have hne : 2 ^ 25 * 2 ^ 252 ≠ magOf (roundBits n d) := by
      have : (2 ^ 24 - 1) * 2 ^ 253 < 2 ^ 25 * 2 ^ 252 := by decide
      omega
    have heven : roundBits n d % 2 = 0 → roundBits n d < infBits - 1 := fun h => by
      unfold infBits at *; omega
    generalize hA : (2 ^ 24 - 1) * 2 ^ 253 * d = A at *
    generalize hB : 2 ^ 252 * d = B at *
    generalize hC : 2 ^ 25 * 2 ^ 252 * d = C at *
    generalize hV : magOf (roundBits n d) * d = V at *
    have hd1 : dist V n = dist C n := by
      have := hinf.1; unfold dist at *; omega
    have hev := hinf.2 hd1 hne
    have hlt' := heven hev
    have h3 : V < A := by
      rw [← hV, ← hA]
      apply Nat.mul_lt_mul_of_pos_right _ hd
      rw [← magOf_maxFinite]; exact magOf_strictMono hlt'
    unfold dist at *; omega
  · intro hn
    by_contra hge
    have h1 : 2 ^ 25 * 2 ^ 252 ≤ magOf (roundBits n d) := by
      rw [← magOf_infBits]; exact magOf_strictMono.monotone (by omega)
    have h2 : 2 ^ 25 * 2 ^ 252 * d ≤ magOf (roundBits n d) * d := Nat.mul_le_mul_right d h1
    generalize hA : (2 ^ 24 - 1) * 2 ^ 253 * d = A at *
    generalize hB : 2 ^ 252 * d = B at *
    generalize hC : 2 ^ 25 * 2 ^ 252 * d = C at *
    generalize hV : magOf (roundBits n d) * d = V at *
    unfold dist at *; omega

/-! ## The word of a sign and a magnitude -/

theorem pack_toNat (s : Bool) (m : Nat) (h : m < 2 ^ 31) : (pack s m).toNat = if s then 2 ^ 31 + m else m := by
  unfold pack
  rw [BitVec.toNat_ofNat]
  split <;> omega

theorem magBits_pack (s : Bool) (m : Nat) (h : m < 2 ^ 31) : magBits (pack s m) = m := by
  unfold magBits
  rw [pack_toNat s m h]
  split <;> omega

theorem signBit_pack (s : Bool) (m : Nat) (h : m < 2 ^ 31) : signBit (pack s m) = s := by
  unfold signBit
  rw [BitVec.msb_eq_decide, pack_toNat s m h]
  cases s <;> simp
  omega

theorem val_pack (s : Bool) (m : Nat) (h : m < 2 ^ 31) : val (pack s m) = if s then -(magOf m : Int) else magOf m := by
  unfold val
  rw [signBit_pack s m h, mag_eq_magOf, magBits_pack s m h]

theorem lsb_pack (s : Bool) (m : Nat) (h : m < 2 ^ 31) : (pack s m).getLsbD 0 = decide (m % 2 = 1) := by
  rw [BitVec.getLsbD, pack_toNat s m h, Nat.testBit_zero]
  cases s <;> simp
  omega

theorem roundMag_le_infBits (n d : Nat) : roundMag n d ≤ infBits := by rw [roundMag_eq_min]; exact Nat.min_le_right _ _

theorem roundMag_lt (n d : Nat) : roundMag n d < 2 ^ 31 := lt_of_le_of_lt (roundMag_le_infBits n d) (by decide)

/-- Rounding a magnitude keeps the order. -/
theorem roundMag_mono {n n' : Nat} (d : Nat) (h : n ≤ n') : roundMag n d ≤ roundMag n' d := by
  rw [roundMag_eq_min, roundMag_eq_min]
  have := roundBits_mono d h
  omega

/-- A finite magnitude of the format is its own rounding. -/
theorem roundMag_exact (b d : Nat) (hd : 0 < d) (hb : b ≤ infBits) : roundMag (magOf b * d) d = b := by
  rw [roundMag_eq_min, roundBits_exact b d hd]
  omega

/-- A word is the pack of its sign and its low 31 bits. -/
theorem pack_self (w : Word) : pack (signBit w) (magBits w) = w := by
  apply BitVec.eq_of_toNat_eq
  rw [pack_toNat _ _ (magBits_lt w)]
  unfold signBit magBits
  rw [BitVec.msb_eq_decide]
  have := w.isLt
  split <;> rename_i h <;> simp only [decide_eq_true_eq] at h <;> omega

theorem val_eq (w : Word) : val w = if signBit w then -(magOf (magBits w) : Int) else magOf (magBits w) := by
  conv_lhs => rw [← pack_self w, val_pack _ _ (magBits_lt w)]

/-- Nearness of magnitudes is nearness of the signed values. -/
theorem signed_nearest (s t : Bool) {V X n d : Nat} {even : Prop} (hd : 0 < d)
    (h1 : dist (V * d) n ≤ dist (X * d) n) (h2 : dist (V * d) n = dist (X * d) n → X ≠ V → even)
    (h3 : dist (V * d) n ≤ dist 0 n) (h4 : dist (V * d) n = dist 0 n → 0 ≠ V → even) :
    ((if s then -(V : Int) else V) * d - (if s then -(n : Int) else n)).natAbs ≤
      ((if t then -(X : Int) else X) * d - (if s then -(n : Int) else n)).natAbs ∧
    (((if s then -(V : Int) else V) * d - (if s then -(n : Int) else n)).natAbs =
      ((if t then -(X : Int) else X) * d - (if s then -(n : Int) else n)).natAbs →
      (if t then -(X : Int) else X) ≠ (if s then -(V : Int) else V) → even) := by
  have hX : X ≠ 0 → 0 < X * d := fun h => Nat.mul_pos (by omega) hd
  have hV : V ≠ 0 → 0 < V * d := fun h => Nat.mul_pos (by omega) hd
  have hX0 : X = 0 → X * d = 0 := fun h => by rw [h, Nat.zero_mul]
  have eV : (V : Int) * d = ((V * d : Nat) : Int) := by push_cast; ring
  have eX : (X : Int) * d = ((X * d : Nat) : Int) := by push_cast; ring
  simp only [ite_mul, neg_mul, eV, eX]
  generalize V * d = Vd at *
  generalize X * d = Xd at *
  unfold dist at *
  cases s <;> cases t <;> simp only [if_true, if_false, Bool.false_eq_true]
  · exact ⟨by omega, fun h5 h6 => h2 (by omega) (by omega)⟩
  · refine ⟨by omega, fun h5 h6 => ?_⟩
    rcases Nat.eq_zero_or_pos X with h7 | h7
    · exact h4 (by omega) (by omega)
    · exact absurd (hX (by omega)) (by omega)
  · refine ⟨by omega, fun h5 h6 => ?_⟩
    rcases Nat.eq_zero_or_pos X with h7 | h7
    · exact h4 (by omega) (by omega)
    · exact absurd (hX (by omega)) (by omega)
  · exact ⟨by omega, fun h5 h6 => h2 (by omega) (by omega)⟩

/-- The rounded magnitude with its sign is the correctly rounded binary32 of the exact value. -/
theorem pack_roundMag_nearestEven (s : Bool) (n d : Nat) (hd : 0 < d) :
    NearestEven (if s then -(n : Int) else n) d (pack s (roundMag n d)) := by
  have hlt := roundMag_lt n d
  have habs : (if s then -(n : Int) else n).natAbs = n := by cases s <;> simp
  refine ⟨fun h => ?_, fun h => ?_, fun h => ?_, fun h => ?_⟩
  · rw [signBit_pack _ _ hlt]
    cases s
    · simp at h; omega
    · rfl
  · rw [signBit_pack _ _ hlt]
    cases s
    · rfl
    · simp at h; omega
  · rw [habs] at h
    unfold isInf
    rw [magBits_pack _ _ hlt, beq_iff_eq, roundMag_eq_min]
    have := (not_congr (roundBits_finite_iff n d hd)).mpr (by omega)
    omega
  · rw [habs] at h
    have hfin := (roundBits_finite_iff n d hd).mpr h
    have hm : roundMag n d = roundBits n d := by rw [roundMag_eq_min]; omega
    rw [hm] at hlt ⊢
    refine ⟨by unfold isFinite; rw [magBits_pack _ _ hlt]; simpa using hfin, fun x hx => ?_⟩
    have hnear := roundBits_nearest n d (magBits x) hd
    have hzero := roundBits_nearest n d 0 hd
    rw [magOf_zero, Nat.zero_mul] at hzero
    rw [val_pack _ _ hlt, val_eq x, lsb_pack _ _ hlt]
    have h := signed_nearest s (signBit x) hd hnear.1 hnear.2 hzero.1 hzero.2
    exact ⟨h.1, fun h1 h2 => by have := h.2 h1 h2; simp [this]⟩

/-! ## The order of rounded results -/

/-- The magnitude after `flush`. -/
def flushedMag (m : Nat) : Nat := if 0 < m ∧ m < 2 ^ 23 ∧ Config.ftz = true then 0 else m

theorem flushedMag_mono {m m' : Nat} (h : m ≤ m') : flushedMag m ≤ flushedMag m' := by
  unfold flushedMag
  by_cases hf : Config.ftz = true <;> simp only [hf, and_true, and_false, if_false, Bool.false_eq_true]
  · split <;> split <;> omega
  · exact h

theorem flush_pack (s : Bool) (m : Nat) (h : m < 2 ^ 31) : flush (pack s m) = pack s (flushedMag m) := by
  unfold flush isSubnormal flushedMag
  rw [magBits_pack s m h, signBit_pack s m h]
  by_cases h1 : 0 < m <;> by_cases h2 : m < 2 ^ 23 <;> by_cases hf : Config.ftz = true <;>
    simp only [h1, h2, hf, decide_true, decide_false, Bool.and_true, Bool.and_false, if_true, if_false,
      and_true, and_false, Bool.false_eq_true]

theorem flushedMag_le (m : Nat) : flushedMag m ≤ m := by unfold flushedMag; split <;> omega

theorem orderKey_pack (s : Bool) (m : Nat) (h : m < 2 ^ 31) : orderKey (pack s m) = if s then -(m : Int) else m := by
  unfold orderKey
  rw [signBit_pack s m h, magBits_pack s m h]

theorem orderKey_roundResult (s : Bool) (n d : Nat) :
    orderKey (roundResult s n d) = if s then -(flushedMag (roundMag n d) : Int) else flushedMag (roundMag n d) := by
  unfold roundResult
  rw [flush_pack _ _ (roundMag_lt n d), orderKey_pack]
  exact lt_of_le_of_lt (flushedMag_le _) (roundMag_lt n d)

/-- Rounding a signed exact value keeps the order. -/
theorem orderKey_round_mono {x y : Int} (d : Nat) (h : x ≤ y) :
    orderKey (roundResult (decide (x < 0)) x.natAbs d) ≤ orderKey (roundResult (decide (y < 0)) y.natAbs d) := by
  rw [orderKey_roundResult, orderKey_roundResult]
  by_cases hx : x < 0 <;> by_cases hy : y < 0 <;> simp only [hx, hy, decide_true, decide_false, if_true, if_false,
    Bool.false_eq_true]
  · have := flushedMag_mono (roundMag_mono d (show y.natAbs ≤ x.natAbs by omega)); omega
  · omega
  · omega
  · have := flushedMag_mono (roundMag_mono d (show x.natAbs ≤ y.natAbs by omega)); omega

theorem isNaN_flush (w : Word) : isNaN (flush w) = isNaN w := by
  conv_lhs => rw [← pack_self w, flush_pack _ _ (magBits_lt w)]
  unfold isNaN
  rw [magBits_pack _ _ (lt_of_le_of_lt (flushedMag_le _) (magBits_lt w))]
  unfold flushedMag infBits
  split <;> simp
  omega

/-- The free NaN value is a quiet NaN whatever it is. -/
theorem isNaN_nanResult (k : Nat) : isNaN (nanResult k) = true := by
  unfold isNaN nanResult
  rw [magBits_pack _ _ (by omega)]
  unfold infBits
  simp only [decide_eq_true_eq]
  omega

/-! ## What flushing and sign inversion keep -/

theorem magBits_flush (w : Word) : magBits (flush w) = flushedMag (magBits w) := by
  conv_lhs => rw [← pack_self w, flush_pack _ _ (magBits_lt w)]
  exact magBits_pack _ _ (lt_of_le_of_lt (flushedMag_le _) (magBits_lt w))

@[simp] theorem signBit_flush (w : Word) : signBit (flush w) = signBit w := by
  conv_lhs => rw [← pack_self w, flush_pack _ _ (magBits_lt w)]
  exact signBit_pack _ _ (lt_of_le_of_lt (flushedMag_le _) (magBits_lt w))

@[simp] theorem isFinite_flush (w : Word) : isFinite (flush w) = isFinite w := by
  unfold isFinite
  rw [magBits_flush]
  unfold flushedMag infBits
  split <;> simp
  omega

/-- A number that is no subnormal is its own flush. -/
theorem flush_of_not_subnormal {w : Word} (h : isSubnormal w = false) : flush w = w := by
  unfold flush
  rw [h]
  rfl

/-- An infinity is its own flush. -/
theorem flush_of_isInf {w : Word} (h : isInf w = true) : flush w = w := by
  apply flush_of_not_subnormal
  have h : magBits w = infBits := by simpa [isInf] using h
  unfold isSubnormal
  rw [h]
  decide

@[simp] theorem signBit_flipSign (w : Word) : signBit (flipSign w) = !signBit w := by
  unfold signBit flipSign
  rw [BitVec.msb_xor]
  exact Bool.xor_true _

@[simp] theorem magBits_flipSign (w : Word) : magBits (flipSign w) = magBits w := by
  unfold magBits flipSign
  rw [BitVec.toNat_xor, Nat.xor_mod_two_pow]
  exact Nat.xor_zero _

/-- A word is its sign and its magnitude. -/
theorem word_ext {v w : Word} (hs : signBit v = signBit w) (hm : magBits v = magBits w) : v = w := by
  rw [← pack_self v, ← pack_self w, hs, hm]

@[simp] theorem val_flipSign (w : Word) : val (flipSign w) = -val w := by
  rw [val_eq, val_eq, signBit_flipSign, magBits_flipSign]
  cases signBit w <;> simp

/-- A finite number is zero exactly when its value is. -/
theorem isZero_iff_val (w : Word) : isZero w = true ↔ val w = 0 := by
  rw [val_eq]
  have h : magOf (magBits w) = 0 ↔ magBits w = 0 := by
    rw [← magOf_zero]
    exact magOf_strictMono.injective.eq_iff
  simp only [isZero, beq_iff_eq]
  cases signBit w <;> simp [h]

/-! ## The order of the values -/

/-- Values are ordered as the keys the comparisons use. -/
theorem val_lt_iff_orderKey (v w : Word) : val v < val w ↔ orderKey v < orderKey w := by
  have hlt : ∀ a b : Nat, magOf a < magOf b ↔ a < b := fun a b => magOf_strictMono.lt_iff_lt
  have hv := hlt 0 (magBits v)
  have hw := hlt 0 (magBits w)
  have h1 := hlt (magBits v) (magBits w)
  have h2 := hlt (magBits w) (magBits v)
  rw [magOf_zero] at hv hw
  rw [val_eq, val_eq]
  unfold orderKey
  cases signBit v <;> cases signBit w <;> simp only [Bool.false_eq_true, if_false, if_true] <;> omega

theorem val_le_iff_orderKey (v w : Word) : val v ≤ val w ↔ orderKey v ≤ orderKey w := by
  rw [← Int.not_lt, ← Int.not_lt, val_lt_iff_orderKey]

end Sys2Proof.Machine
end

