-- ==== Sys2Proof/Laws/State.lean ====
section
/-! SUPPORT. The fields of the state after each update, one lemma per field and update. -/

namespace Sys2Proof.Machine

/-! ### draw -/

@[simp] theorem draw_osc1 (s : State) (n : Nat) : (s.draw n).osc1 = s.osc1 := rfl
@[simp] theorem draw_osc2 (s : State) (n : Nat) : (s.draw n).osc2 = s.osc2 := rfl
@[simp] theorem draw_aenv (s : State) (n : Nat) : (s.draw n).aenv = s.aenv := rfl
@[simp] theorem draw_fenv (s : State) (n : Nat) : (s.draw n).fenv = s.fenv := rfl
@[simp] theorem draw_voice (s : State) (n : Nat) : (s.draw n).voice = s.voice := rfl
@[simp] theorem draw_filter (s : State) (n : Nat) : (s.draw n).filter = s.filter := rfl
@[simp] theorem draw_fcoef (s : State) (n : Nat) : (s.draw n).fcoef = s.fcoef := rfl
@[simp] theorem draw_inflight (s : State) (n : Nat) : (s.draw n).inflight = s.inflight := rfl
@[simp] theorem draw_rsp (s : State) (n : Nat) : (s.draw n).rsp = s.rsp := rfl
@[simp] theorem draw_pins (s : State) (n : Nat) : (s.draw n).pins = s.pins := rfl
@[simp] theorem draw_nanDraws (s : State) (n : Nat) : (s.draw n).nanDraws = s.nanDraws + n := rfl

/-! ### respond -/

@[simp] theorem respond_osc1 (d0 d1 d2 : Word) (s : State) : (respond d0 d1 d2 s).osc1 = s.osc1 := rfl
@[simp] theorem respond_osc2 (d0 d1 d2 : Word) (s : State) : (respond d0 d1 d2 s).osc2 = s.osc2 := rfl
@[simp] theorem respond_aenv (d0 d1 d2 : Word) (s : State) : (respond d0 d1 d2 s).aenv = s.aenv := rfl
@[simp] theorem respond_fenv (d0 d1 d2 : Word) (s : State) : (respond d0 d1 d2 s).fenv = s.fenv := rfl
@[simp] theorem respond_voice (d0 d1 d2 : Word) (s : State) : (respond d0 d1 d2 s).voice = s.voice := rfl
@[simp] theorem respond_filter (d0 d1 d2 : Word) (s : State) : (respond d0 d1 d2 s).filter = s.filter := rfl
@[simp] theorem respond_fcoef (d0 d1 d2 : Word) (s : State) : (respond d0 d1 d2 s).fcoef = s.fcoef := rfl
@[simp] theorem respond_inflight (d0 d1 d2 : Word) (s : State) : (respond d0 d1 d2 s).inflight = s.inflight := rfl
@[simp] theorem respond_rsp (d0 d1 d2 : Word) (s : State) : (respond d0 d1 d2 s).rsp = some (okResponse d0 d1 d2) := rfl
@[simp] theorem respond_pins (d0 d1 d2 : Word) (s : State) : (respond d0 d1 d2 s).pins = s.pins := rfl
@[simp] theorem respond_nanDraws (d0 d1 d2 : Word) (s : State) : (respond d0 d1 d2 s).nanDraws = s.nanDraws := rfl

/-! ### raiseFault -/

@[simp] theorem raiseFault_osc1 (c : Cause) (w : CmdWord) (s : State) : (raiseFault c w s).osc1 = s.osc1 := rfl
@[simp] theorem raiseFault_osc2 (c : Cause) (w : CmdWord) (s : State) : (raiseFault c w s).osc2 = s.osc2 := rfl
@[simp] theorem raiseFault_aenv (c : Cause) (w : CmdWord) (s : State) : (raiseFault c w s).aenv = s.aenv := rfl
@[simp] theorem raiseFault_fenv (c : Cause) (w : CmdWord) (s : State) : (raiseFault c w s).fenv = s.fenv := rfl
@[simp] theorem raiseFault_voice (c : Cause) (w : CmdWord) (s : State) : (raiseFault c w s).voice = recordFault c w s.voice := rfl
@[simp] theorem raiseFault_filter (c : Cause) (w : CmdWord) (s : State) : (raiseFault c w s).filter = s.filter := rfl
@[simp] theorem raiseFault_fcoef (c : Cause) (w : CmdWord) (s : State) : (raiseFault c w s).fcoef = s.fcoef := rfl
@[simp] theorem raiseFault_inflight (c : Cause) (w : CmdWord) (s : State) : (raiseFault c w s).inflight = s.inflight := rfl
@[simp] theorem raiseFault_rsp (c : Cause) (w : CmdWord) (s : State) : (raiseFault c w s).rsp = some (faultResponse c) := rfl
@[simp] theorem raiseFault_pins (c : Cause) (w : CmdWord) (s : State) : (raiseFault c w s).pins = s.pins := rfl
@[simp] theorem raiseFault_nanDraws (c : Cause) (w : CmdWord) (s : State) : (raiseFault c w s).nanDraws = s.nanDraws := rfl

/-! ### takeInFlight -/

@[simp] theorem takeInFlight_osc1 (s : State) : (takeInFlight s).osc1 = s.osc1 := rfl
@[simp] theorem takeInFlight_osc2 (s : State) : (takeInFlight s).osc2 = s.osc2 := rfl
@[simp] theorem takeInFlight_aenv (s : State) : (takeInFlight s).aenv = s.aenv := rfl
@[simp] theorem takeInFlight_fenv (s : State) : (takeInFlight s).fenv = s.fenv := rfl
@[simp] theorem takeInFlight_voice (s : State) : (takeInFlight s).voice = s.voice := rfl
@[simp] theorem takeInFlight_filter (s : State) : (takeInFlight s).filter = s.filter := rfl
@[simp] theorem takeInFlight_fcoef (s : State) : (takeInFlight s).fcoef = s.fcoef := rfl
@[simp] theorem takeInFlight_inflight (s : State) : (takeInFlight s).inflight = none := rfl
@[simp] theorem takeInFlight_rsp (s : State) : (takeInFlight s).rsp = none := rfl
@[simp] theorem takeInFlight_pins (s : State) : (takeInFlight s).pins = s.pins := rfl
@[simp] theorem takeInFlight_nanDraws (s : State) : (takeInFlight s).nanDraws = s.nanDraws := rfl

/-! ### waitEdge -/

@[simp] theorem waitEdge_osc1 (s : State) : (waitEdge s).osc1 = s.osc1 := rfl
@[simp] theorem waitEdge_osc2 (s : State) : (waitEdge s).osc2 = s.osc2 := rfl
@[simp] theorem waitEdge_aenv (s : State) : (waitEdge s).aenv = s.aenv := rfl
@[simp] theorem waitEdge_fenv (s : State) : (waitEdge s).fenv = s.fenv := rfl
@[simp] theorem waitEdge_voice (s : State) : (waitEdge s).voice = s.voice := rfl
@[simp] theorem waitEdge_filter (s : State) : (waitEdge s).filter = s.filter := rfl
@[simp] theorem waitEdge_fcoef (s : State) : (waitEdge s).fcoef = s.fcoef := rfl
@[simp] theorem waitEdge_inflight (s : State) : (waitEdge s).inflight = s.inflight.map fun c => { c with left := c.left - 1 } := rfl
@[simp] theorem waitEdge_rsp (s : State) : (waitEdge s).rsp = none := rfl
@[simp] theorem waitEdge_pins (s : State) : (waitEdge s).pins = s.pins := rfl
@[simp] theorem waitEdge_nanDraws (s : State) : (waitEdge s).nanDraws = s.nanDraws := rfl

/-! ### dropPins -/

@[simp] theorem dropPins_osc1 (s : State) : (s.dropPins).osc1 = s.osc1 := rfl
@[simp] theorem dropPins_osc2 (s : State) : (s.dropPins).osc2 = s.osc2 := rfl
@[simp] theorem dropPins_aenv (s : State) : (s.dropPins).aenv = s.aenv := rfl
@[simp] theorem dropPins_fenv (s : State) : (s.dropPins).fenv = s.fenv := rfl
@[simp] theorem dropPins_voice (s : State) : (s.dropPins).voice = s.voice := rfl
@[simp] theorem dropPins_filter (s : State) : (s.dropPins).filter = s.filter := rfl
@[simp] theorem dropPins_fcoef (s : State) : (s.dropPins).fcoef = s.fcoef := rfl
@[simp] theorem dropPins_inflight (s : State) : (s.dropPins).inflight = s.inflight := rfl
@[simp] theorem dropPins_rsp (s : State) : (s.dropPins).rsp = s.rsp := rfl
@[simp] theorem dropPins_pins (s : State) : (s.dropPins).pins = s.pins.tail := rfl
@[simp] theorem dropPins_nanDraws (s : State) : (s.dropPins).nanDraws = s.nanDraws := rfl

/-! ### withRecord -/

@[simp] theorem withRecord_osc1 (s : State) (f w : Word) : (s.withRecord f w).osc1 = s.osc1 := rfl
@[simp] theorem withRecord_osc2 (s : State) (f w : Word) : (s.withRecord f w).osc2 = s.osc2 := rfl
@[simp] theorem withRecord_aenv (s : State) (f w : Word) : (s.withRecord f w).aenv = s.aenv := rfl
@[simp] theorem withRecord_fenv (s : State) (f w : Word) : (s.withRecord f w).fenv = s.fenv := rfl
@[simp] theorem withRecord_voice (s : State) (f w : Word) : (s.withRecord f w).voice = { s.voice with fault := f, fcmd := w } := rfl
@[simp] theorem withRecord_filter (s : State) (f w : Word) : (s.withRecord f w).filter = s.filter := rfl
@[simp] theorem withRecord_fcoef (s : State) (f w : Word) : (s.withRecord f w).fcoef = s.fcoef := rfl
@[simp] theorem withRecord_inflight (s : State) (f w : Word) : (s.withRecord f w).inflight = s.inflight := rfl
@[simp] theorem withRecord_rsp (s : State) (f w : Word) : (s.withRecord f w).rsp = s.rsp := rfl
@[simp] theorem withRecord_pins (s : State) (f w : Word) : (s.withRecord f w).pins = s.pins := rfl
@[simp] theorem withRecord_nanDraws (s : State) (f w : Word) : (s.withRecord f w).nanDraws = s.nanDraws := rfl

/-! ### hardReset -/

@[simp] theorem hardReset_osc1 (s : State) : (hardReset s).osc1 = State.reset.osc1 := rfl
@[simp] theorem hardReset_osc2 (s : State) : (hardReset s).osc2 = State.reset.osc2 := rfl
@[simp] theorem hardReset_aenv (s : State) : (hardReset s).aenv = State.reset.aenv := rfl
@[simp] theorem hardReset_fenv (s : State) : (hardReset s).fenv = State.reset.fenv := rfl
@[simp] theorem hardReset_voice (s : State) : (hardReset s).voice = State.reset.voice := rfl
@[simp] theorem hardReset_filter (s : State) : (hardReset s).filter = State.reset.filter := rfl
@[simp] theorem hardReset_fcoef (s : State) : (hardReset s).fcoef = State.reset.fcoef := rfl
@[simp] theorem hardReset_inflight (s : State) : (hardReset s).inflight = State.reset.inflight := rfl
@[simp] theorem hardReset_rsp (s : State) : (hardReset s).rsp = State.reset.rsp := rfl
@[simp] theorem hardReset_pins (s : State) : (hardReset s).pins = s.pins := rfl
@[simp] theorem hardReset_nanDraws (s : State) : (hardReset s).nanDraws = s.nanDraws := rfl

/-! ### setOsc and setEnv -/

@[simp] theorem setOsc_aenv (s : State) (u : OscUnit) (o : Osc) : (s.setOsc u o).aenv = s.aenv := by cases u <;> rfl
@[simp] theorem setOsc_fenv (s : State) (u : OscUnit) (o : Osc) : (s.setOsc u o).fenv = s.fenv := by cases u <;> rfl
@[simp] theorem setOsc_voice (s : State) (u : OscUnit) (o : Osc) : (s.setOsc u o).voice = s.voice := by cases u <;> rfl
@[simp] theorem setOsc_filter (s : State) (u : OscUnit) (o : Osc) : (s.setOsc u o).filter = s.filter := by cases u <;> rfl
@[simp] theorem setOsc_fcoef (s : State) (u : OscUnit) (o : Osc) : (s.setOsc u o).fcoef = s.fcoef := by cases u <;> rfl
@[simp] theorem setOsc_inflight (s : State) (u : OscUnit) (o : Osc) : (s.setOsc u o).inflight = s.inflight := by cases u <;> rfl
@[simp] theorem setOsc_rsp (s : State) (u : OscUnit) (o : Osc) : (s.setOsc u o).rsp = s.rsp := by cases u <;> rfl
@[simp] theorem setOsc_pins (s : State) (u : OscUnit) (o : Osc) : (s.setOsc u o).pins = s.pins := by cases u <;> rfl
@[simp] theorem setOsc_nanDraws (s : State) (u : OscUnit) (o : Osc) : (s.setOsc u o).nanDraws = s.nanDraws := by cases u <;> rfl
@[simp] theorem setEnv_osc1 (s : State) (u : EnvUnit) (e : Env) : (s.setEnv u e).osc1 = s.osc1 := by cases u <;> rfl
@[simp] theorem setEnv_osc2 (s : State) (u : EnvUnit) (e : Env) : (s.setEnv u e).osc2 = s.osc2 := by cases u <;> rfl
@[simp] theorem setEnv_voice (s : State) (u : EnvUnit) (e : Env) : (s.setEnv u e).voice = s.voice := by cases u <;> rfl
@[simp] theorem setEnv_filter (s : State) (u : EnvUnit) (e : Env) : (s.setEnv u e).filter = s.filter := by cases u <;> rfl
@[simp] theorem setEnv_fcoef (s : State) (u : EnvUnit) (e : Env) : (s.setEnv u e).fcoef = s.fcoef := by cases u <;> rfl
@[simp] theorem setEnv_inflight (s : State) (u : EnvUnit) (e : Env) : (s.setEnv u e).inflight = s.inflight := by cases u <;> rfl
@[simp] theorem setEnv_rsp (s : State) (u : EnvUnit) (e : Env) : (s.setEnv u e).rsp = s.rsp := by cases u <;> rfl
@[simp] theorem setEnv_pins (s : State) (u : EnvUnit) (e : Env) : (s.setEnv u e).pins = s.pins := by cases u <;> rfl
@[simp] theorem setEnv_nanDraws (s : State) (u : EnvUnit) (e : Env) : (s.setEnv u e).nanDraws = s.nanDraws := by cases u <;> rfl

@[simp] theorem setOsc_osc (s : State) (u : OscUnit) (o : Osc) : (s.setOsc u o).osc u = o := by cases u <;> rfl
@[simp] theorem setOsc_other (s : State) (u : OscUnit) (o : Osc) : (s.setOsc u o).osc u.other = s.osc u.other := by
  cases u <;> rfl
@[simp] theorem setOsc_env (s : State) (u : OscUnit) (o : Osc) (e : EnvUnit) : (s.setOsc u o).env e = s.env e := by
  cases u <;> cases e <;> rfl
@[simp] theorem setEnv_env (s : State) (e : EnvUnit) (u : Env) : (s.setEnv e u).env e = u := by cases e <;> rfl
@[simp] theorem setEnv_osc (s : State) (e : EnvUnit) (u : Env) (o : OscUnit) : (s.setEnv e u).osc o = s.osc o := by
  cases o <;> cases e <;> rfl
@[simp] theorem draw_osc (s : State) (n : Nat) (u : OscUnit) : (s.draw n).osc u = s.osc u := by cases u <;> rfl
@[simp] theorem draw_env (s : State) (n : Nat) (e : EnvUnit) : (s.draw n).env e = s.env e := by cases e <;> rfl
@[simp] theorem respond_osc (d0 d1 d2 : Word) (s : State) (u : OscUnit) : (respond d0 d1 d2 s).osc u = s.osc u := by
  cases u <;> rfl
@[simp] theorem respond_env (d0 d1 d2 : Word) (s : State) (e : EnvUnit) : (respond d0 d1 d2 s).env e = s.env e := by
  cases e <;> rfl
@[simp] theorem osc_osc1 (s : State) : s.osc .osc1 = s.osc1 := rfl
@[simp] theorem osc_osc2 (s : State) : s.osc .osc2 = s.osc2 := rfl
@[simp] theorem env_aenv (s : State) : s.env .aenv = s.aenv := rfl
@[simp] theorem env_fenv (s : State) : s.env .fenv = s.fenv := rfl

/-! ### What a register reads after an update -/

/-- A response changes no register. -/
@[simp] theorem respond_regRead (d0 d1 d2 : Word) (s : State) (r : Reg) :
    (respond d0 d1 d2 s).regRead r = s.regRead r := by
  cases r with
  | osc u r => simp [State.regRead]
  | env u r => simp [State.regRead]
  | voice r => cases r <;> rfl

/-- The free-value counter is no register. -/
@[simp] theorem draw_regRead (s : State) (n : Nat) (r : Reg) : (s.draw n).regRead r = s.regRead r := by
  cases r with
  | osc u r => simp [State.regRead]
  | env u r => simp [State.regRead]
  | voice r => cases r <;> rfl

@[simp] theorem takeInFlight_regRead (s : State) (r : Reg) : (takeInFlight s).regRead r = s.regRead r := by
  cases r with
  | osc u r => cases u <;> rfl
  | env u r => cases u <;> rfl
  | voice r => cases r <;> rfl

@[simp] theorem waitEdge_regRead (s : State) (r : Reg) : (waitEdge s).regRead r = s.regRead r := by
  cases r with
  | osc u r => cases u <;> rfl
  | env u r => cases u <;> rfl
  | voice r => cases r <;> rfl

@[simp] theorem dropPins_regRead (s : State) (r : Reg) : s.dropPins.regRead r = s.regRead r := by
  cases r with
  | osc u r => cases u <;> rfl
  | env u r => cases u <;> rfl
  | voice r => cases r <;> rfl

@[simp] theorem accept_regRead (p : Pins) (s : State) (r : Reg) : (accept p s).regRead r = s.regRead r := by
  unfold accept
  split
  · cases r with
    | osc u r => cases u <;> rfl
    | env u r => cases u <;> rfl
    | voice r => cases r <;> rfl
  · rfl

@[simp] theorem accept_osc1 (p : Pins) (s : State) : (accept p s).osc1 = s.osc1 := by unfold accept; split <;> rfl
@[simp] theorem accept_osc2 (p : Pins) (s : State) : (accept p s).osc2 = s.osc2 := by unfold accept; split <;> rfl
@[simp] theorem accept_aenv (p : Pins) (s : State) : (accept p s).aenv = s.aenv := by unfold accept; split <;> rfl
@[simp] theorem accept_fenv (p : Pins) (s : State) : (accept p s).fenv = s.fenv := by unfold accept; split <;> rfl
@[simp] theorem accept_voice (p : Pins) (s : State) : (accept p s).voice = s.voice := by unfold accept; split <;> rfl
@[simp] theorem accept_filter (p : Pins) (s : State) : (accept p s).filter = s.filter := by unfold accept; split <;> rfl
@[simp] theorem accept_fcoef (p : Pins) (s : State) : (accept p s).fcoef = s.fcoef := by unfold accept; split <;> rfl
@[simp] theorem accept_rsp (p : Pins) (s : State) : (accept p s).rsp = s.rsp := by unfold accept; split <;> rfl
@[simp] theorem accept_pins (p : Pins) (s : State) : (accept p s).pins = s.pins := by unfold accept; split <;> rfl
@[simp] theorem accept_nanDraws (p : Pins) (s : State) : (accept p s).nanDraws = s.nanDraws := by unfold accept; split <;> rfl

end Sys2Proof.Machine
end

