-- ==== Sys2Proof/Laws/Ops.lean ====
section
/-! SUPPORT. What each shared operation can do, said once: commit, need, the unit operations, the commands and the clock edge. -/

namespace Sys2Proof.Machine

/-! ## Results of a command's copy -/

@[simp] theorem except_bind_ok {ε α β : Type} (a : α) (f : α → Except ε β) : (Except.ok a >>= f) = f a := rfl
@[simp] theorem except_bind_error {ε α β : Type} (e : ε) (f : α → Except ε β) :
    ((Except.error e : Except ε α) >>= f) = .error e := rfl
@[simp] theorem except_pure {ε α : Type} (a : α) : (pure a : Except ε α) = .ok a := rfl

/-- Every step of a copy that completes completed. -/
theorem except_bind_eq_ok {ε α β : Type} {x : Except ε α} {f : α → Except ε β} {b : β} :
    (x >>= f) = .ok b ↔ ∃ a, x = .ok a ∧ f a = .ok b := by
  cases x <;> simp

/-- A copy faults in its first step or after it. -/
theorem except_bind_eq_error {ε α β : Type} {x : Except ε α} {f : α → Except ε β} {e : ε} :
    (x >>= f) = .error e ↔ x = .error e ∨ ∃ a, x = .ok a ∧ f a = .error e := by
  cases x <;> simp

@[simp] theorem need_some (w : Word) : need (some w) = .ok w := rfl
@[simp] theorem need_none : need none = .error .unsetOperand := rfl

theorem need_eq_ok {r : Option Word} {w : Word} : need r = .ok w ↔ r = some w := by cases r <;> simp
theorem need_eq_error {r : Option Word} {c : Cause} : need r = .error c ↔ r = none ∧ c = .unsetOperand := by
  cases r with
  | none => simp [eq_comm]
  | some w => simp

@[simp] theorem commit_ok (i : Instr) (s t : State) : commit i s (.ok t) = .next t := rfl
@[simp] theorem commit_error (i : Instr) (s : State) (c : Cause) :
    commit i s (.error c) = .next (raiseFault c i.cmdWord s) := rfl

/-- A command ends by committing its copy or by taking its fault. -/
theorem commit_cases {i : Instr} {s t : State} {r : Except Cause State} (h : commit i s r = .next t) :
    r = .ok t ∨ ∃ c, r = .error c ∧ t = raiseFault c i.cmdWord s := by
  cases r with
  | ok u => simp at h; exact .inl (by rw [h])
  | error c => simp at h; exact .inr ⟨c, rfl, h.symm⟩

theorem commit_answers_next (i : Instr) (s : State) (r : Except Cause State) : ∃ t, commit i s r = .next t := by
  cases r <;> simp

/-! ## The unit operations -/

/-- `OSC_NEXT` on a unit that completes: a cycle start with its parameters, or a sample inside the cycle. -/
theorem oscNext_ok_cases {k : Nat} {o o' : Osc} (h : oscNext k o = .ok o') :
    (startsCycle k o = true ∧ ∃ per amp, o.period = some per ∧ o.ampl = some amp ∧
      cycleCheck (k + 1) per o.pmod = .ok () ∧
      o' = cycleStart (k + 1) (nextPhase k o) per o.pmod amp o) ∨
    (startsCycle k o = false ∧ o' = inCycle (k + 1) (nextPhase k o) o) := by
  unfold oscNext at h
  split at h
  · rename_i hs
    obtain ⟨per, hp, h⟩ := except_bind_eq_ok.mp h
    obtain ⟨amp, ha, h⟩ := except_bind_eq_ok.mp h
    obtain ⟨_, hc, h⟩ := except_bind_eq_ok.mp h
    exact .inl ⟨hs, per, amp, need_eq_ok.mp hp, need_eq_ok.mp ha, hc, by simpa using h.symm⟩
  · rename_i hs
    exact .inr ⟨by simpa using hs, by simpa using h.symm⟩

/-- `OSC_NEXT` never writes the unit's parameters. -/
theorem oscNext_keeps_parameters {k : Nat} {o o' : Osc} (h : oscNext k o = .ok o') :
    o'.period = o.period ∧ o'.ampl = o.ampl ∧ o'.pmod = o.pmod := by
  rcases oscNext_ok_cases h with ⟨_, per, amp, _, _, _, rfl⟩ | ⟨_, rfl⟩ <;> exact ⟨rfl, rfl, rfl⟩

/-- The causes `OSC_NEXT` can raise, none of them `ILLEGAL_CMD`. -/
theorem oscNext_error_cause {k : Nat} {o : Osc} {c : Cause} (h : oscNext k o = .error c) : c ≠ .illegalCmd := by
  unfold oscNext at h
  split at h
  · rcases except_bind_eq_error.mp h with h | ⟨_, _, h⟩
    · rw [(need_eq_error.mp h).2]; decide
    rcases except_bind_eq_error.mp h with h | ⟨_, _, h⟩
    · rw [(need_eq_error.mp h).2]; decide
    rcases except_bind_eq_error.mp h with h | ⟨_, _, h⟩
    · unfold cycleCheck at h
      split at h
      · cases h; decide
      · simp only at h
        split at h <;> cases h
        decide
    · cases h
  · cases h

/-- `ENV_NEXT` on a unit that completes: the step that ends an attack, or any other. -/
theorem envNext_ok_cases {k : Nat} {u u' : Env} (h : envNext k u = .ok u') :
    (attackEnds k u = true ∧ ∃ m t, u.decmul = some m ∧ u.suslvl = some t ∧
      u' = { u with level := nextLevel k u, mult := m, target := t }) ∨
    (attackEnds k u = false ∧ u' = { u with level := nextLevel k u }) := by
  unfold envNext at h
  split at h
  · rename_i hs
    obtain ⟨m, hm, h⟩ := except_bind_eq_ok.mp h
    obtain ⟨t, ht, h⟩ := except_bind_eq_ok.mp h
    exact .inl ⟨hs, m, t, need_eq_ok.mp hm, need_eq_ok.mp ht, by simpa using h.symm⟩
  · rename_i hs
    exact .inr ⟨by simpa using hs, by simpa using h.symm⟩

/-- `ENV_NEXT` never writes the unit's parameters. -/
theorem envNext_keeps_parameters {k : Nat} {u u' : Env} (h : envNext k u = .ok u') :
    u'.attmul = u.attmul ∧ u'.decmul = u.decmul ∧ u'.suslvl = u.suslvl ∧ u'.relmul = u.relmul := by
  rcases envNext_ok_cases h with ⟨_, m, t, _, _, rfl⟩ | ⟨_, rfl⟩ <;> exact ⟨rfl, rfl, rfl, rfl⟩

/-- `ENV_NEXT` raises `UNSET_OPERAND` only. -/
theorem envNext_error_cause {k : Nat} {u : Env} {c : Cause} (h : envNext k u = .error c) : c = .unsetOperand := by
  unfold envNext at h
  split at h
  · rcases except_bind_eq_error.mp h with h | ⟨_, _, h⟩
    · exact (need_eq_error.mp h).2
    rcases except_bind_eq_error.mp h with h | ⟨_, _, h⟩
    · exact (need_eq_error.mp h).2
    · cases h
  · cases h

/-- One oscillator step of the state. -/
theorem oscStep_ok_cases {u : OscUnit} {s t : State} (h : oscStep u s = .ok t) :
    ∃ o, oscNext s.nanDraws (s.osc u) = .ok o ∧ t = (s.setOsc u o).draw oscNextDraws := by
  obtain ⟨o, ho, h⟩ := except_bind_eq_ok.mp h
  exact ⟨o, ho, by simpa using h.symm⟩

/-- One envelope step of the state. -/
theorem envStep_ok_cases {e : EnvUnit} {s t : State} (h : envStep e s = .ok t) :
    ∃ u, envNext s.nanDraws (s.env e) = .ok u ∧ t = (s.setEnv e u).draw envNextDraws := by
  obtain ⟨u, hu, h⟩ := except_bind_eq_ok.mp h
  exact ⟨u, hu, by simpa using h.symm⟩

/-- One envelope release of the state. -/
theorem releaseStep_ok_cases {e : EnvUnit} {s t : State} (h : releaseStep e s = .ok t) :
    ∃ rm, (s.env e).relmul = some rm ∧
      t = s.setEnv e { s.env e with target := Config.zero, mult := rm } := by
  obtain ⟨u, hu, h⟩ := except_bind_eq_ok.mp h
  obtain ⟨rm, hr, hu⟩ := except_bind_eq_ok.mp hu
  refine ⟨rm, need_eq_ok.mp hr, ?_⟩
  have : u = { s.env e with target := Config.zero, mult := rm } := by simpa using hu.symm
  subst this
  simpa using h.symm

/-- The Filter slot: bypassed, or rendered with coefficients. -/
theorem filterSlot_ok_cases {s : State} {x : Word} {r : Word × FilterState} (h : filterSlot s x = .ok r) :
    (s.voice.fbyp = true ∧ r = (x, s.filter)) ∨
    (s.voice.fbyp = false ∧ s.fcoef = true ∧ r = Config.filterRender s.filter x) := by
  unfold filterSlot at h
  split at h
  · rename_i hb; cases h; exact .inl ⟨hb, rfl⟩
  · rename_i hb
    split at h
    · rename_i hc; cases h; exact .inr ⟨by simpa using hb, hc, rfl⟩
    · cases h

/-- `VOICE_RENDER` that completes: both oscillators and the envelope stepped, the Filter slot passed. -/
theorem renderCommand_ok_cases {n : Word} {s t : State} (h : renderCommand n s = .ok t) :
    ∃ o1 o2 u y f,
      oscNext s.nanDraws s.osc1 = .ok o1 ∧ oscNext (s.nanDraws + oscNextDraws) s.osc2 = .ok o2 ∧
      envNext (s.nanDraws + oscNextDraws + oscNextDraws + mixDraws) s.aenv = .ok u ∧
      (let k := s.nanDraws + oscNextDraws + oscNextDraws
       let saw := nextSaw k s.voice.saw o1.out o2.out
       let out := fmul (k + 4) y u.level
       filterSlot s (fadd (k + 3) saw n) = .ok (y, f) ∧
       t = { s with
         osc1 := o1, osc2 := o2, aenv := u, filter := f
         voice := { s.voice with
           saw := saw, out := out
           outl := fmul (k + 5) out s.voice.panl, outr := fmul (k + 6) out s.voice.panr }
         nanDraws := k + mixDraws + envNextDraws
         rsp := some (okResponse out (fmul (k + 5) out s.voice.panl) (fmul (k + 6) out s.voice.panr)) }) := by
  obtain ⟨s1, h1, h⟩ := except_bind_eq_ok.mp h
  obtain ⟨o1, ho1, rfl⟩ := oscStep_ok_cases h1
  obtain ⟨s2, h2, h⟩ := except_bind_eq_ok.mp h
  obtain ⟨o2, ho2, rfl⟩ := oscStep_ok_cases h2
  obtain ⟨⟨y, f⟩, hf, h⟩ := except_bind_eq_ok.mp h
  obtain ⟨s3, h3, h⟩ := except_bind_eq_ok.mp h
  obtain ⟨u, hu, rfl⟩ := envStep_ok_cases h3
  cases h
  exact ⟨o1, o2, u, y, f, ho1, ho2, hu, hf, rfl⟩

/-- `VOICE_CTRL` that completes: every operand set, the filter envelope stepped. -/
theorem ctrlCommand_ok_cases {s t : State} (h : ctrlCommand s = .ok t) :
    ∃ g tp p u c fm fd pb q,
      s.voice.glide = some g ∧ s.voice.tperiod = some tp ∧ s.voice.period = some p ∧
      envNext (s.nanDraws + ctrlDraws) s.fenv = .ok u ∧
      s.voice.cutoff = some c ∧ s.voice.filtmod = some fm ∧ s.voice.fenvdepth = some fd ∧
      s.voice.pbend = some pb ∧ s.voice.filtq = some q ∧
      (let mc := clampCutoff (rawCutoff (s.nanDraws + 3) c fm fd u.level pb)
       t = { s with
         fenv := u
         voice := { s.voice with period := some (glided s.nanDraws p g tp), modcut := some mc }
         filter := Config.filterUpdate s.filter mc q
         fcoef := true
         nanDraws := s.nanDraws + ctrlDraws + envNextDraws
         rsp := some (okResponse mc 0#32 0#32) }) := by
  obtain ⟨g, hg, h⟩ := except_bind_eq_ok.mp h
  obtain ⟨tp, htp, h⟩ := except_bind_eq_ok.mp h
  obtain ⟨p, hp, h⟩ := except_bind_eq_ok.mp h
  obtain ⟨t', ht, h⟩ := except_bind_eq_ok.mp h
  obtain ⟨u, hu, rfl⟩ := envStep_ok_cases ht
  obtain ⟨c, hc, h⟩ := except_bind_eq_ok.mp h
  obtain ⟨fm, hfm, h⟩ := except_bind_eq_ok.mp h
  obtain ⟨fd, hfd, h⟩ := except_bind_eq_ok.mp h
  obtain ⟨pb, hpb, h⟩ := except_bind_eq_ok.mp h
  obtain ⟨q, hq, h⟩ := except_bind_eq_ok.mp h
  cases h
  exact ⟨g, tp, p, u, c, fm, fd, pb, q, need_eq_ok.mp hg, need_eq_ok.mp htp, need_eq_ok.mp hp, hu,
    need_eq_ok.mp hc, need_eq_ok.mp hfm, need_eq_ok.mp hfd, need_eq_ok.mp hpb, need_eq_ok.mp hq, rfl⟩

/-- `VOICE_SETPER` that completes: its three operands set. -/
theorem setperCommand_ok_cases {s t : State} (h : setperCommand s = .ok t) :
    ∃ p pb dt, s.voice.period = some p ∧ s.voice.pbend = some pb ∧ s.voice.detune = some dt ∧
      t = respond 0#32 0#32 0#32
        (({ s with
            osc1 := { s.osc1 with period := some (fmul s.nanDraws p pb) }
            osc2 := { s.osc2 with period := some (fmul (s.nanDraws + 1) (fmul s.nanDraws p pb) dt) } } : State).draw 2) := by
  obtain ⟨p, hp, h⟩ := except_bind_eq_ok.mp h
  obtain ⟨pb, hpb, h⟩ := except_bind_eq_ok.mp h
  obtain ⟨dt, hdt, h⟩ := except_bind_eq_ok.mp h
  exact ⟨p, pb, dt, need_eq_ok.mp hp, need_eq_ok.mp hpb, need_eq_ok.mp hdt, by simpa using h.symm⟩

/-- `VOICE_RELEASE` that completes: both `RELMUL` set. -/
theorem voiceReleaseCommand_ok_cases {s t : State} (h : voiceReleaseCommand s = .ok t) :
    ∃ ra rf, s.aenv.relmul = some ra ∧ s.fenv.relmul = some rf ∧
      t = respond 0#32 0#32 0#32
        { s with
          aenv := { s.aenv with target := Config.zero, mult := ra }
          fenv := { s.fenv with target := Config.zero, mult := rf } } := by
  obtain ⟨t1, h1, h⟩ := except_bind_eq_ok.mp h
  obtain ⟨ra, hra, rfl⟩ := releaseStep_ok_cases h1
  obtain ⟨t2, h2, h⟩ := except_bind_eq_ok.mp h
  obtain ⟨rf, hrf, rfl⟩ := releaseStep_ok_cases h2
  cases h
  exact ⟨ra, rf, hra, hrf, rfl⟩

/-! ## exec, the port and the step -/

/-- Every command ends by a commit from the state it found. -/
theorem exec_is_commit (i : Instr) (s : State) : ∃ r, exec i s = commit i s r := by
  cases i <;> unfold exec
  case nop => unfold execNop; exact ⟨_, rfl⟩
  case wr => unfold execWr; exact ⟨_, rfl⟩
  case rd => unfold execRd; exact ⟨_, rfl⟩
  case oscReset => unfold execOscReset; exact ⟨_, rfl⟩
  case envReset => unfold execEnvReset; exact ⟨_, rfl⟩
  case voiceReset => unfold execVoiceReset; exact ⟨_, rfl⟩
  case oscNext => unfold execOscNext; exact ⟨_, rfl⟩
  case envNext => unfold execEnvNext; exact ⟨_, rfl⟩
  case voiceRender => unfold execVoiceRender; exact ⟨_, rfl⟩
  case envAttack => unfold execEnvAttack; exact ⟨_, rfl⟩
  case envRelease => unfold execEnvRelease; exact ⟨_, rfl⟩
  case voiceRelease => unfold execVoiceRelease; exact ⟨_, rfl⟩
  case envNudge => unfold execEnvNudge; exact ⟨_, rfl⟩
  case oscSquare => unfold execOscSquare; exact ⟨_, rfl⟩
  case voicePan => unfold execVoicePan; exact ⟨_, rfl⟩
  case voiceCtrl => unfold execVoiceCtrl; exact ⟨_, rfl⟩
  case voiceSetper => unfold execVoiceSetper; exact ⟨_, rfl⟩

/-- A command answers a next state: its copy, or the taken fault of the state it found. -/
theorem exec_next_cases {i : Instr} {s t : State} (h : exec i s = .next t) :
    (∃ r, exec i s = commit i s r ∧ r = .ok t) ∨ ∃ c, t = raiseFault c i.cmdWord s := by
  obtain ⟨r, hr⟩ := exec_is_commit i s
  rcases commit_cases (hr ▸ h) with rfl | ⟨c, rfl, ht⟩
  · exact .inl ⟨_, hr, rfl⟩
  · exact .inr ⟨c, ht⟩

theorem exec_answers_next (i : Instr) (s : State) : ∃ t, exec i s = .next t := by
  obtain ⟨r, hr⟩ := exec_is_commit i s
  rw [hr]
  exact commit_answers_next i s r

/-- A word runs the command it decodes to, or faults as illegal. -/
theorem runCommand_cases (w : CmdWord) (d : Word) (s : State) :
    (∃ i, decode w d = .ok i ∧ runCommand w d s = exec i s) ∨
    (∃ r, decode w d = .reject r ∧ runCommand w d s = .next (raiseFault .illegalCmd w s)) := by
  unfold runCommand
  cases h : decode w d with
  | ok i => exact .inl ⟨i, rfl, rfl⟩
  | reject r => exact .inr ⟨r, rfl, rfl⟩

/-- The phases of a step: reset; or a command at its response edge, or one edge passed, and then acceptance. -/
theorem step_cases (s : State) :
    (s.nextPins.rstN = false ∧ step s = .next (hardReset s.dropPins)) ∨
    (s.nextPins.rstN = true ∧ ∃ c, s.inflight = some c ∧ c.responds = true ∧
      step s = thenAccept s.nextPins (runCommand c.word c.data (takeInFlight s.dropPins))) ∨
    (s.nextPins.rstN = true ∧ (∀ c, s.inflight = some c → c.responds = false) ∧
      step s = .next (accept s.nextPins (waitEdge s.dropPins))) := by
  unfold step clockEdge
  rcases hr : s.nextPins.rstN with _ | _
  · exact .inl ⟨rfl, by simp⟩
  · right
    rcases hf : s.inflight with _ | c
    · exact .inr ⟨rfl, fun c hc => by simp at hc, by simp [responsePhase, hf, thenAccept]⟩
    · rcases hc : c.responds with _ | _
      · refine .inr ⟨rfl, fun d hd => ?_, by simp [responsePhase, hf, hc, thenAccept]⟩
        cases hd
        exact hc
      · exact .inl ⟨rfl, c, rfl, hc, by simp [responsePhase, hf, hc]⟩

end Sys2Proof.Machine
end

