-- ==== Sys2Proof/Laws/PerInstr.lean ====
section
/-! SUPPORT. Statements about every command as syntax, one lemma per constructor. -/

/-- The fields of a command word (30_encoding.md R62, R64): `OP` is below 0xC, `UNIT` is at most 4, `REG` is 0 outside
`WR` and `RD`, and the fields are read back from the word they make. -/
def Sys2Proof.Laws.CommandFields.Statement (i : Sys2Proof.Instr) : Prop :=
  i.op.toNat < 0xC ∧ i.unit.toNat ≤ 4 ∧ (i.op ≠ 1#4 → i.op ≠ 2#4 → i.reg = 0#8) ∧
  Sys2Proof.opField i.cmdWord = i.op ∧ Sys2Proof.unitField i.cmdWord = i.unit ∧
  Sys2Proof.regField i.cmdWord = i.reg

namespace Sys2Proof.Laws.CommandFields

/-- The fields are read back from any command word (R63). -/
theorem fields_of_cmdWord (i : Instr) :
    opField i.cmdWord = i.op ∧ unitField i.cmdWord = i.unit ∧ regField i.cmdWord = i.reg := by
  have key : ∀ (a b : BitVec 4) (c : BitVec 8), opField (a ++ b ++ c) = a ∧ unitField (a ++ b ++ c) = b ∧
      regField (a ++ b ++ c) = c := by
    intro a b c
    refine ⟨?_, ?_, ?_⟩ <;> apply BitVec.eq_of_getLsbD_eq <;> intro j hj
    · simp only [opField, BitVec.getLsbD_extractLsb', BitVec.getLsbD_append]
      rw [decide_eq_true hj, if_neg (by omega), if_neg (by omega)]
      simp only [Bool.true_and]
      congr 1
      omega
    · simp only [unitField, BitVec.getLsbD_extractLsb', BitVec.getLsbD_append]
      rw [decide_eq_true hj, if_neg (by omega), if_pos (by omega)]
      simp only [Bool.true_and]
      congr 1
      omega
    · simp only [regField, BitVec.getLsbD_extractLsb', BitVec.getLsbD_append]
      rw [decide_eq_true hj, if_pos (by omega)]
      simp
  exact key i.op i.unit i.reg

/-- The unit number of a register is at most 4 (R62). -/
theorem unit_le (r : Reg) : r.unit.toNat ≤ 4 := by
  cases r with
  | osc u _ => cases u <;> simp [Reg.unit, OscUnit.number]
  | env e _ => cases e <;> simp [Reg.unit, EnvUnit.number]
  | voice _ => simp [Reg.unit, voiceNumber]

theorem nop : Statement .nop := ⟨by decide, by decide, fun _ _ => rfl, fields_of_cmdWord _⟩
theorem wr (r : Reg) (v : Word) : Statement (.wr r v) :=
  ⟨(by decide : (1#4).toNat < 0xC), unit_le r, fun h _ => absurd rfl h, fields_of_cmdWord _⟩
theorem rd (r : Reg) : Statement (.rd r) :=
  ⟨(by decide : (2#4).toNat < 0xC), unit_le r, fun _ h => absurd rfl h, fields_of_cmdWord _⟩
theorem oscReset (o : OscUnit) : Statement (.oscReset o) := by
  cases o <;> exact ⟨by decide, by decide, fun _ _ => rfl, fields_of_cmdWord _⟩
theorem envReset (e : EnvUnit) : Statement (.envReset e) := by
  cases e <;> exact ⟨by decide, by decide, fun _ _ => rfl, fields_of_cmdWord _⟩
theorem voiceReset : Statement .voiceReset := ⟨by decide, by decide, fun _ _ => rfl, fields_of_cmdWord _⟩
theorem oscNext (o : OscUnit) : Statement (.oscNext o) := by
  cases o <;> exact ⟨by decide, by decide, fun _ _ => rfl, fields_of_cmdWord _⟩
theorem envNext (e : EnvUnit) : Statement (.envNext e) := by
  cases e <;> exact ⟨by decide, by decide, fun _ _ => rfl, fields_of_cmdWord _⟩
theorem voiceRender (n : Word) : Statement (.voiceRender n) :=
  ⟨(by decide : (4#4).toNat < 0xC), (by decide : (4#4).toNat ≤ 4), fun _ _ => rfl, fields_of_cmdWord _⟩
theorem envAttack (e : EnvUnit) : Statement (.envAttack e) := by
  cases e <;> exact ⟨by decide, by decide, fun _ _ => rfl, fields_of_cmdWord _⟩
theorem envRelease (e : EnvUnit) : Statement (.envRelease e) := by
  cases e <;> exact ⟨by decide, by decide, fun _ _ => rfl, fields_of_cmdWord _⟩
theorem voiceRelease : Statement .voiceRelease := ⟨by decide, by decide, fun _ _ => rfl, fields_of_cmdWord _⟩
theorem envNudge (e : EnvUnit) : Statement (.envNudge e) := by
  cases e <;> exact ⟨by decide, by decide, fun _ _ => rfl, fields_of_cmdWord _⟩
theorem oscSquare (o : OscUnit) (np : Word) : Statement (.oscSquare o np) := by
  cases o
  · exact ⟨(by decide : (8#4).toNat < 0xC), (by decide : (0#4).toNat ≤ 4), fun _ _ => rfl, fields_of_cmdWord _⟩
  · exact ⟨(by decide : (8#4).toNat < 0xC), (by decide : (1#4).toNat ≤ 4), fun _ _ => rfl, fields_of_cmdWord _⟩
theorem voicePan : Statement .voicePan := ⟨by decide, by decide, fun _ _ => rfl, fields_of_cmdWord _⟩
theorem voiceCtrl : Statement .voiceCtrl := ⟨by decide, by decide, fun _ _ => rfl, fields_of_cmdWord _⟩
theorem voiceSetper : Statement .voiceSetper := ⟨by decide, by decide, fun _ _ => rfl, fields_of_cmdWord _⟩

end Sys2Proof.Laws.CommandFields
end

