-- ==== Sys2Proof/Tests/Slice0.lean ====
section
/-! SUPPORT. Tests: the check of WellFormed, one word of every command written out from 30_encoding.md R62 to R69, single steps with the results of 95_test_vectors.md, and for every obligation with hypotheses a case that meets them. -/

namespace Sys2Proof.Tests

open Sys2Proof.Machine

/-! ## Small states -/

/-- An oscillator with `PERIOD` = 100 and `AMPL` = 1, just reset. -/
def osc100 : Osc := { Osc.afterReset with period := some 0x42C80000#32, ampl := some 0x3F800000#32 }

/-- An oscillator inside a cycle: `PHASE` 1.0, `INC` 1.0, `PHMAX` as given, rails 0. -/
def oscInside (phmax : Word) : Osc :=
  { osc100 with phase := 0x3F800000#32, inc := 0x3F800000#32, phmax := phmax }

/-- An envelope with its four parameters 0.5, and the level, target and multiplier given. -/
def envAt (level target mult : Word) : Env where
  attmul := some 0x3F000000#32
  decmul := some 0x3F000000#32
  suslvl := some 0x3F000000#32
  relmul := some 0x3F000000#32
  level := level
  target := target
  mult := mult

/-- The voice parameters of the example of 44_cutoff_modulator.md R150, with the Filter bypassed. -/
def voiceSet : Voice :=
  { Voice.afterReset with
    period := some 0x42C80000#32
    tperiod := some 0x43160000#32
    glide := some 0x3F000000#32
    cutoff := some 0x447A0000#32
    filtq := some 0x3F34FDF4#32
    fenvdepth := some 0#32
    filtmod := some 0#32
    pbend := some 0x3F800000#32
    detune := some 0x3F7D70A4#32
    ctrl := 1#32 }

/-- Every parameter set, nothing sounding. -/
def ready : State :=
  { State.reset with
    osc1 := osc100, osc2 := osc100, aenv := envAt 0#32 0#32 0#32, fenv := envAt 0#32 0#32 0#32, voice := voiceSet }

/-- `ready` with the `AENV` of vector E1, after its `ENV_ATTACK`. -/
def attacking : State := { ready with aenv := envAt 0x3951B717#32 0x40000000#32 0x3F000000#32 }

/-- The state a command leaves. -/
def after (i : Instr) (s : State) : State :=
  match exec i s with
  | .next t => t
  | .fault _ => s
  | .refused _ => s

/-- The response of a command. -/
def answer (i : Instr) (s : State) : Option Response := (after i s).rsp

/-- What a command word does from a state. -/
def runWord (w : CmdWord) (d : Word) (s : State) : State :=
  match runCommand w d s with
  | .next t => t
  | .fault _ => s
  | .refused _ => s

/-- A number as float arithmetic answers it without a NaN. -/
def ok1 (d0 : Word) : Option Response := some (okResponse d0 0#32 0#32)

/-! ## WellFormed: the check refuses a WR of a read-only register (R67 item 6) -/

theorem test_wellFormed_refuses_wr_of_phase : (Instr.wr (.osc .osc1 .phase) 0#32).wellFormed = false := by decide
theorem test_wellFormed_refuses_wr_of_status : (Instr.wr (.env .aenv .status) 0#32).wellFormed = false := by decide
theorem test_wellFormed_refuses_wr_of_fault : (Instr.wr (.voice .fault) 0#32).wellFormed = false := by decide
theorem test_wellFormed_accepts_wr_of_ctrl : (Instr.wr (.voice .ctrl) 0#32).wellFormed = true := by decide

/-! ## Decoding, each word written out as OP, UNIT, REG from R62 to R69 -/

theorem test_decode_nop : decode 0b0000_0000_00000000#16 0#32 = .ok .nop := by decide
theorem test_decode_wr : decode 0b0001_0100_00001010#16 5#32 = .ok (.wr (.voice .ctrl) 5#32) := by decide
theorem test_decode_rd : decode 0b0010_0010_00100000#16 0#32 = .ok (.rd (.env .aenv .status)) := by decide
theorem test_decode_oscReset : decode 0b0011_0001_00000000#16 0#32 = .ok (.oscReset .osc2) := by decide
theorem test_decode_envReset : decode 0b0011_0010_00000000#16 0#32 = .ok (.envReset .aenv) := by decide
theorem test_decode_voiceReset : decode 0b0011_0100_00000000#16 0#32 = .ok .voiceReset := by decide
theorem test_decode_oscNext : decode 0b0100_0000_00000000#16 0#32 = .ok (.oscNext .osc1) := by decide
theorem test_decode_envNext : decode 0b0100_0011_00000000#16 0#32 = .ok (.envNext .fenv) := by decide
theorem test_decode_voiceRender : decode 0b0100_0100_00000000#16 7#32 = .ok (.voiceRender 7#32) := by decide
theorem test_decode_envAttack : decode 0b0101_0010_00000000#16 0#32 = .ok (.envAttack .aenv) := by decide
theorem test_decode_envRelease : decode 0b0110_0011_00000000#16 0#32 = .ok (.envRelease .fenv) := by decide
theorem test_decode_voiceRelease : decode 0b0110_0100_00000000#16 0#32 = .ok .voiceRelease := by decide
theorem test_decode_envNudge : decode 0b0111_0011_00000000#16 0#32 = .ok (.envNudge .fenv) := by decide
theorem test_decode_oscSquare : decode 0b1000_0001_00000000#16 9#32 = .ok (.oscSquare .osc2 9#32) := by decide
theorem test_decode_voicePan : decode 0b1001_0100_00000000#16 0#32 = .ok .voicePan := by decide
theorem test_decode_voiceCtrl : decode 0b1010_0100_00000000#16 0#32 = .ok .voiceCtrl := by decide
theorem test_decode_voiceSetper : decode 0b1011_0100_00000000#16 0#32 = .ok .voiceSetper := by decide

/-- The words of vector X1, each with the item of R67 that makes it illegal. -/
theorem test_decode_illegal_words :
    decode 0xC000#16 0#32 = .reject .reservedOp ∧ decode 0xF000#16 0#32 = .reject .reservedOp ∧
    decode 0x3500#16 0#32 = .reject .reservedUnit ∧ decode 0x0100#16 0#32 = .reject .illegalPair ∧
    decode 0x5000#16 0#32 = .reject .illegalPair ∧ decode 0x8200#16 0#32 = .reject .illegalPair ∧
    decode 0xA300#16 0#32 = .reject .illegalPair ∧ decode 0x0001#16 0#32 = .reject .nonzeroReg ∧
    decode 0x3001#16 0#32 = .reject .nonzeroReg ∧ decode 0x2018#16 0#32 = .reject .noRegister ∧
    decode 0x2423#16 0#32 = .reject .noRegister ∧ decode 0x1010#16 0#32 = .reject .readOnly ∧
    decode 0x1420#16 0#32 = .reject .readOnly ∧ decode 0x140B#16 0#32 = .reject .noRegister := by decide

/-- A word of the table and the step that runs it right after reset (X2: `RD VOICE.PANL`). -/
theorem test_withFetchWord_runs_the_word :
    decodeTableWord 16 0x2411 = some (.rd (.voice .panl)) ∧
    (match step (State.reset.withFetchWord 16 0x2411) with
      | .next t => t.rsp
      | .fault _ => none
      | .refused _ => none) = ok1 0x3F34FDF4#32 := by decide

/-! ## One step of each command, with the results of 95_test_vectors.md -/

/-- X4: a `NOP` with any data word changes nothing. -/
theorem test_nop : answer .nop ready = ok1 0#32 ∧ (after .nop ready).voice = ready.voice := by decide
/-- X4: `CTRL` keeps bit 0 of the word. -/
theorem test_wr_ctrl : (runWord 0x140A#16 0xFFFFFFFF#32 State.reset).voice.ctrl = 1#32 := by decide
/-- X4: a NaN is stored as it is. -/
theorem test_wr_nan : (runWord 0x1000#16 0x7FC00001#32 State.reset).osc1.period = some 0x7FC00001#32 := by decide
/-- X2: `PMOD` after reset. -/
theorem test_rd_pmod : (runWord 0x2002#16 0#32 State.reset).rsp = ok1 0x3F800000#32 := by decide
/-- X3: an UNSET read, its record and `VSTATUS`. -/
theorem test_rd_unset :
    (runWord 0x2416#16 0#32 State.reset).voice.fault = 2#32 ∧
    (runWord 0x2416#16 0#32 State.reset).voice.fcmd = 0x2416#32 ∧
    (runWord 0x2422#16 0#32 (runWord 0x2416#16 0#32 State.reset)).rsp = ok1 0x20#32 := by decide
/-- F1: the first fault is kept, the second is reported. -/
theorem test_first_fault_kept :
    (runWord 0xC000#16 0#32 (runWord 0x2416#16 0#32 State.reset)).voice.fault = 2#32 ∧
    (runWord 0xC000#16 0#32 (runWord 0x2416#16 0#32 State.reset)).rsp = some (faultResponse .illegalCmd) := by decide

/-- O13: `OSC_RESET` keeps the parameters. -/
theorem test_oscReset :
    (after (.oscReset .osc1) { ready with osc1 := oscInside 0#32 }).osc1 = osc100 := by decide
/-- O1: the first sample and the registers that no sine reaches. -/
theorem test_oscNext_cycle_start :
    answer (.oscNext .osc1) ready = ok1 0x3F7D6A05#32 ∧
    (after (.oscNext .osc1) ready).osc1.phase = 0x80000000#32 ∧
    (after (.oscNext .osc1) ready).osc1.phmax = 0x431B8243#32 ∧
    (after (.oscNext .osc1) ready).osc1.inc = 0x40470D23#32 ∧
    (after (.oscNext .osc1) ready).osc1.dc = 0x3C257EB5#32 := by decide +kernel
/-- F3: `PMOD_NONPOS` comes before `OSC_DEGENERATE`; O11: the last period that is degenerate. -/
theorem test_oscNext_faults :
    answer (.oscNext .osc1) { ready with osc1 := { osc100 with period := some 0x3F000000#32, pmod := 0#32 } } =
      some (faultResponse .pmodNonpos) ∧
    answer (.oscNext .osc1) { ready with osc1 := { osc100 with period := some 0x3F7FFFFE#32 } } =
      some (faultResponse .oscDegenerate) ∧
    answer (.oscNext .osc2) State.reset = some (faultResponse .unsetOperand) := by decide +kernel
/-- O6: `OSC_SQUARE` with an idle reference. -/
theorem test_oscSquare_idle :
    (after (.oscSquare .osc2 0x42C80000#32) ready).osc2.phase = 0x4319F024#32 ∧
    (after (.oscSquare .osc2 0x42C80000#32) ready).osc2.phmax = 0x4319F024#32 ∧
    (after (.oscSquare .osc2 0x42C80000#32) ready).osc2.inc = 0x40490FDB#32 := by decide
/-- O6, the next sample of the locked oscillator: it reflects at once. -/
theorem test_oscNext_reflects :
    answer (.oscNext .osc2) (after (.oscSquare .osc2 0x42C80000#32) ready) = ok1 0#32 ∧
    (after (.oscNext .osc2) (after (.oscSquare .osc2 0x42C80000#32) ready)).osc2.phase = 0x4316CBE5#32 ∧
    (after (.oscNext .osc2) (after (.oscSquare .osc2 0x42C80000#32) ready)).osc2.inc = 0xC0490FDB#32 := by decide
/-- O7: `OSC_SQUARE` with a rising reference. -/
theorem test_oscSquare_rising :
    (after (.oscSquare .osc2 0x42C80000#32)
      { ready with osc1 :=
          { osc100 with phase := 0x41DFEEC6#32, phmax := 0x431B8243#32, inc := 0x40470D23#32 } }).osc2.phase =
      0x43DC0D88#32 ∧
    (after (.oscSquare .osc2 0x42C80000#32)
      { ready with osc1 :=
          { osc100 with phase := 0x41DFEEC6#32, phmax := 0x431B8243#32, inc := 0x40470D23#32 } }).osc2.inc =
      0xC0470D23#32 := by decide

/-- E6: `ENV_RESET` keeps the parameters. -/
theorem test_envReset : (after (.envReset .aenv) attacking).aenv = envAt 0#32 0#32 0#32 := by decide
/-- E1: an attack from reset. -/
theorem test_envAttack :
    (after (.envAttack .aenv) ready).aenv = envAt 0x3951B717#32 0x40000000#32 0x3F000000#32 := by decide +kernel
/-- E2: the first step, which switches. -/
theorem test_envNext_switches :
    answer (.envNext .aenv) attacking = ok1 0x3F800347#32 ∧
    (after (.envNext .aenv) attacking).aenv = envAt 0x3F800347#32 0x3F000000#32 0x3F000000#32 := by decide +kernel
/-- E3: a decay step. -/
theorem test_envNext_decays :
    answer (.envNext .aenv) { ready with aenv := envAt 0x3F800347#32 0x3F000000#32 0x3F000000#32 } =
      ok1 0x3F400347#32 := by decide +kernel
/-- E4: a release. -/
theorem test_envRelease :
    (after (.envRelease .aenv) { ready with aenv := envAt 0x3F2001A4#32 0x3F000000#32 0x3F000000#32 }).aenv =
      envAt 0x3F2001A4#32 0#32 0x3F000000#32 := by decide
/-- E8: a nudge of 0.5. -/
theorem test_envNudge :
    (after (.envNudge .fenv) { ready with fenv := envAt 0x3F000000#32 0#32 0#32 }).fenv =
      envAt 0x3F000D1B#32 0#32 0#32 := by decide +kernel
/-- E15: `ACTIVE` at and just above `SILENCE`. -/
theorem test_status_at_silence :
    (envAt 0x38D1B717#32 0#32 0#32).status = 0#32 ∧ (envAt 0x38D1B718#32 0#32 0#32).status = 1#32 := by decide

/-- V1: what `VOICE_RESET` clears and keeps. -/
theorem test_voiceReset :
    (after .voiceReset { attacking with voice := { voiceSet with note := 84#32, panl := 0#32 } }).voice = voiceSet ∧
    (after .voiceReset attacking).aenv = envAt 0#32 0#32 0#32 := by decide
/-- V3: the render after V2, with noise 0.25. -/
theorem test_voiceRender :
    answer (.voiceRender 0x3E800000#32)
      { ready with
        osc1 := oscInside 0x40000000#32, osc2 := oscInside 0x40000000#32
        aenv := envAt 0x3F800347#32 0x3F000000#32 0x3F000000#32 } =
      some (okResponse 0x3E400347#32 0x3E07C0C8#32 0x3E07C0C8#32) := by decide +kernel
/-- V8: the filtered render with no coefficients. -/
theorem test_voiceRender_unset_filter :
    answer (.voiceRender 0#32) { ready with voice := { voiceSet with ctrl := 0#32 } } =
      some (faultResponse .unsetOperand) := by decide +kernel
/-- V6: both envelopes, or with one `RELMUL` UNSET neither. -/
theorem test_voiceRelease :
    (after .voiceRelease attacking).aenv = envAt 0x3951B717#32 0#32 0x3F000000#32 ∧
    (after .voiceRelease { attacking with fenv := Env.afterReset }).aenv = attacking.aenv := by decide
/-- V5: the arguments of the sine at notes 36 and 84 are PI/2 and +0.0. -/
theorem test_voicePan :
    (after .voicePan { ready with voice := { voiceSet with note := 36#32 } }).voice.panl = Config.sin32 0x3FC90FDB#32 ∧
    (after .voicePan { ready with voice := { voiceSet with note := 84#32 } }).voice.panl = Config.sin32 0#32 :=
  ⟨congrArg Config.sin32 (a₁ := fmul 3 Config.piOver4 (fsub 2 Config.one (panOf 0 36#32))) (by decide +kernel),
    congrArg Config.sin32 (a₁ := fmul 3 Config.piOver4 (fsub 2 Config.one (panOf 0 84#32))) (by decide +kernel)⟩
/-- V7: the periods at a detune of 0.99. -/
theorem test_voiceSetper :
    (after .voiceSetper ready).osc1.period = some 0x42C80000#32 ∧
    (after .voiceSetper ready).osc2.period = some 0x42C60000#32 := by decide
/-- V9: the glide of the example, and the coefficients set. -/
theorem test_voiceCtrl :
    (after .voiceCtrl ready).voice.period = some 0x42FA0000#32 ∧ (after .voiceCtrl ready).fcoef = true := by decide
/-- V26: `FILTQ` UNSET discards the glide. -/
theorem test_voiceCtrl_unset :
    (after .voiceCtrl { ready with voice := { voiceSet with filtq := none } }).voice.period =
      some 0x42C80000#32 := by decide

/-- R9, R13: a tie of the sum goes to even (E7), and `toF32` of a number past 2^24. -/
theorem test_rounding_ties_to_even :
    fadd 0 0x3F800001#32 0x40000000#32 = 0x40400000#32 ∧ fadd 0 0x3F800002#32 0x40000000#32 = 0x40400001#32 ∧
    toF32 16777217#32 = 0x4B800000#32 ∧ toF32 0xFFFFFFFF#32 = 0xBF800000#32 := by decide
/-- R11: `floor32` of -2.5, 50.5 and -0.0. -/
theorem test_floor :
    ffloor 0xC0200000#32 = 0xC0400000#32 ∧ ffloor 0x424A0000#32 = 0x42480000#32 ∧
    ffloor 0x80000000#32 = 0x80000000#32 := by decide
/-- V15: the clamp of +∞; R12: a NaN comes back unchanged. -/
theorem test_clamp :
    clampCutoff 0x7F800000#32 = 0x469C4000#32 ∧ clampCutoff 0x7FC00001#32 = 0x7FC00001#32 := by decide
/-- R71: `SET_NOTE` is a `WR` of `NOTE` and a `VOICE_PAN`; R70: a line of the listing. -/
theorem test_assembly :
    setNote 60#32 = [.wr (.voice .note) 60#32, .voicePan] ∧
    asmLine (.wr (.osc .osc1 .period) 0x42C80000#32) = "WR OSC1.PERIOD, 0x42C80000" := by decide
/-- R32: the four stages and the targets of no stage. -/
theorem test_stage :
    (envAt 0#32 0x40000000#32 0#32).stage = some .attack ∧ (envAt 0#32 0x3F000000#32 0#32).stage = some .decaySustain ∧
    (envAt 0x3F000000#32 0#32 0#32).stage = some .release ∧ (envAt 0#32 0x80000000#32 0#32).stage = some .idle ∧
    (envAt 0#32 0xBF800000#32 0#32).stage = none := by decide
/-- R177: one instance steps, its neighbour stays. -/
theorem test_instances :
    (match stepInstance 1 [ready, State.reset.withFetchWord 16 0x2411] with
      | .next sys => sys.map (fun t => t.rsp.isSome)
      | .fault _ => []
      | .refused _ => []) = [false, true] := by decide

/-! ## Witnesses: a case that meets the hypotheses of each obligation -/

theorem test_witness_DecodeOfEncodeIsTheCommand :
    (Instr.wr (.voice .detune) 0xFFFFFFFF#32).wellFormed = true ∧ Instr.voiceSetper.wellFormed = true ∧
    usesData .voiceSetper = false := by decide

theorem test_witness_EncodeOfDecodeIsTheWord :
    decode 0x4400#16 0xFFFFFFFF#32 = .ok (.voiceRender 0xFFFFFFFF#32) ∧ usesData (.voiceRender 0xFFFFFFFF#32) = true := by
  decide

theorem test_witness_IllegalWordOnlyFaults : legalWord 0xFFFF#16 = false ∧ legalWord 0x140B#16 = false := by decide

theorem test_witness_FaultingCommandIsPrecise :
    ∃ (t : State) (r : Response), exec (.rd (.voice .modcut)) ready = .next t ∧ t.rsp = some r ∧ r.fault = true :=
  ⟨_, _, rfl, rfl, rfl⟩

/-- A state with a fault recorded. -/
def faulted : State := { ready with voice := { voiceSet with fault := 2#32, fcmd := 0x2416#32 } }

theorem test_witness_FaultRecordIsSticky :
    ∃ t, step faulted = .next t ∧ faulted.nextPins.rstN = true ∧ faulted.voice.cause ≠ 0#4 :=
  ⟨_, rfl, rfl, by decide⟩

theorem test_witness_RunRecordsItsFirstFault :
    ready.voice.cause = 0#4 ∧
    (∃ t, runCommands [(0x2017#16, 0#32), (0x2416#16, 0#32), (0xC000#16, 0#32)] ready = .next t) ∧
    runFaults [(0x2017#16, 0#32), (0x2416#16, 0#32), (0xC000#16, 0#32)] ready =
      [(2#4, 0x2416#16), (1#4, 0xC000#16)] ∧
    safeRun [(0x2017#16, 0#32), (0x0000#16, 0#32)] ready :=
  ⟨by decide, ⟨_, rfl⟩, by decide, by unfold safeRun; decide⟩

theorem test_witness_FaultRecordSteersNothing :
    readsRecord (.rd (.voice .modcut)) = false ∧ readsRecord .voiceCtrl = false := by decide

theorem test_witness_StepKeepsTheInvariant : ready.Inv ∧ ∃ t, step ready = .next t := by
  refine ⟨?_, _, rfl⟩
  constructor <;> first | (intro x hx; cases hx) | decide

theorem test_witness_StepRunsTheDecodedCommand :
    ({ ready with inflight := some { word := 0xB400#16, data := 0#32, left := 1 } } : State).nextPins.rstN = true ∧
    decode 0xB400#16 0#32 = .ok .voiceSetper ∧ decodeTableWord 16 0xB400 = some .voiceSetper := by decide +kernel

theorem test_witness_CommandRespondsAfterItsLatency :
    ∃ (s : State) (w : CmdWord) (d : Word) (ps : List Pins) (last : Pins), s.inflight = none ∧
      s.pins = { rstN := true, cmdValid := true, cmdWord := w, cmdData := d } :: (ps ++ []) ∧
      ps.length = Config.cmdLatency ∧ (∀ p ∈ ps, p.rstN = true) ∧ ps.getLast? = some last := by
  refine ⟨{ ready with pins := { rstN := true, cmdValid := true, cmdWord := 0xB400#16, cmdData := 0#32 } ::
    (List.replicate Config.cmdLatency Pins.idle ++ []) }, 0xB400#16, 0#32,
    List.replicate Config.cmdLatency Pins.idle, Pins.idle, rfl, rfl, by simp, ?_, ?_⟩
  · intro p hp
    rw [List.eq_of_mem_replicate hp]
    rfl
  · simp [List.getLast?_replicate, Config.cmdLatency]

theorem test_witness_NothingAcceptedInFlight :
    ∃ c, ({ ready with inflight := some { word := 0#16, data := 0#32, left := 2 } } : State).inflight = some c ∧
      2 ≤ c.left ∧ ready.nextPins.rstN = true := ⟨_, rfl, by decide, by decide⟩

/-- A host that resets the block at the coming edge, with a command in flight. -/
def resetting : State :=
  { attacking with
    inflight := some { word := 0xB400#16, data := 0#32, left := 1 }
    pins := [{ Pins.idle with rstN := false }] }

theorem test_witness_HardwareResetState :
    ∃ t, resetting.nextPins.rstN = false ∧ step resetting = .next t := ⟨_, rfl, rfl⟩

theorem test_witness_ResetAbandonsTheCommandInFlight :
    ∃ (c : InFlight) (t : State), resetting.inflight = some c ∧ resetting.nextPins.rstN = false ∧
      step resetting = .next t := ⟨_, _, rfl, rfl, rfl⟩

theorem test_witness_CommandsWriteOnlyWhatTheirRuleNames :
    ∃ (t : State) (r : Response), exec .voiceSetper ready = .next t ∧ t.rsp = some r ∧ r.fault = false ∧
      writes .voiceSetper (.voice .fault) = false ∧ actsOnFilter .voiceSetper = false ∧ Instr.voiceSetper ≠ .voiceCtrl :=
  ⟨_, _, rfl, rfl, rfl, by decide, by decide, by decide⟩

theorem test_witness_SetFlagsChangeOnlyWhereNamed :
    ∃ t, exec (.wr (.osc .osc1 .period) 1#32) State.reset = .next t ∧
      State.reset.regRead (.osc .osc1 .period) = none ∧ t.regRead (.osc .osc1 .period) ≠ none ∧
      (State.reset.regRead (.osc .osc1 .pmod)).isSome = true := ⟨_, rfl, by decide, by decide, by decide⟩

theorem test_witness_FcoefIsSetByVoiceCtrlOnly :
    (∃ t r, exec .voiceCtrl ready = .next t ∧ t.rsp = some r ∧ r.fault = false) ∧
    State.reset.voice.ctrl.getLsbD 0 = false ∧ State.reset.fcoef = false ∧
    oscReady ready.nanDraws ready.osc1 = true ∧ oscReady (ready.nanDraws + 16) ready.osc2 = true :=
  ⟨⟨_, _, rfl, rfl, rfl⟩, by decide, by decide, by decide, by decide⟩

theorem test_witness_NopDoesNothing : opField 0x0FFF#16 = 0#4 ∧ (0x0FFF#16 : CmdWord) ≠ 0#16 := by decide

theorem test_witness_WrStoresTheWord :
    Reg.writable (.voice .ctrl) = true ∧ Reg.writable (.osc .osc2 .pmod) = true ∧
    (Reg.voice .ctrl) ≠ .osc .osc2 .pmod := by decide

theorem test_witness_WrOfReadOnlyRegisterFaults : Reg.writable (.voice .vstatus) = false := by decide

theorem test_witness_RdAnswersTheRegister :
    ready.regRead (.voice .detune) = some 0x3F7D70A4#32 ∧ ready.regRead (.voice .modcut) = none := by decide

theorem test_witness_StatusWordIsComputed :
    ({ ready with aenv := envAt 0x7FC00000#32 0xFF800001#32 0#32 } : State).regRead (.env .aenv .status) = some 0#32 ∧
    isNaN (({ ready with aenv := envAt 0x7FC00000#32 0xFF800001#32 0#32 } : State).env .aenv).level = true ∧
    isNaN (({ ready with aenv := envAt 0x7FC00000#32 0xFF800001#32 0#32 } : State).env .aenv).target = true := by decide

theorem test_witness_OscillatorResetsKeepParameters :
    Instr.oscReset .osc1 ∈ [Instr.oscReset .osc1, .voiceReset] ∧ oscContinuous .out = true ∧
    oscContinuous .pmod = false := by decide

/-- At the smallest period a cycle start accepts (O11). -/
theorem test_witness_OscNextStartsACycle :
    let o : Osc := { osc100 with period := some 0x3F7FFFFF#32 }
    let hp := fmul 2 (fdiv 1 0x3F7FFFFF#32 0x40000000#32) o.pmod
    fle (fadd 0 o.phase o.inc) Config.piOver4 = true ∧ fgt o.pmod 0#32 = true ∧
      fgt (fsub 4 (ffloor (fadd 3 0x3F000000#32 hp)) 0x3F000000#32) 0#32 = true ∧ isFinite hp = true := by decide

/-- Inside a cycle, with and without the reflection. -/
theorem test_witness_OscNextInsideACycle :
    fle (fadd 0 (oscInside 0x40000000#32).phase (oscInside 0x40000000#32).inc) Config.piOver4 = false ∧
    fgt (fadd 0 (oscInside 0x40000000#32).phase (oscInside 0x40000000#32).inc) 0x40000000#32 = false ∧
    fgt (fadd 0 (oscInside 0x3FC00000#32).phase (oscInside 0x3FC00000#32).inc) 0x3FC00000#32 = true := by decide

theorem test_witness_OscNextFaultsInOrder :
    fle (fadd 0 osc100.phase osc100.inc) Config.piOver4 = true ∧ State.reset.osc1.period = none ∧
    fgt (0x80000000#32 : Word) 0#32 = false ∧ fgt osc100.pmod 0#32 = true ∧
    parametersGood 0 (some 0x3F7FFFFE#32) osc100.ampl osc100.pmod = false := by decide +kernel

theorem test_witness_PeriodThresholdAtUnitModulation :
    parametersGood 0 (some 0x3F7FFFFF#32) (some 0#32) 0x3F800000#32 = true ∧
    parametersGood 0 (some 0x3F7FFFFE#32) (some 0#32) 0x3F800000#32 = false := by decide

/-- A period of 6 and `PMOD` = 0.01 keep the duties of R182, and the cycle start faults all the same. -/
theorem test_witness_HostDutiesExcludeOscillatorFaults :
    isFinite 0x40C00000#32 = true ∧ fle 0x40C00000#32 0x40C00000#32 = true ∧ fgt 0x3C23D70A#32 0#32 = true ∧
    answer (.oscNext .osc1) { ready with osc1 := { osc100 with period := some 0x40C00000#32, pmod := 0x3C23D70A#32 } } =
      some (faultResponse .oscDegenerate) := by decide +kernel

theorem test_witness_InCycleSampleIgnoresParameters :
    fle (fadd ready.nanDraws (oscInside 0x40000000#32).phase (oscInside 0x40000000#32).inc) Config.piOver4 = false := by
  decide

/-- References that rise, fall and idle. -/
theorem test_witness_OscSquareLocksToTheOther :
    fgt 0x3F800000#32 0#32 = true ∧ (fgt 0xBF800000#32 0#32 = false ∧ flt 0xBF800000#32 0#32 = true) ∧
    (fgt 0x80000000#32 0#32 = false ∧ flt 0x80000000#32 0#32 = false) ∧
    (fgt 0x7FC00000#32 0#32 = false ∧ flt 0x7FC00000#32 0#32 = false) := by decide

theorem test_witness_EnvResetForcesSilence :
    (ready.env .aenv).level = 0#32 ∧ (ready.env .aenv).target = 0#32 ∧ (ready.env .aenv).mult = 0#32 := by decide

theorem test_witness_EnvelopeResetsKeepParameters :
    Instr.voiceReset ∈ [Instr.envReset .fenv, .voiceReset] ∧ EnvReg.writable .status = false ∧
    EnvReg.writable .relmul = true := by decide

/-- The switch (E2), a step with no switch (E13), and the switch with `DECMUL` UNSET (E13). -/
theorem test_witness_EnvNextStepsAndSwitches :
    attackEnds 0 attacking.aenv = true ∧ attackEnds 0 ready.aenv = false ∧
    ({ attacking.aenv with decmul := none } : Env).decmul = none ∧
    attackEnds 0 { attacking.aenv with decmul := none } = true := by decide

theorem test_witness_EnvAttackStartsTheAttack :
    (ready.env .fenv).attmul = some 0x3F000000#32 ∧ (State.reset.env .fenv).attmul = none := by decide

theorem test_witness_EnvReleaseStartsTheRelease :
    (ready.env .fenv).relmul = some 0x3F000000#32 ∧ (State.reset.env .fenv).relmul = none := by decide

theorem test_witness_IdleEnvelopeFallsToZero :
    isFinite (envAt 0xFF7FFFFF#32 0#32 0#32).level = true ∧ (envAt 0xFF7FFFFF#32 0#32 0#32).target = 0#32 ∧
    (envAt 0xFF7FFFFF#32 0#32 0#32).mult = 0#32 := by decide

/-- Both sides of the threshold (E7). -/
theorem test_witness_AttackExitThreshold :
    isNaN 0x3F800002#32 = false ∧ fgt (fadd 0 0x3F800002#32 0x40000000#32) 0x40400000#32 = true ∧
    fgt (fadd 0 0x3F800001#32 0x40000000#32) 0x40400000#32 = false := by decide

theorem test_witness_EnvelopeLatchPoints :
    attackEnds ready.nanDraws (ready.env .aenv) = false ∧ (ready.env .aenv).attmul.isSome = true ∧
    (ready.env .aenv).relmul.isSome = true := by decide

theorem test_witness_VoiceRenderComposesItsSteps :
    oscReady ready.nanDraws ready.osc1 = true ∧ oscReady (ready.nanDraws + 16) ready.osc2 = true ∧
    ready.voice.ctrl.getLsbD 0 = true ∧ envReady (ready.nanDraws + 39) ready.aenv = true := by decide +kernel

theorem test_witness_VoiceRenderFaultsInOrder :
    oscReady 0 State.reset.osc1 = false ∧ oscReady 16 State.reset.osc2 = false ∧ oscReady 0 ready.osc1 = true ∧
    oscReady 16 ready.osc2 = true ∧ State.reset.voice.ctrl.getLsbD 0 = false ∧ State.reset.fcoef = false ∧
    ready.voice.ctrl.getLsbD 0 = true ∧ envReady 39 { attacking.aenv with suslvl := none } = false := by decide +kernel

theorem test_witness_NoiseDoesNotReachTheIntegrator :
    ∃ t t', exec (.voiceRender 0#32) ready = .next t ∧ exec (.voiceRender 0x3F800000#32) ready = .next t' :=
  have ⟨t, ht⟩ := exec_answers_next (.voiceRender 0#32) ready
  have ⟨t', ht'⟩ := exec_answers_next (.voiceRender 0x3F800000#32) ready
  ⟨t, t', ht, ht'⟩

theorem test_witness_VoiceReleaseReleasesBothEnvelopes :
    ready.aenv.relmul = some 0x3F000000#32 ∧ ready.fenv.relmul = some 0x3F000000#32 ∧
    State.reset.fenv.relmul = none := by decide

/-- Notes at the edges of the pan range, and the sentinel, which is negative. -/
theorem test_witness_PanExtremesAndCentre :
    (36#32 : Word).toInt ≤ 36 ∧ 84 ≤ (84#32 : Word).toInt ∧ (60#32 : Word).toInt = 60 ∧
    (0x80000000#32 : Word).toInt ≤ 36 ∧ 84 ≤ (0x7FFFFFFF#32 : Word).toInt ∧
    ({ voiceSet with note := Config.sustain } : Voice).note = Config.sustain :=
  ⟨by decide, by decide, by decide, by decide, by decide, rfl⟩

theorem test_witness_VoiceSetperRefreshesThePeriods :
    ready.voice.period = some 0x42C80000#32 ∧ ready.voice.pbend = some 0x3F800000#32 ∧
    ready.voice.detune = some 0x3F7D70A4#32 ∧ State.reset.voice.detune = none := by decide

theorem test_witness_VoiceCtrlCompletes :
    ready.voice.glide = some 0x3F000000#32 ∧ ready.voice.tperiod = some 0x43160000#32 ∧
    ready.voice.period = some 0x42C80000#32 ∧ envReady (ready.nanDraws + 7) ready.fenv = true ∧
    ready.voice.cutoff = some 0x447A0000#32 ∧ ready.voice.filtmod = some 0#32 ∧
    ready.voice.fenvdepth = some 0#32 ∧ ready.voice.pbend = some 0x3F800000#32 ∧
    ready.voice.filtq = some 0x3F34FDF4#32 := by decide

/-- Each way to fault alone: an UNSET operand, or an attack to end with `DECMUL` UNSET. -/
theorem test_witness_VoiceCtrlFaultsOnUnsetOperands :
    State.reset.voice.glide = none ∧ State.reset.voice.filtq = none ∧
    envReady 7 { attacking.aenv with decmul := none } = false := by decide

theorem test_witness_CutoffStaysInItsRange :
    (∃ t r, exec .voiceCtrl ready = .next t ∧ t.rsp = some r ∧ r.fault = false) ∧
    (∃ t r, exec .voiceCtrl State.reset = .next t ∧ t.rsp = some r ∧ r.fault = true) ∧
    ready.voice.modcut = none := ⟨⟨_, _, rfl, rfl, rfl⟩, ⟨_, _, rfl, rfl, rfl⟩, by decide⟩

/-- Finite operands at the ends of the range, and a divisor that is no zero. -/
theorem test_witness_ArithmeticRoundsOnceToNearestEven :
    isFinite 0x7F7FFFFF#32 = true ∧ isFinite 0x80000001#32 = true ∧ isZero (flush 0x00800000#32) = false := by decide

/-- The classes of operands: NaN, both infinities, the largest finite number, both zeros, the smallest normal, a subnormal. -/
theorem test_witness_ArithmeticOfSpecialValues :
    isNaN 0x7F800001#32 = true ∧ isInf 0xFF800000#32 = true ∧ isInf 0x7F800000#32 = true ∧
    isFinite 0x7F7FFFFF#32 = true ∧ isZero (flush 0x80000000#32) = true ∧ isZero (flush 0x00800000#32) = false ∧
    val (flush 0x3F800000#32) + val (flush 0xBF800000#32) = 0 ∧
    val (flush 0x80000000#32) - val (flush 0#32) = 0 ∧
    isNaN (fdiv 0 0#32 0#32) = true ∧ isSubnormal 0x007FFFFF#32 = true ∧ isSubnormal 0x00800000#32 = false :=
  ⟨by decide, by decide, by decide, by decide, by decide, by decide, by decide, by decide, isNaN_nanResult 0,
    by decide, by decide⟩

/-- IEEE 754 on infinities and zeros: (-∞)·(-2), 2·(-∞), 1-∞, (-2)/∞, (-0)/2, (-0)-0, 1-1. -/
theorem test_infinities_and_zeros :
    fmul 0 0xFF800000#32 0xC0000000#32 = 0x7F800000#32 ∧ fmul 0 0x40000000#32 0xFF800000#32 = 0xFF800000#32 ∧
    fsub 0 0x3F800000#32 0x7F800000#32 = 0xFF800000#32 ∧ fdiv 0 0xC0000000#32 0x7F800000#32 = 0x80000000#32 ∧
    fdiv 0 0x80000000#32 0x40000000#32 = 0x80000000#32 ∧ fsub 0 0x80000000#32 0#32 = 0x80000000#32 ∧
    fsub 0 0x3F800000#32 0x3F800000#32 = 0#32 := by decide

/-- A NaN, finite numbers, infinities, and the clamp below, at, between and above its bounds. -/
theorem test_witness_ComparisonsAreOrdered :
    isNaN 0x7F800001#32 = true ∧ isFinite 0x7F7FFFFF#32 = true ∧ isInf 0xFF800000#32 = true ∧
    fle 0x41F00000#32 0x469C4000#32 = true ∧ flt 0x41EFFFFF#32 0x41F00000#32 = true ∧
    flt 0x41F00000#32 0x41F00000#32 = false ∧ flt 0x469C4000#32 0x469C4001#32 = true ∧
    flt 0x469C4000#32 0x469C4000#32 = false := by decide

theorem test_witness_FloorIsExact :
    isNaN 0x7F800001#32 = true ∧ isInf 0xFF800000#32 = true ∧ isZero 0x80000000#32 = true ∧
    isFinite 0x807FFFFF#32 = true := by decide

theorem test_witness_IntegerConversionIsExact :
    (0x01000000#32 : Word).toInt.natAbs ≤ 2 ^ 24 ∧ (0xFF000000#32 : Word).toInt.natAbs ≤ 2 ^ 24 := by decide

end Sys2Proof.Tests
end

namespace Sys2Proof.Machine

/-! # Arithmetic (00_scope.md R9 to R13)

## The classes of words (R12), and what flushing and sign inversion keep of them -/

theorem isNaN_of_isFinite {w : Word} (h : isFinite w = true) : isNaN w = false := by
  simp only [isFinite, isNaN, decide_eq_true_eq, decide_eq_false_iff_not] at *
  omega

theorem isInf_of_isFinite {w : Word} (h : isFinite w = true) : isInf w = false := by
  simp only [isFinite, isInf, decide_eq_true_eq, beq_eq_false_iff_ne] at *
  omega

theorem isNaN_of_isInf {w : Word} (h : isInf w = true) : isNaN w = false := by
  simp only [isInf, isNaN, beq_iff_eq, decide_eq_false_iff_not] at *
  omega

theorem isFinite_of_isZero {w : Word} (h : isZero w = true) : isFinite w = true := by
  simp only [isZero, isFinite, beq_iff_eq, decide_eq_true_eq] at *
  rw [h]
  decide

theorem isZero_of_isInf {w : Word} (h : isInf w = true) : isZero w = false := by
  rw [isZero, beq_iff_eq.mp h]
  rfl

theorem flush_of_isZero {w : Word} (h : isZero w = true) : flush w = w := by
  apply flush_of_not_subnormal
  have h : magBits w = 0 := by simpa [isZero] using h
  simp [isSubnormal, h]

/-- R10: without a subnormal operand, and without `ftz`, nothing is flushed. -/
theorem flush_self {w : Word} (h : isSubnormal w = false ∨ Config.ftz = false) : flush w = w := by
  rcases h with h | h
  · exact flush_of_not_subnormal h
  · simp [flush, h]

/-- R10: under `ftz` a subnormal is a zero of its sign. -/
theorem flush_of_ftz {w : Word} (h : isSubnormal w = true) (hf : Config.ftz = true) : flush w = pack (signBit w) 0 := by
  simp [flush, h, hf]

@[simp] theorem isInf_flush (w : Word) : isInf (flush w) = isInf w := by
  rw [Bool.eq_iff_iff]
  simp only [isInf, magBits_flush, beq_iff_eq, flushedMag, infBits]
  split <;> omega

@[simp] theorem isNaN_flipSign (w : Word) : isNaN (flipSign w) = isNaN w := by simp [isNaN]
@[simp] theorem isInf_flipSign (w : Word) : isInf (flipSign w) = isInf w := by simp [isInf]
@[simp] theorem isFinite_flipSign (w : Word) : isFinite (flipSign w) = isFinite w := by simp [isFinite]

theorem flipSign_eq_pack_of_isInf {w : Word} (h : isInf w = true) : flipSign w = pack (!signBit w) infBits := by
  rw [← pack_self (flipSign w), signBit_flipSign, magBits_flipSign, beq_iff_eq.mp h]

/-! ## The words of zeros, and what rounds to them -/

theorem pack_zero (s : Bool) : pack s 0 = if s then 0x80000000#32 else 0#32 := by cases s <;> rfl

theorem flipSign_pack_zero (s : Bool) : flipSign (pack s 0) = if s then 0#32 else 0x80000000#32 := by cases s <;> rfl

@[simp] theorem flush_pack_zero (s : Bool) : flush (pack s 0) = pack s 0 := by
  simp [flush_pack, flushedMag]

theorem mag_eq_zero_iff (w : Word) : mag w = 0 ↔ isZero w = true := by
  rw [isZero_iff_val, val]
  split <;> simp

theorem mag_pos {w : Word} (h : isZero w = false) : 0 < mag w := Nat.pos_of_ne_zero (by simp [mag_eq_zero_iff, h])

theorem roundMag_zero {d : Nat} (hd : 0 < d) : roundMag 0 d = 0 := by
  simpa [magOf_zero] using roundMag_exact 0 d hd (Nat.zero_le _)

theorem roundResult_zero (s : Bool) {d : Nat} (hd : 0 < d) : roundResult s 0 d = pack s 0 := by
  rw [roundResult, roundMag_zero hd, flush_pack_zero]

theorem int_eq_sign_natAbs (x : Int) : x = if decide (x < 0) then -(x.natAbs : Int) else x.natAbs := by
  simp only [decide_eq_true_eq]
  split <;> omega

/-! ## Whole numbers in the format (00_scope.md R11, R13) -/

/-- The format holds every significand up to 2^24 at every scale: below 2^23 it is its double at the scale below. -/
theorem exists_magOf_eq_scaled (m k : Nat) (hm : m ≤ 2 ^ 24) : ∃ b, magOf b = m * 2 ^ k := by
  induction k generalizing m with
  | zero => exact ⟨_, magOf_scaled m 0 hm (.inl rfl)⟩
  | succ k ih =>
    rcases Nat.lt_or_ge m (2 ^ 23) with h | h
    · obtain ⟨b, hb⟩ := ih (2 * m) (by omega)
      exact ⟨b, by rw [hb, Nat.pow_succ]; ring⟩
    · exact ⟨_, magOf_scaled m (k + 1) hm (.inr h)⟩

/-- The encoding of a whole number below 2^128 is a finite one. -/
theorem lt_infBits_of_magOf {b m : Nat} (hb : magOf b = m * 2 ^ 149) (hm : m < 2 ^ 128) : b < infBits := by
  rw [← magOf_strictMono.lt_iff_lt, magOf_infBits, hb]
  omega

/-- A whole number rounds to 0 or to at least 1.0: its result is no subnormal, whatever `ftz` is. -/
theorem roundMag_whole (m : Nat) : roundMag (m * 2 ^ 149) 1 = 0 ∨ 2 ^ 23 ≤ roundMag (m * 2 ^ 149) 1 := by
  rcases Nat.eq_zero_or_pos m with rfl | hm
  · exact .inl (roundMag_exact 0 1 Nat.one_pos (Nat.zero_le _))
  · have h1 : roundMag (2 ^ 149) 1 = 0x3F800000 := by decide
    have h2 := roundMag_mono 1 (Nat.le_mul_of_pos_left (2 ^ 149) hm)
    exact .inr (by omega)

theorem roundResult_whole (s : Bool) (m : Nat) : roundResult s (m * 2 ^ 149) 1 = pack s (roundMag (m * 2 ^ 149) 1) := by
  have h := roundMag_whole m
  unfold roundResult
  rw [flush_pack _ _ (roundMag_lt _ _), flushedMag, if_neg (by omega)]

/-- A whole number that the format holds is its own rounding. -/
theorem roundResult_whole_exact (s : Bool) {m b : Nat} (hb : magOf b = m * 2 ^ 149) (hm : m < 2 ^ 128) :
    isFinite (roundResult s (m * 2 ^ 149) 1) = true ∧
    val (roundResult s (m * 2 ^ 149) 1) = (if s then -(m : Int) else m) * 2 ^ 149 := by
  have hlt := lt_infBits_of_magOf hb hm
  have h31 : b < 2 ^ 31 := hlt.trans (by decide)
  have hround : roundMag (m * 2 ^ 149) 1 = b := by
    rw [← hb, ← Nat.mul_one (magOf b), roundMag_exact b 1 Nat.one_pos hlt.le]
  rw [roundResult_whole, hround, val_pack _ _ h31, hb]
  constructor
  · rw [isFinite, magBits_pack _ _ h31]
    exact decide_eq_true hlt
  · cases s <;> simp

/-! ### `toF32` -/

/-- The sign `toF32` takes, and the magnitude it rounds. -/
theorem toInt_eq_sign_natAbs (n : Word) : n.toInt = if n.msb then -(n.toInt.natAbs : Int) else n.toInt.natAbs := by
  rw [BitVec.msb_eq_toInt]
  exact int_eq_sign_natAbs n.toInt

theorem toF32_nearestEven (n : Word) : NearestEven (n.toInt * 2 ^ 149) 1 (toF32 n) := by
  have hn : n.toInt * 2 ^ 149 =
      if n.msb then -((n.toInt.natAbs * 2 ^ 149 : Nat) : Int) else (n.toInt.natAbs * 2 ^ 149 : Nat) := by
    conv_lhs => rw [toInt_eq_sign_natAbs n]
    split <;> push_cast <;> ring
  rw [hn, toF32, roundResult_whole]
  exact pack_roundMag_nearestEven _ _ 1 Nat.one_pos

theorem val_toF32 (n : Word) (h : n.toInt.natAbs ≤ 2 ^ 24) : val (toF32 n) = n.toInt * 2 ^ 149 := by
  obtain ⟨b, hb⟩ := exists_magOf_eq_scaled n.toInt.natAbs 149 h
  conv_rhs => rw [toInt_eq_sign_natAbs n]
  exact (roundResult_whole_exact _ hb (by omega)).2

/-- Settles O60: what is rounded is a whole number, whose rounding is no subnormal, so `ftz` does not matter; the format
holds every whole number to 2^24. -/
theorem integerConversionIsExact : Obligations.IntegerConversionIsExact :=
  fun n => ⟨toF32_nearestEven n, val_toF32 n⟩

/-! ## `floor32` (R11) -/

/-- A finite magnitude is whole, or below 2^23. -/
theorem magOf_whole_or_small (b : Nat) : 2 ^ 149 ∣ magOf b ∨ magOf b < 2 ^ 23 * 2 ^ 149 := by
  rcases Nat.lt_or_ge b (150 * 2 ^ 23) with hb | hb
  · have h : magOf (150 * 2 ^ 23) = 2 ^ 23 * 2 ^ 149 := by decide
    exact .inr (h ▸ magOf_strictMono hb)
  · left
    rw [magOf, if_neg (by omega)]
    exact Dvd.dvd.mul_left (pow_dvd_pow 2 (by omega)) _

/-- `floorMag` is the floor of the signed value. -/
theorem floorMag_bounds (s : Bool) (m : Nat) :
    (if s then -(floorMag s m : Int) else floorMag s m) * 2 ^ 149 ≤ (if s then -(m : Int) else m) ∧
    (if s then -(m : Int) else m) < (if s then -(floorMag s m : Int) else floorMag s m) * 2 ^ 149 + 2 ^ 149 := by
  unfold floorMag
  cases s <;> simp only [Bool.false_eq_true, if_false, if_true] <;> omega

theorem floorMag_of_whole (s : Bool) {m : Nat} (h : 2 ^ 149 ∣ m) : floorMag s m * 2 ^ 149 = m := by
  unfold floorMag
  split <;> omega

/-- The floor of a finite magnitude is one the format holds. -/
theorem exists_magOf_eq_floorMag (s : Bool) (b : Nat) : ∃ c, magOf c = floorMag s (magOf b) * 2 ^ 149 := by
  rcases magOf_whole_or_small b with h | h
  · exact ⟨b, (floorMag_of_whole s h).symm⟩
  · have : floorMag s (magOf b) ≤ 2 ^ 24 := by
      unfold floorMag
      split <;> omega
    exact exists_magOf_eq_scaled _ _ this

theorem floorMag_lt (s : Bool) {b : Nat} (hb : b < infBits) : floorMag s (magOf b) < 2 ^ 128 := by
  have h : magOf b ≤ (2 ^ 24 - 1) * 2 ^ 253 := by
    rw [← magOf_maxFinite]
    exact magOf_strictMono.monotone (by omega)
  unfold floorMag
  split <;> omega

/-- R11: what is its own floor. -/
theorem ffloor_self {x : Word} (h : isNaN x = true ∨ isInf x = true ∨ isZero x = true) : ffloor x = x := by
  unfold ffloor
  rcases h with h | h | h
  · rw [if_pos h]
  · simp [isNaN_of_isInf h, flush_of_isInf h, h]
  · simp [isNaN_of_isFinite (isFinite_of_isZero h), flush_of_isZero h, h]

theorem ffloor_of_isZero_flush {x : Word} (h : isFinite x = true) (h0 : isZero (flush x) = true) :
    ffloor x = flush x := by
  simp [ffloor, isNaN_of_isFinite h, h0]

theorem ffloor_of_nonzero {x : Word} (h : isFinite x = true) (h0 : isZero (flush x) = false) :
    ffloor x = roundResult (signBit x) (floorMag (signBit x) (mag (flush x)) * 2 ^ 149) 1 := by
  have hinf : isInf (flush x) = false := isInf_of_isFinite (by simpa using h)
  simp [ffloor, isNaN_of_isFinite h, hinf, h0]

theorem ffloor_finite {x : Word} (h : isFinite x = true) :
    isFinite (ffloor x) = true ∧ (2 ^ 149 : Int) ∣ val (ffloor x) ∧
      val (ffloor x) ≤ val (flush x) ∧ val (flush x) < val (ffloor x) + 2 ^ 149 := by
  have hfin : isFinite (flush x) = true := by simpa using h
  cases h0 : isZero (flush x) with
  | true =>
    rw [ffloor_of_isZero_flush h h0, (isZero_iff_val _).mp h0]
    exact ⟨hfin, by simp, by simp, by simp⟩
  | false =>
    have hlt : magBits (flush x) < infBits := by simpa [isFinite] using hfin
    obtain ⟨c, hc⟩ := exists_magOf_eq_floorMag (signBit x) (magBits (flush x))
    obtain ⟨hr, hv⟩ := roundResult_whole_exact (signBit x) hc (floorMag_lt _ hlt)
    have hb := floorMag_bounds (signBit x) (magOf (magBits (flush x)))
    rw [ffloor_of_nonzero h h0, mag_eq_magOf, hv, val_eq, signBit_flush]
    exact ⟨hr, Dvd.intro_left _ rfl, hb⟩

/-- Settles O59: the floor of a finite magnitude is one the format holds, so the rounding of `floor32` is exact. -/
theorem floorIsExact : Obligations.FloorIsExact :=
  fun _ => ⟨ffloor_self, ffloor_finite⟩

/-! ## The order of the comparisons (00_scope.md R12) -/

theorem flt_eq_true_iff (a b : Word) :
    flt a b = true ↔ isNaN a = false ∧ isNaN b = false ∧ orderKey (flush a) < orderKey (flush b) := by
  simp [flt, and_assoc]

theorem fle_eq_true_iff (a b : Word) :
    fle a b = true ↔ isNaN a = false ∧ isNaN b = false ∧ orderKey (flush a) ≤ orderKey (flush b) := by
  simp [fle, and_assoc]

theorem flt_of_isNaN {a b : Word} (h : isNaN a = true ∨ isNaN b = true) : flt a b = false := by
  rcases h with h | h <;> simp [flt, h]

theorem fle_of_isNaN {a b : Word} (h : isNaN a = true ∨ isNaN b = true) : fle a b = false := by
  rcases h with h | h <;> simp [fle, h]

section Numbers
variable {a b : Word} (ha : isNaN a = false) (hb : isNaN b = false)
include ha hb

theorem flt_of_numbers : flt a b = decide (orderKey (flush a) < orderKey (flush b)) := by simp [flt, ha, hb]

theorem fle_of_numbers : fle a b = decide (orderKey (flush a) ≤ orderKey (flush b)) := by simp [fle, ha, hb]

end Numbers

/-- The infinities stand at the ends of the order. -/
theorem orderKey_flush_of_isInf {w : Word} (h : isInf w = true) :
    orderKey (flush w) = if signBit w then -(infBits : Int) else infBits := by
  rw [flush_of_isInf h, orderKey, beq_iff_eq.mp h]

theorem orderKey_flush_of_isFinite {w : Word} (h : isFinite w = true) :
    -(infBits : Int) < orderKey (flush w) ∧ orderKey (flush w) < infBits := by
  have h : magBits (flush w) < infBits := by simpa [isFinite] using (isFinite_flush w).trans h
  unfold orderKey
  split <;> omega

theorem compare_isFinite_isInf {a b : Word} (ha : isFinite a = true) (hb : isInf b = true) :
    flt a b = !signBit b ∧ fle a b = !signBit b ∧ flt b a = signBit b ∧ fle b a = signBit b := by
  have hna := isNaN_of_isFinite ha
  have hnb := isNaN_of_isInf hb
  have hk := orderKey_flush_of_isFinite ha
  rw [flt_of_numbers hna hnb, fle_of_numbers hna hnb, flt_of_numbers hnb hna, fle_of_numbers hnb hna,
    orderKey_flush_of_isInf hb]
  cases signBit b <;> simp <;> omega

theorem compare_isInf_isInf {a b : Word} (ha : isInf a = true) (hb : isInf b = true) :
    flt a b = (signBit a && !signBit b) ∧ fle a b = (signBit a || !signBit b) := by
  have hna := isNaN_of_isInf ha
  have hnb := isNaN_of_isInf hb
  rw [flt_of_numbers hna hnb, fle_of_numbers hna hnb, orderKey_flush_of_isInf ha, orderKey_flush_of_isInf hb]
  cases signBit a <;> cases signBit b <;> decide

theorem flt_iff_val {a b : Word} (ha : isFinite a = true) (hb : isFinite b = true) :
    flt a b = true ↔ val (flush a) < val (flush b) := by
  rw [flt_of_numbers (isNaN_of_isFinite ha) (isNaN_of_isFinite hb), decide_eq_true_iff, val_lt_iff_orderKey]

theorem fle_iff_val {a b : Word} (ha : isFinite a = true) (hb : isFinite b = true) :
    fle a b = true ↔ val (flush a) ≤ val (flush b) := by
  rw [fle_of_numbers (isNaN_of_isFinite ha) (isNaN_of_isFinite hb), decide_eq_true_iff, val_le_iff_orderKey]

/-! ### The clamp -/

theorem fclamp_of_below {x lo hi : Word} (h : flt x lo = true) : fclamp x lo hi = lo := by simp [fclamp, h]

theorem fclamp_of_inside {x lo hi : Word} (h1 : flt x lo = false) (h2 : flt hi x = false) : fclamp x lo hi = x := by
  simp [fclamp, h1, h2]

/-- With `lo <= hi` no number is above `hi` and below `lo`. -/
theorem fclamp_of_above {x lo hi : Word} (hle : fle lo hi = true) (h : flt hi x = true) : fclamp x lo hi = hi := by
  have hlo : flt x lo = false := by
    rw [← Bool.not_eq_true, flt_eq_true_iff]
    rw [fle_eq_true_iff] at hle
    rw [flt_eq_true_iff] at h
    omega
  simp [fclamp, hlo, h]

theorem fclamp_of_isNaN {x : Word} (lo hi : Word) (h : isNaN x = true) : fclamp x lo hi = x :=
  fclamp_of_inside (flt_of_isNaN (.inl h)) (flt_of_isNaN (.inr h))

/-- Between numbers, `<=` is the negation of `>`. -/
theorem fle_of_not_flt {a b : Word} (ha : isNaN a = false) (hb : isNaN b = false) (h : flt b a = false) :
    fle a b = true := by
  rw [flt_of_numbers hb ha, decide_eq_false_iff_not] at h
  rw [fle_of_numbers ha hb, decide_eq_true_iff]
  omega

theorem fle_refl {a : Word} (ha : isNaN a = false) : fle a a = true := by simp [fle_of_numbers ha ha]

theorem fclamp_in_range {x lo hi : Word} (hle : fle lo hi = true) (hx : isNaN x = false) :
    fle lo (fclamp x lo hi) = true ∧ fle (fclamp x lo hi) hi = true := by
  obtain ⟨hlo, hhi, -⟩ := (fle_eq_true_iff lo hi).mp hle
  cases h1 : flt x lo with
  | true => rw [fclamp_of_below h1]; exact ⟨fle_refl hlo, hle⟩
  | false =>
    cases h2 : flt hi x with
    | true => rw [fclamp_of_above hle h2]; exact ⟨hle, fle_refl hhi⟩
    | false => rw [fclamp_of_inside h1 h2]; exact ⟨fle_of_not_flt hlo hx h1, fle_of_not_flt hx hhi h2⟩

/-- Settles O58: the comparisons by the class of their operands, and the clamp by where its operand stands. -/
theorem comparisonsAreOrdered : Obligations.ComparisonsAreOrdered := by
  intro a b
  refine ⟨fun h => ?nan, fun ha hb => ?finite, fun ha hb => ?finiteInf, fun ha hb => ?infFinite, fun ha hb => ?infInf,
    fun lo hi hle => ?clamp⟩
  case nan => exact ⟨flt_of_isNaN h, fle_of_isNaN h, flt_of_isNaN h.symm, fle_of_isNaN h.symm⟩
  case finite => exact ⟨flt_iff_val ha hb, fle_iff_val ha hb, flt_iff_val hb ha, fle_iff_val hb ha⟩
  case finiteInf => exact compare_isFinite_isInf ha hb
  case infFinite =>
    obtain ⟨hlt, hle, hgt, hge⟩ := compare_isFinite_isInf hb ha
    exact ⟨hgt, hge, hlt, hle⟩
  case infInf =>
    obtain ⟨hlt, hle⟩ := compare_isInf_isInf ha hb
    obtain ⟨hgt, hge⟩ := compare_isInf_isInf hb ha
    exact ⟨hlt, hle, hgt.trans (Bool.and_comm _ _), hge.trans (Bool.or_comm _ _)⟩
  case clamp =>
    exact ⟨fclamp_of_below, fclamp_of_above hle, fclamp_of_inside, fclamp_of_isNaN lo hi, fclamp_in_range hle⟩

/-! ## The sum of flushed operands by their class -/

theorem addCore_of_isNaN (k : Nat) {a b : Word} (h : isNaN a = true ∨ isNaN b = true) :
    addCore k a b = nanResult k := by
  simp [addCore, h]

theorem addCore_of_isInf_isInf (k : Nat) {a b : Word} (ha : isInf a = true) (hb : isInf b = true) :
    addCore k a b = if signBit a = signBit b then a else nanResult k := by
  by_cases hs : signBit a = signBit b <;> simp [addCore, isNaN_of_isInf, ha, hb, hs]

theorem addCore_of_isInf_isFinite (k : Nat) {a b : Word} (ha : isInf a = true) (hb : isFinite b = true) :
    addCore k a b = a := by
  simp [addCore, isNaN_of_isInf ha, isNaN_of_isFinite hb, isInf_of_isFinite hb, ha]

theorem addCore_of_isFinite_isInf (k : Nat) {a b : Word} (ha : isFinite a = true) (hb : isInf b = true) :
    addCore k a b = b := by
  simp [addCore, isNaN_of_isFinite ha, isInf_of_isFinite ha, isNaN_of_isInf hb, hb]

theorem addCore_of_isFinite (k : Nat) {a b : Word} (ha : isFinite a = true) (hb : isFinite b = true) :
    addCore k a b =
      if val a + val b = 0 then pack (signBit a && signBit b) 0
      else roundResult (decide (val a + val b < 0)) (val a + val b).natAbs 1 := by
  simp [addCore, isNaN_of_isFinite, isInf_of_isFinite, ha, hb]

/-! ## Each operation by the class of its operands (R9, R12) -/

section NaN
variable {a b : Word} (k : Nat) (h : isNaN a = true ∨ isNaN b = true)
include h

theorem fadd_of_isNaN : fadd k a b = nanResult k := addCore_of_isNaN k (by simpa [isNaN_flush] using h)

theorem fsub_of_isNaN : fsub k a b = nanResult k := addCore_of_isNaN k (by simpa [isNaN_flush] using h)

theorem fmul_of_isNaN : fmul k a b = nanResult k := by simp [fmul, mulCore, isNaN_flush, h]

theorem fdiv_of_isNaN : fdiv k a b = nanResult k := by simp [fdiv, divCore, isNaN_flush, h]

end NaN

section InfInf
variable {a b : Word} (k : Nat) (ha : isInf a = true) (hb : isInf b = true)
include ha hb

theorem fadd_of_isInf_isInf : fadd k a b = if signBit a = signBit b then a else nanResult k := by
  rw [fadd, flush_of_isInf ha, flush_of_isInf hb, addCore_of_isInf_isInf k ha hb]

theorem fsub_of_isInf_isInf : fsub k a b = if signBit a = signBit b then nanResult k else a := by
  rw [fsub, flush_of_isInf ha, flush_of_isInf hb, addCore_of_isInf_isInf k ha (by simpa using hb), signBit_flipSign]
  cases signBit a <;> cases signBit b <;> rfl

theorem fmul_of_isInf_isInf : fmul k a b = pack (signBit a != signBit b) infBits := by
  simp [fmul, mulCore, flush_of_isInf, isNaN_of_isInf, isZero_of_isInf, ha, hb]

theorem fdiv_of_isInf_isInf : fdiv k a b = nanResult k := by
  simp [fdiv, divCore, flush_of_isInf, isNaN_of_isInf, ha, hb]

end InfInf

section InfFinite
variable {a b : Word} (k : Nat) (ha : isInf a = true) (hb : isFinite b = true)
include ha hb

theorem fadd_of_isInf_isFinite : fadd k a b = a := by
  rw [fadd, flush_of_isInf ha, addCore_of_isInf_isFinite k ha (by simpa using hb)]

theorem fsub_of_isInf_isFinite : fsub k a b = a := by
  rw [fsub, flush_of_isInf ha, addCore_of_isInf_isFinite k ha (by simpa using hb)]

theorem fmul_of_isInf_isFinite :
    fmul k a b = if isZero (flush b) then nanResult k else pack (signBit a != signBit b) infBits := by
  simp [fmul, mulCore, isNaN_flush, isNaN_of_isInf ha, isNaN_of_isFinite hb, ha]

theorem fdiv_of_isInf_isFinite : fdiv k a b = pack (signBit a != signBit b) infBits := by
  simp [fdiv, divCore, isNaN_flush, isNaN_of_isInf ha, isNaN_of_isFinite hb, isInf_of_isFinite hb, ha]

end InfFinite

section FiniteInf
variable {a b : Word} (k : Nat) (ha : isFinite a = true) (hb : isInf b = true)
include ha hb

theorem fadd_of_isFinite_isInf : fadd k a b = b := by
  rw [fadd, flush_of_isInf hb, addCore_of_isFinite_isInf k (by simpa using ha) hb]

theorem fsub_of_isFinite_isInf : fsub k a b = pack (!signBit b) infBits := by
  rw [fsub, flush_of_isInf hb, addCore_of_isFinite_isInf k (by simpa using ha) (by simpa using hb),
    flipSign_eq_pack_of_isInf hb]

theorem fmul_of_isFinite_isInf :
    fmul k a b = if isZero (flush a) then nanResult k else pack (signBit a != signBit b) infBits := by
  simp [fmul, mulCore, isNaN_flush, isNaN_of_isFinite ha, isInf_of_isFinite ha, isNaN_of_isInf hb, hb]

theorem fdiv_of_isFinite_isInf : fdiv k a b = pack (signBit a != signBit b) 0 := by
  simp [fdiv, divCore, isNaN_flush, isNaN_of_isFinite ha, isInf_of_isFinite ha, isNaN_of_isInf hb, hb]

end FiniteInf

section Finite
variable {a b : Word} (k : Nat) (ha : isFinite a = true) (hb : isFinite b = true)
include ha hb

/-- An exact zero sum has the sign of round to nearest. -/
theorem fadd_of_val_eq_zero (h : val (flush a) + val (flush b) = 0) :
    fadd k a b = pack (signBit a && signBit b) 0 := by
  rw [fadd, addCore_of_isFinite k (by simpa using ha) (by simpa using hb), if_pos h, signBit_flush, signBit_flush]

/-- An exact zero difference has the sign of round to nearest. -/
theorem fsub_of_val_eq_zero (h : val (flush a) - val (flush b) = 0) :
    fsub k a b = pack (signBit a && !signBit b) 0 := by
  have hsum : val (flush a) + val (flipSign (flush b)) = 0 := by rwa [val_flipSign, ← Int.sub_eq_add_neg]
  rw [fsub, addCore_of_isFinite k (by simpa using ha) (by simpa using hb), if_pos hsum, signBit_flipSign,
    signBit_flush, signBit_flush]

theorem fmul_of_isFinite :
    fmul k a b = roundResult (signBit a != signBit b) (mag (flush a) * mag (flush b)) (2 ^ 149) := by
  simp [fmul, mulCore, isNaN_of_isFinite, isInf_of_isFinite, ha, hb]

theorem fdiv_of_isFinite :
    fdiv k a b =
      if isZero (flush b) then (if isZero (flush a) then nanResult k else pack (signBit a != signBit b) infBits)
      else roundResult (signBit a != signBit b) (mag (flush a) * 2 ^ 149) (mag (flush b)) := by
  simp [fdiv, divCore, isNaN_of_isFinite, isInf_of_isFinite, ha, hb]

theorem fmul_of_isZero (h : isZero (flush a) = true ∨ isZero (flush b) = true) :
    fmul k a b = pack (signBit a != signBit b) 0 := by
  have h0 : mag (flush a) * mag (flush b) = 0 := by simpa [mag_eq_zero_iff] using h
  rw [fmul_of_isFinite k ha hb, h0, roundResult_zero _ (by decide)]

theorem fdiv_of_isZero_dividend (h1 : isZero (flush a) = true) (h2 : isZero (flush b) = false) :
    fdiv k a b = pack (signBit a != signBit b) 0 := by
  simp [fdiv_of_isFinite k ha hb, h2, (mag_eq_zero_iff _).mpr h1, roundResult_zero _ (mag_pos h2)]

theorem fdiv_of_isZero_divisor (h1 : isZero (flush a) = false) (h2 : isZero (flush b) = true) :
    fdiv k a b = pack (signBit a != signBit b) infBits := by
  simp [fdiv_of_isFinite k ha hb, h1, h2]

theorem fdiv_of_isZero_isZero (h1 : isZero (flush a) = true) (h2 : isZero (flush b) = true) :
    fdiv k a b = nanResult k := by
  simp [fdiv_of_isFinite k ha hb, h1, h2]

end Finite

/-! ## Correct rounding of finite operands (R9) -/

theorem nearestEven_zero (s : Bool) : NearestEven 0 1 (pack s 0) := by
  simpa [roundMag_zero] using pack_roundMag_nearestEven s 0 1 Nat.one_pos

/-- A rounded result is the nearest binary32, flushed. -/
theorem roundResult_nearestEven (s : Bool) {n d : Nat} {x : Int} (hd : 0 < d) (hx : x = if s then -(n : Int) else n) :
    ∃ w, NearestEven x d w ∧ roundResult s n d = flush w :=
  ⟨_, hx ▸ pack_roundMag_nearestEven s n d hd, rfl⟩

theorem addCore_nearestEven (k : Nat) {a b : Word} (ha : isFinite a = true) (hb : isFinite b = true) :
    ∃ w, NearestEven (val a + val b) 1 w ∧ addCore k a b = flush w := by
  rw [addCore_of_isFinite k ha hb]
  split
  · rename_i h0
    exact ⟨_, h0 ▸ nearestEven_zero _, (flush_pack_zero _).symm⟩
  · exact roundResult_nearestEven _ Nat.one_pos (int_eq_sign_natAbs _)

section Rounding
variable {a b : Word} (k : Nat) (ha : isFinite a = true) (hb : isFinite b = true)
include ha hb

theorem fadd_nearestEven : ∃ w, NearestEven (val (flush a) + val (flush b)) 1 w ∧ fadd k a b = flush w :=
  addCore_nearestEven k (by simpa using ha) (by simpa using hb)

theorem fsub_nearestEven : ∃ w, NearestEven (val (flush a) - val (flush b)) 1 w ∧ fsub k a b = flush w := by
  rw [Int.sub_eq_add_neg, ← val_flipSign]
  exact addCore_nearestEven k (by simpa using ha) (by simpa using hb)

theorem fmul_nearestEven : ∃ w, NearestEven (val (flush a) * val (flush b)) (2 ^ 149) w ∧ fmul k a b = flush w := by
  rw [fmul_of_isFinite k ha hb]
  apply roundResult_nearestEven _ (by decide)
  simp only [val, signBit_flush]
  cases signBit a <;> cases signBit b <;> simp

/-- The quotient's exact value has the signs of both operands; its denominator is the magnitude of the divisor. -/
theorem fdiv_nearestEven (h0 : isZero (flush b) = false) :
    ∃ w, NearestEven (if signBit (flush b) then -(val (flush a) * 2 ^ 149) else val (flush a) * 2 ^ 149)
      (mag (flush b)) w ∧ fdiv k a b = flush w := by
  rw [fdiv_of_isFinite k ha hb, h0]
  apply roundResult_nearestEven _ (mag_pos h0)
  simp only [val, signBit_flush]
  cases signBit a <;> cases signBit b <;> simp

end Rounding

/-- Settles O56: each operation rounds its exact result once, and `roundMag` rounds to nearest even. -/
theorem arithmeticRoundsOnceToNearestEven : Obligations.ArithmeticRoundsOnceToNearestEven :=
  fun k _ _ ha hb =>
    ⟨fadd_nearestEven k ha hb, fsub_nearestEven k ha hb, fmul_nearestEven k ha hb, fdiv_nearestEven k ha hb⟩

/-! ## NaN results are quiet (R12) -/

/-- A word that is quiet if it is a NaN. -/
def QuietIfNaN (w : Word) : Prop := isNaN w = true → w.getLsbD 22 = true

theorem quietIfNaN_of_not_isNaN {w : Word} (h : isNaN w = false) : QuietIfNaN w := by simp [QuietIfNaN, h]

theorem quietIfNaN_nanResult (k : Nat) : QuietIfNaN (nanResult k) := by
  intro _
  have hlow : (nanResult k).toNat / 2 ^ 22 % 2 = 1 := by
    unfold nanResult
    rw [pack_toNat _ _ (by omega)]
    split <;> omega
  rw [BitVec.getLsbD, Nat.testBit_eq_decide_div_mod_eq, hlow]
  rfl

theorem quietIfNaN_pack (s : Bool) {m : Nat} (h : m ≤ infBits) : QuietIfNaN (pack s m) := by
  apply quietIfNaN_of_not_isNaN
  rw [isNaN, magBits_pack _ _ (h.trans_lt (by decide))]
  exact decide_eq_false h.not_gt

theorem quietIfNaN_roundResult (s : Bool) (n d : Nat) : QuietIfNaN (roundResult s n d) := by
  rw [roundResult, flush_pack _ _ (roundMag_lt n d)]
  exact quietIfNaN_pack s ((flushedMag_le _).trans (roundMag_le_infBits n d))

theorem addCore_quiet (k : Nat) (a b : Word) : QuietIfNaN (addCore k a b) := by
  unfold addCore
  dsimp only
  split_ifs with hnan ha _ hb
  · exact quietIfNaN_nanResult k
  · exact quietIfNaN_nanResult k
  · exact quietIfNaN_of_not_isNaN (isNaN_of_isInf ha)
  · exact quietIfNaN_of_not_isNaN (isNaN_of_isInf hb)
  · exact quietIfNaN_pack _ (Nat.zero_le _)
  · exact quietIfNaN_roundResult _ _ _

theorem mulCore_quiet (k : Nat) (a b : Word) : QuietIfNaN (mulCore k a b) := by
  unfold mulCore
  dsimp only
  split_ifs
  · exact quietIfNaN_nanResult k
  · exact quietIfNaN_nanResult k
  · exact quietIfNaN_pack _ le_rfl
  · exact quietIfNaN_nanResult k
  · exact quietIfNaN_pack _ le_rfl
  · exact quietIfNaN_roundResult _ _ _

theorem divCore_quiet (k : Nat) (a b : Word) : QuietIfNaN (divCore k a b) := by
  unfold divCore
  dsimp only
  split_ifs
  · exact quietIfNaN_nanResult k
  · exact quietIfNaN_nanResult k
  · exact quietIfNaN_pack _ le_rfl
  · exact quietIfNaN_pack _ (Nat.zero_le _)
  · exact quietIfNaN_nanResult k
  · exact quietIfNaN_pack _ le_rfl
  · exact quietIfNaN_roundResult _ _ _

/-- Settles O57: each operation by the class of its operands; a NaN comes only from `nanResult`, which is quiet. -/
theorem arithmeticOfSpecialValues : Obligations.ArithmeticOfSpecialValues := by
  intro k a b
  refine ⟨fun h => ?nan, fun ha hb => ?infInf, fun ha hb => ?infFinite, fun ha hb => ?finiteInf, fun ha hb => ?finite,
    ?quiet, fun h => ?kept, fun h hf => ?flushed⟩
  case nan =>
    rw [fadd_of_isNaN k h, fsub_of_isNaN k h, fmul_of_isNaN k h, fdiv_of_isNaN k h]
    simp [isNaN_nanResult]
  case infInf =>
    rw [fadd_of_isInf_isInf k ha hb, fsub_of_isInf_isInf k ha hb, fdiv_of_isInf_isInf k ha hb]
    exact ⟨fun hs => by simp [hs, isNaN_nanResult], fun hs => by simp [hs, isNaN_nanResult],
      fmul_of_isInf_isInf k ha hb, isNaN_nanResult k⟩
  case infFinite =>
    rw [fmul_of_isInf_isFinite k ha hb]
    exact ⟨fadd_of_isInf_isFinite k ha hb, fsub_of_isInf_isFinite k ha hb, fdiv_of_isInf_isFinite k ha hb,
      fun h0 => by simp [h0, isNaN_nanResult], fun h0 => by simp [h0]⟩
  case finiteInf =>
    rw [fmul_of_isFinite_isInf k ha hb]
    exact ⟨fadd_of_isFinite_isInf k ha hb, fsub_of_isFinite_isInf k ha hb, fdiv_of_isFinite_isInf k ha hb,
      fun h0 => by simp [h0, isNaN_nanResult], fun h0 => by simp [h0]⟩
  case finite =>
    exact ⟨fun h => (fadd_of_val_eq_zero k ha hb h).trans (pack_zero _),
      fun h => (fsub_of_val_eq_zero k ha hb h).trans (pack_zero _),
      fmul_of_isZero k ha hb, fdiv_of_isZero_dividend k ha hb, fdiv_of_isZero_divisor k ha hb,
      fun h1 h2 => by rw [fdiv_of_isZero_isZero k ha hb h1 h2]; exact isNaN_nanResult k⟩
  case quiet =>
    simp only [List.forall_mem_cons]
    exact ⟨addCore_quiet k _ _, addCore_quiet k _ _, mulCore_quiet k _ _, divCore_quiet k _ _, by simp⟩
  case kept => exact ⟨flush_self h, by rw [fneg, flush_self h]; rfl⟩
  case flushed => rw [fneg, flush_of_ftz h hf, flipSign_pack_zero, pack_zero]; exact ⟨rfl, rfl⟩

end Sys2Proof.Machine

namespace Sys2Proof.Machine

/-! # The state (10_state.md)

## The computed words (R31, R43) -/

theorem active_of_level_zero {u : Env} (h : u.level = Config.zero) : u.active = false := by
  rw [Env.active, h]
  decide

theorem attacking_of_target_zero {u : Env} (h : u.target = Config.zero) : u.attacking = false := by
  rw [Env.attacking, h]
  decide

/-- An envelope after a reset is idle. -/
theorem status_of_silent {u : Env} (hl : u.level = Config.zero) (ht : u.target = Config.zero) : u.status = 0#32 := by
  rw [Env.status, active_of_level_zero hl, attacking_of_target_zero ht]
  rfl

theorem status_toNat (u : Env) : u.status.toNat = u.active.toNat + 2 * u.attacking.toNat := by
  unfold Env.status
  cases u.active <;> cases u.attacking <;> rfl

theorem status_bits (u : Env) : u.status.getLsbD 0 = u.active ∧ u.status.getLsbD 1 = u.attacking := by
  unfold Env.status
  cases u.active <;> cases u.attacking <;> exact ⟨rfl, rfl⟩

theorem vstatus_toNat (s : State) :
    s.vstatus.toNat =
      s.aenv.status.toNat + 4 * s.fenv.status.toNat + 16 * s.fcoef.toNat + 32 * s.voice.faulted.toNat := by
  have bits : ∀ fault coef f1 f0 a1 a0 : Bool,
      (0#26 ++ bit fault ++ bit coef ++ bit f1 ++ bit f0 ++ bit a1 ++ bit a0).toNat =
        a0.toNat + 2 * a1.toNat + 4 * (f0.toNat + 2 * f1.toNat) + 16 * coef.toNat + 32 * fault.toNat := by decide
  simp only [status_toNat]
  exact bits _ _ _ _ _ _

/-- Settles O25: bit 0 is `active` and bit 1 is `attacking`, and no comparison holds for a NaN (R12). -/
theorem statusWordIsComputed : Obligations.StatusWordIsComputed := by
  refine ⟨fun s e => ⟨(s.env e).status, rfl, ?_⟩, fun s e w hw => ?_, fun e => ?_⟩
  · rw [status_toNat]
    show _ = (if (s.env e).active then 1 else 0) + (if (s.env e).attacking then 2 else 0)
    cases (s.env e).active <;> cases (s.env e).attacking <;> rfl
  · obtain rfl : (s.env e).status = w := Option.some.inj hw
    obtain ⟨h0, h1⟩ := status_bits (s.env e)
    exact ⟨fun h => h0.trans (flt_of_isNaN (.inr h)), fun h => h1.trans (fle_of_isNaN (.inr h))⟩
  · cases e <;> exact congrArg some (status_of_silent rfl rfl)

/-- Settles O26: the six bits of the word, as one number. -/
theorem vstatusWordIsComputed : Obligations.VstatusWordIsComputed := by
  refine ⟨fun s => ⟨s.vstatus, s.aenv.status, s.fenv.status, rfl, rfl, rfl, ?_⟩, ?_⟩
  · rw [vstatus_toNat, Voice.faulted]
    cases s.fcoef <;> by_cases h : s.voice.cause = 0#4 <;> simp [h]
  · have h : State.reset.vstatus.toNat = 0 := by
      rw [vstatus_toNat, status_of_silent rfl rfl, status_of_silent rfl rfl]
      rfl
    exact congrArg some (BitVec.eq_of_toNat_eq h)

/-! ## What a register reads after an update (R22, R40 to R43) -/

/-- The parameters of an oscillator are all that it reads outside its continuous state. -/
theorem Osc.read_of_parameters {o o' : Osc} (h : o'.period = o.period ∧ o'.ampl = o.ampl ∧ o'.pmod = o.pmod)
    {r : OscReg} (hr : oscContinuous r = false) : o'.read r = o.read r := by
  obtain ⟨hp, ha, hm⟩ := h
  cases r <;> simp_all [Osc.read, oscContinuous]

/-- The parameters of an envelope are its RW registers. -/
theorem Env.read_of_parameters {u u' : Env}
    (h : u'.attmul = u.attmul ∧ u'.decmul = u.decmul ∧ u'.suslvl = u.suslvl ∧ u'.relmul = u.relmul)
    {r : EnvReg} (hr : r.writable = true) : u'.read r = u.read r := by
  obtain ⟨ha, hd, hs, hr'⟩ := h
  cases r <;> simp_all [Env.read, EnvReg.writable]

theorem Osc.read_write (o : Osc) (r q : OscReg) (w : Word) :
    (o.write r w).read q = if q = r ∧ r.writable = true then some w else o.read q := by
  cases r <;> cases q <;> rfl

theorem Env.read_write (u : Env) (r q : EnvReg) (w : Word) :
    (u.write r w).read q = if q = r ∧ r.writable = true then some w else u.read q := by
  cases r <;> cases q <;> rfl

theorem OscUnit.eq_or_eq_other (u v : OscUnit) : v = u ∨ v = u.other := by cases u <;> cases v <;> decide

/-- An update of an oscillator shows in its registers only. -/
theorem setOsc_regRead {s : State} {u : OscUnit} {o : Osc} {q : Reg}
    (h : ∀ r, q = .osc u r → o.read r = (s.osc u).read r) : (s.setOsc u o).regRead q = s.regRead q := by
  cases q with
  | osc v r =>
    rcases OscUnit.eq_or_eq_other u v with rfl | rfl
    · simpa [State.regRead] using h r rfl
    · simp [State.regRead]
  | env e r => simp [State.regRead]
  | voice r => cases r <;> simp [State.regRead, State.readVoice, State.vstatus]

/-- An update of an envelope shows in its registers and in `VSTATUS` only. -/
theorem setEnv_regRead {s : State} {e : EnvUnit} {u : Env} {q : Reg} (hv : q ≠ .voice .vstatus)
    (h : ∀ r, q = .env e r → u.read r = (s.env e).read r) : (s.setEnv e u).regRead q = s.regRead q := by
  cases q with
  | osc v r => simp [State.regRead]
  | env f r =>
    by_cases hf : f = e
    · subst hf
      simpa [State.regRead] using h r rfl
    · cases e <;> cases f <;> simp_all [State.regRead, State.env, State.setEnv]
  | voice r => cases r <;> simp_all [State.regRead, State.readVoice]

@[simp] theorem ctrlWord_ctrlWord (w : Word) : ctrlWord (ctrlWord w) = ctrlWord w := by
  rw [ctrlWord, ctrlWord, BitVec.and_assoc, BitVec.and_self]

/-- A write of the voice unit shows in that register only; `CTRL` takes the word without its reserved bits. -/
theorem readVoice_write (s : State) (r q : VoiceReg) (w : Word) :
    ({ s with voice := s.voice.write r w } : State).readVoice q =
      if q = r ∧ r.writable = true then some (if r = .ctrl then ctrlWord w else w) else s.readVoice q := by
  cases r
  case ctrl =>
    cases q
    case ctrl => exact congrArg some (ctrlWord_ctrlWord w)
    all_goals rfl
  all_goals cases q <;> rfl

/-- R51: what every register reads after a write of an RW register. -/
theorem regWrite_regRead (s : State) {r : Reg} (q : Reg) (w : Word) (hr : r.writable = true) :
    (s.regWrite r w).regRead q =
      if q = r then some (if r = .voice .ctrl then ctrlWord w else w) else s.regRead q := by
  cases r with
  | osc u r =>
    have hr : r.writable = true := hr
    split
    · next h => subst h; simp [State.regWrite, State.regRead, Osc.read_write, hr]
    · next h =>
      refine setOsc_regRead fun p hp => ?_
      rw [Osc.read_write, if_neg]
      rintro ⟨rfl, -⟩
      exact h hp
  | env e r =>
    have hr : r.writable = true := hr
    split
    · next h => subst h; simp [State.regWrite, State.regRead, Env.read_write, hr]
    · next h =>
      by_cases hv : q = .voice .vstatus
      · subst hv
        cases e <;> cases r <;> rfl
      refine setEnv_regRead hv fun p hp => ?_
      rw [Env.read_write, if_neg]
      rintro ⟨rfl, -⟩
      exact h hp
  | voice r =>
    cases q with
    | osc v q => cases v <;> rfl
    | env e q => cases e <;> rfl
    | voice q =>
      have hr : r.writable = true := hr
      simp [State.regWrite, State.regRead, readVoice_write, hr]

/-- The registers with a set flag (R22): those a hardware reset leaves UNSET. -/
def hasSetFlag : Reg → Bool
  | .osc _ r => r == .period || r == .ampl
  | .env _ r => r.writable
  | .voice r => (r.writable && r != .note && r != .ctrl) || r == .modcut

/-- A register without a set flag always holds a value. -/
theorem regRead_isSome_of_not_hasSetFlag (s : State) {q : Reg} (h : hasSetFlag q = false) :
    (s.regRead q).isSome = true := by
  cases q with
  | osc u r => cases r <;> simp_all [State.regRead, Osc.read, hasSetFlag]
  | env e r => cases r <;> simp_all [State.regRead, Env.read, hasSetFlag, EnvReg.writable]
  | voice r => cases r <;> simp_all [State.regRead, State.readVoice, hasSetFlag, VoiceReg.writable]

theorem recordFault_frame (c : Cause) (w : CmdWord) (v : Voice) :
    ∃ f m, recordFault c w v = { v with fault := f, fcmd := m } := by
  unfold recordFault
  split
  · exact ⟨_, _, rfl⟩
  · exact ⟨v.fault, v.fcmd, rfl⟩

/-- A fault changes no register with a set flag. -/
theorem raiseFault_regRead (c : Cause) (w : CmdWord) (s : State) {q : Reg} (h : hasSetFlag q = true) :
    (raiseFault c w s).regRead q = s.regRead q := by
  obtain ⟨f, m, hv⟩ := recordFault_frame c w s.voice
  cases q with
  | osc u r => cases u <;> rfl
  | env e r => cases e <;> rfl
  | voice r => cases r <;> simp_all [State.regRead, State.readVoice, hasSetFlag, VoiceReg.writable]

/-! ## What every command that completes does (00_scope.md R15, 20_memory.md R54) -/

/-- The frame of a command that completes: the registers its rule does not name, the Filter, `FCOEF` and `MODCUT`,
the fault record and the command port are as before, no reserved bit of `CTRL` becomes set, and the response reports
no fault. `VOICE_CTRL` sets `FCOEF` and `MODCUT` together. The clauses that most commands meet by computation are
defaults, so a command's proof shows where it differs. -/
structure CompletedFrame (i : Instr) (s t : State) : Prop where
  registers : ∀ q, writes i q = false → t.regRead q = s.regRead q
  filter : actsOnFilter i = false → t.filter = s.filter := by intro _; rfl
  coefficients_kept : i ≠ .voiceCtrl → t.fcoef = s.fcoef ∧ t.voice.modcut = s.voice.modcut := by
    exact fun _ => ⟨rfl, rfl⟩
  coefficients_set : i = .voiceCtrl → t.fcoef = true ∧ ∃ m, t.voice.modcut = some (clampCutoff m) := by nofun
  ctrl : t.voice.ctrl = s.voice.ctrl ∨ ctrlWord t.voice.ctrl = t.voice.ctrl := by exact .inl rfl
  record : t.voice.fault = s.voice.fault ∧ t.voice.fcmd = s.voice.fcmd := by exact ⟨rfl, rfl⟩
  port : t.inflight = s.inflight ∧ t.pins = s.pins := by exact ⟨rfl, rfl⟩
  response : ∃ d0 d1 d2, t.rsp = some (okResponse d0 d1 d2) := by exact ⟨_, _, _, rfl⟩

/-- The frame of a command that updates one oscillator. -/
theorem completedFrame_setOsc {i : Instr} {s : State} {u : OscUnit} {o : Osc} {d : Word} {n : Nat}
    (hi : i ≠ .voiceCtrl) (h : ∀ r, writes i (.osc u r) = false → o.read r = (s.osc u).read r) :
    CompletedFrame i s (respond d 0#32 0#32 ((s.setOsc u o).draw n)) where
  registers q hq := by
    simp only [respond_regRead, draw_regRead]
    exact setOsc_regRead fun r hr => h r (hr ▸ hq)
  filter _ := by simp
  coefficients_kept _ := by simp
  coefficients_set h := absurd h hi
  ctrl := by simp
  record := by simp
  port := by simp

/-- The frame of a command that updates one envelope. -/
theorem completedFrame_setEnv {i : Instr} {s : State} {e : EnvUnit} {u : Env} {d : Word} {n : Nat}
    (hi : i ≠ .voiceCtrl) (hv : writes i (.voice .vstatus) = true)
    (h : ∀ r, writes i (.env e r) = false → u.read r = (s.env e).read r) :
    CompletedFrame i s (respond d 0#32 0#32 ((s.setEnv e u).draw n)) where
  registers q hq := by
    simp only [respond_regRead, draw_regRead]
    exact setEnv_regRead (by rintro rfl; simp [hv] at hq) fun r hr => h r (hr ▸ hq)
  filter _ := by simp
  coefficients_kept _ := by simp
  coefficients_set h := absurd h hi
  ctrl := by simp
  record := by simp
  port := by simp

/-- The frame of a command that answers and updates nothing. -/
theorem completedFrame_respond {i : Instr} (d : Word) (s : State) (hi : i ≠ .voiceCtrl) :
    CompletedFrame i s (respond d 0#32 0#32 s) where
  registers q _ := by simp
  coefficients_set h := absurd h hi

/-- A state whose units read as before outside the registers of a command. -/
theorem registers_of_units {i : Instr} {s t : State}
    (ho : ∀ u r, writes i (.osc u r) = false → (t.osc u).read r = (s.osc u).read r)
    (he : ∀ e r, writes i (.env e r) = false → (t.env e).read r = (s.env e).read r)
    (hv : ∀ r, writes i (.voice r) = false → t.readVoice r = s.readVoice r) :
    ∀ q, writes i q = false → t.regRead q = s.regRead q
  | .osc u r => ho u r
  | .env e r => he e r
  | .voice r => hv r

/-! ### One command after another -/

/-- R28: what an oscillator reads after its reset. -/
theorem oscReset_read (o : Osc) (r : OscReg) :
    (oscReset o).read r = if oscContinuous r then some 0#32 else o.read r := by cases r <;> rfl

/-- R33: what an envelope reads after its reset. -/
theorem envReset_read (u : Env) (r : EnvReg) :
    (envReset u).read r = if r.writable then u.read r else some 0#32 := by
  cases r
  case status => exact congrArg some (status_of_silent rfl rfl)
  all_goals rfl

theorem oscSquare_read_parameter (k : Nat) (q : Osc) (np : Word) (o : Osc) {r : OscReg} (hr : oscContinuous r = false) :
    (oscSquare k q np o).read r = o.read r := by
  have h : (oscSquare k q np o).read r = (oscReset o).read r :=
    Osc.read_of_parameters (by simp [oscSquare]) hr
  rw [h, oscReset_read, hr]
  rfl

theorem writeCommand_ok_cases {r : Reg} {v : Word} {s t : State} (h : writeCommand r v s = .ok t) :
    r.writable = true ∧ t = respond 0#32 0#32 0#32 (s.regWrite r v) := by
  unfold writeCommand at h
  split at h
  · next hr => cases h; exact ⟨hr, rfl⟩
  · cases h

/-- A write of the voice unit leaves `MODCUT` and the fault record, and sets no reserved bit of `CTRL`. -/
theorem Voice.write_frame (v : Voice) (r : VoiceReg) (w : Word) :
    (v.write r w).modcut = v.modcut ∧ (v.write r w).fault = v.fault ∧ (v.write r w).fcmd = v.fcmd ∧
      ((v.write r w).ctrl = v.ctrl ∨ ctrlWord (v.write r w).ctrl = (v.write r w).ctrl) := by
  cases r
  case ctrl => exact ⟨rfl, rfl, rfl, .inr (ctrlWord_ctrlWord w)⟩
  all_goals exact ⟨rfl, rfl, rfl, .inl rfl⟩

theorem writeCommand_frame {r : Reg} {v : Word} {s t : State} (h : writeCommand r v s = .ok t) :
    CompletedFrame (.wr r v) s t := by
  obtain ⟨hr, rfl⟩ := writeCommand_ok_cases h
  have hreg : ∀ q, writes (.wr r v) q = false → (s.regWrite r v).regRead q = s.regRead q := fun q hq => by
    rw [regWrite_regRead s q v hr, if_neg (by simpa [writes] using hq)]
  cases r with
  | osc u r =>
    exact completedFrame_setOsc (n := 0) nofun fun p hp => by simpa [State.regRead, State.regWrite] using hreg _ hp
  | env e r =>
    exact {
      registers := fun q hq => by rw [respond_regRead, hreg q hq]
      filter := fun _ => setEnv_filter _ _ _
      coefficients_kept := by simp [State.regWrite]
      ctrl := by simp [State.regWrite]
      record := by simp [State.regWrite]
      port := by simp [State.regWrite] }
  | voice r =>
    obtain ⟨hmodcut, hfault, hfcmd, hctrl⟩ := Voice.write_frame s.voice r v
    exact {
      registers := fun q hq => by rw [respond_regRead, hreg q hq]
      coefficients_kept := fun _ => ⟨rfl, hmodcut⟩
      ctrl := hctrl
      record := ⟨hfault, hfcmd⟩ }

theorem readCommand_frame {r : Reg} {s t : State} (h : readCommand r s = .ok t) : CompletedFrame (.rd r) s t := by
  obtain ⟨w, -, h⟩ := except_bind_eq_ok.mp h
  cases h
  exact completedFrame_respond _ _ nofun

theorem oscReset_frame (u : OscUnit) (s : State) :
    CompletedFrame (.oscReset u) s (respond 0#32 0#32 0#32 (s.setOsc u (oscReset (s.osc u)))) :=
  completedFrame_setOsc (n := 0) nofun fun r hr => by simp_all [writes, oscReset_read]

theorem oscNextCommand_frame {u : OscUnit} {s t : State} (h : oscNextCommand u s = .ok t) :
    CompletedFrame (.oscNext u) s t := by
  obtain ⟨s1, h1, h⟩ := except_bind_eq_ok.mp h
  obtain ⟨o, ho, rfl⟩ := oscStep_ok_cases h1
  cases h
  exact completedFrame_setOsc nofun fun r hr =>
    Osc.read_of_parameters (oscNext_keeps_parameters ho) (by simpa [writes] using hr)

theorem oscSquare_frame (u : OscUnit) (np : Word) (s : State) :
    CompletedFrame (.oscSquare u np) s (respond 0#32 0#32 0#32
      ((s.setOsc u (oscSquare s.nanDraws (s.osc u.other) np (s.osc u))).draw oscSquareDraws)) :=
  completedFrame_setOsc nofun fun r hr =>
    oscSquare_read_parameter _ _ _ _ (by simpa [writes] using hr)

theorem envReset_frame (e : EnvUnit) (s : State) :
    CompletedFrame (.envReset e) s (respond 0#32 0#32 0#32 (s.setEnv e (envReset (s.env e)))) :=
  completedFrame_setEnv (n := 0) nofun rfl fun r hr => by simp_all [writes, envReset_read]

theorem envNextCommand_frame {e : EnvUnit} {s t : State} (h : envNextCommand e s = .ok t) :
    CompletedFrame (.envNext e) s t := by
  obtain ⟨s1, h1, h⟩ := except_bind_eq_ok.mp h
  obtain ⟨u, hu, rfl⟩ := envStep_ok_cases h1
  cases h
  exact completedFrame_setEnv nofun rfl fun r hr =>
    Env.read_of_parameters (envNext_keeps_parameters hu) (by simpa [writes] using hr)

theorem envAttackCommand_frame {e : EnvUnit} {s t : State} (h : envAttackCommand e s = .ok t) :
    CompletedFrame (.envAttack e) s t := by
  obtain ⟨u, hu, h⟩ := except_bind_eq_ok.mp h
  obtain ⟨am, -, hu⟩ := except_bind_eq_ok.mp hu
  cases hu
  cases h
  exact completedFrame_setEnv nofun rfl fun r hr => by cases r <;> simp_all [writes, Env.read, EnvReg.writable]

theorem envReleaseCommand_frame {e : EnvUnit} {s t : State} (h : envReleaseCommand e s = .ok t) :
    CompletedFrame (.envRelease e) s t := by
  obtain ⟨s1, h1, h⟩ := except_bind_eq_ok.mp h
  obtain ⟨rm, -, rfl⟩ := releaseStep_ok_cases h1
  cases h
  exact completedFrame_setEnv (n := 0) nofun rfl fun r hr => by cases r <;> simp_all [writes, Env.read]

theorem envNudge_frame (e : EnvUnit) (s : State) :
    CompletedFrame (.envNudge e) s (respond 0#32 0#32 0#32
      ((s.setEnv e { s.env e with level := nudged s.nanDraws (s.env e) }).draw 1)) :=
  completedFrame_setEnv nofun rfl fun r hr => by cases r <;> simp_all [writes, Env.read]

theorem voiceReset_frame (s : State) :
    CompletedFrame .voiceReset s (respond 0#32 0#32 0#32
      { s with
        osc1 := oscReset s.osc1
        osc2 := oscReset s.osc2
        aenv := envReset s.aenv
        fenv := envReset s.fenv
        voice := voiceReset s.voice
        filter := Config.filterReset s.filter }) where
  registers := registers_of_units
    (fun u r hr => by cases u <;> simp_all [writes, oscReset_read])
    (fun e r hr => by cases e <;> simp_all [writes, envReset_read])
    (fun r hr => by cases r <;> simp [writes] at hr <;> rfl)
  filter h := by cases h

theorem renderCommand_frame {n : Word} {s t : State} (h : renderCommand n s = .ok t) :
    CompletedFrame (.voiceRender n) s t := by
  obtain ⟨o1, o2, u, y, f, h1, h2, hu, -, rfl⟩ := renderCommand_ok_cases h
  exact {
    registers := registers_of_units
      (fun
        | .osc1, r, hr => Osc.read_of_parameters (oscNext_keeps_parameters h1) hr
        | .osc2, r, hr => Osc.read_of_parameters (oscNext_keeps_parameters h2) hr)
      (fun
        | .aenv, r, hr => Env.read_of_parameters (envNext_keeps_parameters hu) (by simpa [writes] using hr)
        | .fenv, r, _ => rfl)
      (fun r hr => by cases r <;> simp [writes] at hr <;> rfl)
    filter := fun h => by cases h }

theorem voiceReleaseCommand_frame {s t : State} (h : voiceReleaseCommand s = .ok t) :
    CompletedFrame .voiceRelease s t := by
  obtain ⟨ra, rf, -, -, rfl⟩ := voiceReleaseCommand_ok_cases h
  exact {
    registers := registers_of_units
      (fun u r _ => by cases u <;> rfl)
      (fun e r hr => by cases e <;> cases r <;> simp [writes] at hr <;> rfl)
      (fun r hr => by cases r <;> simp [writes] at hr <;> rfl) }

theorem voicePan_frame (l r : Word) (n : Nat) (s : State) :
    CompletedFrame .voicePan s (respond 0#32 0#32 0#32
      (({ s with voice := { s.voice with panl := l, panr := r } } : State).draw n)) where
  registers := registers_of_units
    (fun u r _ => by cases u <;> rfl)
    (fun e r _ => by cases e <;> rfl)
    (fun r hr => by cases r <;> simp [writes] at hr <;> rfl)

theorem ctrlCommand_frame {s t : State} (h : ctrlCommand s = .ok t) : CompletedFrame .voiceCtrl s t := by
  obtain ⟨g, tp, p, u, c, fm, fd, pb, q, -, -, -, hu, -, -, -, -, -, rfl⟩ := ctrlCommand_ok_cases h
  exact {
    registers := registers_of_units
      (fun u r _ => by cases u <;> rfl)
      (fun
        | .aenv, r, _ => rfl
        | .fenv, r, hr => Env.read_of_parameters (envNext_keeps_parameters hu) (by simpa [writes] using hr))
      (fun r hr => by cases r <;> simp [writes] at hr <;> rfl)
    filter := fun h => by cases h
    coefficients_kept := fun h => absurd rfl h
    coefficients_set := fun _ => ⟨rfl, _, rfl⟩ }

theorem setperCommand_frame {s t : State} (h : setperCommand s = .ok t) : CompletedFrame .voiceSetper s t := by
  obtain ⟨p, pb, dt, -, -, -, rfl⟩ := setperCommand_ok_cases h
  exact {
    registers := registers_of_units
      (fun u r hr => by cases u <;> cases r <;> simp [writes] at hr <;> rfl)
      (fun e r _ => by cases e <;> rfl)
      (fun r _ => by cases r <;> rfl) }

/-! ### `ILLEGAL_CMD` is no fault of a command the block has (60_exceptions.md R162) -/

theorem need_ne_illegal (r : Option Word) : need r ≠ .error .illegalCmd := by simp [need_eq_error]

theorem oscStep_ne_illegal (u : OscUnit) (s : State) : oscStep u s ≠ .error .illegalCmd := fun h => by
  rcases except_bind_eq_error.mp h with h | ⟨_, -, h⟩
  · exact oscNext_error_cause h rfl
  · cases h

theorem envStep_ne_illegal (e : EnvUnit) (s : State) : envStep e s ≠ .error .illegalCmd := fun h => by
  rcases except_bind_eq_error.mp h with h | ⟨_, -, h⟩
  · cases envNext_error_cause h
  · cases h

theorem releaseStep_ne_illegal (e : EnvUnit) (s : State) : releaseStep e s ≠ .error .illegalCmd := by
  simp [releaseStep, envRelease, except_bind_eq_error, need_ne_illegal]

theorem filterSlot_ne_illegal (s : State) (x : Word) : filterSlot s x ≠ .error .illegalCmd := by
  unfold filterSlot
  split
  · nofun
  · split <;> nofun

/-! ### Every command -/

theorem commit_frame_or_fault {i : Instr} {s t : State} {r : Except Cause State} (h : commit i s r = .next t)
    (hok : r = .ok t → CompletedFrame i s t) (herr : i.wellFormed = true → r ≠ .error .illegalCmd) :
    CompletedFrame i s t ∨ ∃ c, (i.wellFormed = true → c ≠ .illegalCmd) ∧ t = raiseFault c i.cmdWord s := by
  rcases commit_cases h with hr | ⟨c, hr, ht⟩
  · exact .inl (hok hr)
  · exact .inr ⟨c, fun hi hc => herr hi (hc ▸ hr), ht⟩

/-- A command ends with the frame of one that completes, or with its fault, which for a command the block has is no
`ILLEGAL_CMD`. -/
theorem exec_cases {i : Instr} {s t : State} (h : exec i s = .next t) :
    CompletedFrame i s t ∨ ∃ c, (i.wellFormed = true → c ≠ .illegalCmd) ∧ t = raiseFault c i.cmdWord s := by
  cases i with
  | nop => cases h; exact .inl (completedFrame_respond _ s nofun)
  | wr r v =>
    exact commit_frame_or_fault h writeCommand_frame fun (hr : r.writable = true) => by simp [writeCommand, hr]
  | rd r =>
    exact commit_frame_or_fault h readCommand_frame fun _ => by
      simp [readCommand, except_bind_eq_error, need_ne_illegal]
  | oscReset u => cases h; exact .inl (oscReset_frame u s)
  | envReset e => cases h; exact .inl (envReset_frame e s)
  | voiceReset => cases h; exact .inl (voiceReset_frame s)
  | oscNext u =>
    exact commit_frame_or_fault h oscNextCommand_frame fun _ => by
      simp [oscNextCommand, except_bind_eq_error, oscStep_ne_illegal]
  | envNext e =>
    exact commit_frame_or_fault h envNextCommand_frame fun _ => by
      simp [envNextCommand, except_bind_eq_error, envStep_ne_illegal]
  | voiceRender n =>
    exact commit_frame_or_fault h renderCommand_frame fun _ => by
      simp [renderCommand, except_bind_eq_error, oscStep_ne_illegal, filterSlot_ne_illegal, envStep_ne_illegal]
  | envAttack e =>
    exact commit_frame_or_fault h envAttackCommand_frame fun _ => by
      simp [envAttackCommand, envAttack, except_bind_eq_error, need_ne_illegal]
  | envRelease e =>
    exact commit_frame_or_fault h envReleaseCommand_frame fun _ => by
      simp [envReleaseCommand, except_bind_eq_error, releaseStep_ne_illegal]
  | voiceRelease =>
    exact commit_frame_or_fault h voiceReleaseCommand_frame fun _ => by
      simp [voiceReleaseCommand, except_bind_eq_error, releaseStep_ne_illegal]
  | envNudge e => cases h; exact .inl (envNudge_frame e s)
  | oscSquare u np => cases h; exact .inl (oscSquare_frame u np s)
  | voicePan => cases h; exact .inl (voicePan_frame _ _ _ s)
  | voiceCtrl =>
    exact commit_frame_or_fault h ctrlCommand_frame fun _ => by
      simp [ctrlCommand, except_bind_eq_error, need_ne_illegal, envStep_ne_illegal]
  | voiceSetper =>
    exact commit_frame_or_fault h setperCommand_frame fun _ => by
      simp [setperCommand, except_bind_eq_error, need_ne_illegal]

/-! ## The resets keep the parameters (R28, R33) -/

theorem regRead_of_oscReset {u : OscUnit} {s t : State} (h : t.osc u = oscReset (s.osc u)) (r : OscReg) :
    t.regRead (.osc u r) = if oscContinuous r then some 0#32 else s.regRead (.osc u r) := by
  simp [State.regRead, h, oscReset_read]

theorem regRead_of_envReset {e : EnvUnit} {s t : State} (h : t.env e = envReset (s.env e)) (r : EnvReg) :
    t.regRead (.env e r) = if r.writable then s.regRead (.env e r) else some 0#32 := by
  simp [State.regRead, h, envReset_read]

/-- Settles O28: both resets put `oscReset` of the unit in its place. -/
theorem oscillatorResetsKeepParameters : Obligations.OscillatorResetsKeepParameters := by
  have key (u : OscUnit) (s t : State) (h : t.osc u = oscReset (s.osc u)) :=
    And.intro (fun r (hr : oscContinuous r = true) => (regRead_of_oscReset h r).trans (if_pos hr))
      (fun r (hr : oscContinuous r = false) => (regRead_of_oscReset h r).trans (if_neg (by simp [hr])))
  intro u s
  simp only [List.forall_mem_cons]
  exact ⟨⟨_, rfl, key u s _ (by simp)⟩, ⟨_, rfl, key u s _ (by cases u <;> rfl)⟩, by simp⟩

/-- Settles O37: both resets put `envReset` of the unit in its place. -/
theorem envelopeResetsKeepParameters : Obligations.EnvelopeResetsKeepParameters := by
  have key (e : EnvUnit) (s t : State) (h : t.env e = envReset (s.env e)) :=
    And.intro (fun r (hr : EnvReg.writable r = false) => (regRead_of_envReset h r).trans (if_neg (by simp [hr])))
      (fun r (hr : EnvReg.writable r = true) => (regRead_of_envReset h r).trans (if_pos hr))
  intro e s
  simp only [List.forall_mem_cons]
  exact ⟨⟨_, rfl, key e s _ (by simp)⟩, ⟨_, rfl, key e s _ (by cases e <;> rfl)⟩, by simp⟩

/-! ## Set flags and `FCOEF` (R22, R23, R45) -/

/-- The commands that may write a register with a set flag. -/
theorem writes_hasSetFlag {i : Instr} {q : Reg} (hq : hasSetFlag q = true) (h : writes i q = true) :
    (∃ v, i = .wr q v) ∨ (i = .voiceSetper ∧ ∃ u, q = .osc u .period) ∨
      (i = .voiceCtrl ∧ (q = .voice .modcut ∨ q = .voice .period)) := by
  rcases q with ⟨u, r⟩ | ⟨e, r⟩ | r
  · cases i <;> cases r <;> simp_all [writes, hasSetFlag, oscContinuous]
  · cases i <;> simp_all [writes, hasSetFlag]
    all_goals cases r <;> simp_all [EnvReg.writable]
  · cases i <;> cases r <;> simp_all [writes, hasSetFlag, VoiceReg.writable]

/-- A register with a set flag after a command: as before; or it holds a value, and held one before or is named. -/
theorem setFlag_cases {i : Instr} {s t : State} {q : Reg} (h : exec i s = .next t) (hq : hasSetFlag q = true) :
    t.regRead q = s.regRead q ∨
    ((t.regRead q).isSome = true ∧ ((s.regRead q).isSome = true ∨ (∃ v, i = .wr q v) ∨
      (i = .voiceSetper ∧ ∃ u, q = .osc u .period) ∨ (i = .voiceCtrl ∧ q = .voice .modcut))) := by
  have faulted {w : CmdWord} {r : Except Cause State} (hr : ∃ c, r = .error c ∧ t = raiseFault c w s) :
      t.regRead q = s.regRead q := by
    obtain ⟨c, -, rfl⟩ := hr
    exact raiseFault_regRead c w s hq
  cases hw : writes i q with
  | false =>
    rcases exec_cases h with hf | ⟨c, -, rfl⟩
    · exact .inl (hf.registers q hw)
    · exact .inl (raiseFault_regRead c _ s hq)
  | true =>
    rcases writes_hasSetFlag hq hw with ⟨v, rfl⟩ | ⟨rfl, u, rfl⟩ | ⟨rfl, hreg⟩
    · rcases commit_cases h with hok | hfault
      · obtain ⟨hr, rfl⟩ := writeCommand_ok_cases hok
        exact .inr ⟨by simp [regWrite_regRead _ _ _ hr], .inr (.inl ⟨v, rfl⟩)⟩
      · exact .inl (faulted hfault)
    · rcases commit_cases h with hok | hfault
      · obtain ⟨p, pb, dt, -, -, -, rfl⟩ := setperCommand_ok_cases hok
        exact .inr ⟨by cases u <;> rfl, .inr (.inr (.inl ⟨rfl, u, rfl⟩))⟩
      · exact .inl (faulted hfault)
    · rcases commit_cases h with hok | hfault
      · obtain ⟨g, tp, p, u, c, fm, fd, pb, fq, -, -, hp, -, -, -, -, -, -, rfl⟩ := ctrlCommand_ok_cases hok
        rcases hreg with rfl | rfl
        · exact .inr ⟨rfl, .inr (.inr (.inr ⟨rfl, rfl⟩))⟩
        · exact .inr ⟨rfl, .inl (by simp [State.regRead, State.readVoice, hp])⟩
      · exact .inl (faulted hfault)

/-- Settles O19: a register without a set flag always holds a value; `setFlag_cases` is what happens to the others. -/
theorem setFlagsChangeOnlyWhereNamed : Obligations.SetFlagsChangeOnlyWhereNamed := by
  intro i s t q h
  cases hq : hasSetFlag q with
  | false =>
    have hs := regRead_isSome_of_not_hasSetFlag s hq
    exact ⟨fun _ => regRead_isSome_of_not_hasSetFlag t hq, fun hn => by simp [hn] at hs⟩
  | true =>
    rcases setFlag_cases h hq with heq | ⟨ht, hs | hnamed⟩
    · rw [heq]
      exact ⟨id, fun hn hs => absurd hn hs⟩
    · exact ⟨fun _ => ht, fun hn => by simp [hn] at hs⟩
    · exact ⟨fun _ => ht, fun _ _ => hnamed⟩

/-- The good parameters are those that the checks of a cycle start pass (41_oscillator.md R91, R93). -/
theorem parametersGood_iff {k : Nat} {per amp : Option Word} {pm : Word} :
    parametersGood k per amp pm = true ↔
      ∃ p a, per = some p ∧ amp = some a ∧ cycleCheck (k + 1) p pm = .ok () := by
  have check : ∀ p, cycleCheck (k + 1) p pm = .ok () ↔ fgt pm Config.zero = true ∧
      fgt (phaseMaxSamples (k + 3) (halfPeriod (k + 1) p pm)) Config.zero = true ∧
      isFinite (halfPeriod (k + 1) p pm) = true := by
    intro p
    unfold cycleCheck
    split <;> simp_all
  cases per with
  | none => simp [parametersGood]
  | some p =>
    cases amp with
    | none => simp [parametersGood]
    | some a => simp [check, parametersGood, halfPeriod, phaseMaxSamples, and_assoc]

/-- `OSC_NEXT` completes on a unit that is inside a cycle or has good parameters. -/
theorem oscNext_ok_of_oscReady {k : Nat} {o : Osc} (h : oscReady k o = true) : ∃ o', oscNext k o = .ok o' := by
  cases hs : startsCycle k o with
  | false => exact ⟨inCycle (k + 1) (nextPhase k o) o, by simp [oscNext, hs]⟩
  | true =>
    have hs' : fle (fadd k o.phase o.inc) Config.piOver4 = true := hs
    obtain ⟨p, a, hp, ha, hc⟩ := parametersGood_iff.mp (by simpa [oscReady, hs'] using h)
    exact ⟨cycleStart (k + 1) (nextPhase k o) p o.pmod a o, by simp [oscNext, hs, hp, ha, hc]⟩

theorem oscStep_of_ok {u : OscUnit} {s : State} {o : Osc} (h : oscNext s.nanDraws (s.osc u) = .ok o) :
    oscStep u s = .ok ((s.setOsc u o).draw oscNextDraws) := by
  simp [oscStep, h]

theorem filterSlot_error {s : State} (hb : s.voice.fbyp = false) (hc : s.fcoef = false) (x : Word) :
    filterSlot s x = .error .unsetOperand := by
  simp [filterSlot, hb, hc]

/-- A render that faults, with its command word. -/
theorem exec_voiceRender_of_error {n : Word} {s : State} {c : Cause} (h : renderCommand n s = .error c) :
    exec (.voiceRender n) s = .next (raiseFault c 0x4400#16 s) := by
  have hw : (Instr.voiceRender n).cmdWord = 0x4400#16 := by
    simp [Instr.cmdWord, Instr.op, Instr.unit, Instr.reg, voiceNumber]
  rw [← hw, ← commit_error, ← h]
  rfl

/-- Settles O20: the frame gives `FCOEF` after every command; a filtered render without coefficients cannot pass its
Filter slot, and reaches it when both oscillators are ready. -/
theorem fcoefIsSetByVoiceCtrlOnly : Obligations.FcoefIsSetByVoiceCtrlOnly := by
  refine ⟨rfl, fun i s t h => ?_, fun n s (hb : s.voice.fbyp = false) hc => ⟨?_, fun h1 h2 => ?_⟩⟩
  · rcases exec_cases h with hf | ⟨c, -, rfl⟩
    · obtain ⟨d0, d1, d2, hr⟩ := hf.response
      by_cases hi : i = .voiceCtrl
      · simp [hf.coefficients_set hi, hi, hr, okResponse]
      · simp [hf.coefficients_kept hi, hi]
    · simp [faultResponse]
  · cases hr : renderCommand n s with
    | ok t =>
      obtain ⟨o1, o2, u, y, f, -, -, -, hf, -⟩ := renderCommand_ok_cases hr
      rw [filterSlot_error hb hc] at hf
      cases hf
    | error c => exact ⟨c, exec_voiceRender_of_error hr⟩
  · obtain ⟨o1, ho1⟩ := oscNext_ok_of_oscReady h1
    obtain ⟨o2, ho2⟩ := oscNext_ok_of_oscReady h2
    apply exec_voiceRender_of_error
    have hstep1 := oscStep_of_ok (u := .osc1) ho1
    have hstep2 : oscStep .osc2 ((s.setOsc .osc1 o1).draw oscNextDraws) = _ := oscStep_of_ok (u := .osc2) ho2
    simp only [renderCommand, hstep1, hstep2, except_bind_ok]
    rw [filterSlot_error (by simpa using hb) (by simpa using hc)]
    rfl

/-! ## Legal words (30_encoding.md R67 to R69)

The decoder goes by the fields of a word, the rows of R68 by its bits: both are brought to `legalFields`. -/

/-- Whether the decoder knows a command for the fields of a word (R64, R67). -/
def legalFields (op u : BitVec 4) (r : BitVec 8) : Bool :=
  (unitAt u).any fun s =>
    if op = 1#4 then (regAt s r).any Reg.writable
    else if op = 2#4 then (regAt s r).isSome
    else (commandAt op s 0#32).isSome && r == 0#8

theorem isSome_commandAt (op : BitVec 4) (s : UnitSel) (d : Word) :
    (commandAt op s d).isSome = (commandAt op s 0#32).isSome := by
  unfold commandAt
  split <;> rfl

theorem commandAt_register (s : UnitSel) (d : Word) : commandAt 1#4 s d = none ∧ commandAt 2#4 s d = none := by
  cases s <;> exact ⟨rfl, rfl⟩

theorem commandAt_reserved {op : BitVec 4} (s : UnitSel) (d : Word) (h : 0xC#4 ≤ op) : commandAt op s d = none := by
  unfold commandAt
  split <;> simp_all [BitVec.le_def]

theorem isSome_decodeWr (s : UnitSel) (r : BitVec 8) (d : Word) :
    (decodeWr s r d).instr?.isSome = (regAt s r).any Reg.writable := by
  unfold decodeWr
  cases regAt s r with
  | none => rfl
  | some q => cases h : q.writable <;> simp [h, Decoded.instr?]

theorem isSome_decodeRd (s : UnitSel) (r : BitVec 8) : (decodeRd s r).instr?.isSome = (regAt s r).isSome := by
  unfold decodeRd
  cases regAt s r <;> rfl

theorem isSome_decodeOp (op : BitVec 4) (s : UnitSel) (r : BitVec 8) (d : Word) :
    (decodeOp op s r d).instr?.isSome = ((commandAt op s 0#32).isSome && r == 0#8) := by
  rw [← isSome_commandAt op s d]
  unfold decodeOp
  cases commandAt op s d with
  | none => rfl
  | some i => by_cases h : r = 0#8 <;> simp [h, Decoded.instr?]

/-- A word decodes exactly when its fields are legal, whatever the data word. -/
theorem isSome_decode (w : CmdWord) (d : Word) :
    (decode w d).instr?.isSome = legalFields (opField w) (unitField w) (regField w) := by
  have reserved : ∀ op : BitVec 4, 0xC#4 ≤ op → op ≠ 1#4 ∧ op ≠ 2#4 := by decide
  unfold decode legalFields
  split
  · next h => simp [reserved _ h, commandAt_reserved _ _ h, Decoded.instr?]
  · cases unitAt (unitField w) with
    | none => rfl
    | some s =>
      simp only [Option.any_some]
      split
      · exact isSome_decodeWr s _ d
      · split
        · exact isSome_decodeRd s _
        · exact isSome_decodeOp _ s _ d

theorem cmdWord_eq_append (w : CmdWord) : w.extractLsb' 8 8 ++ w.extractLsb' 0 8 = w :=
  BitVec.extractLsb'_append_extractLsb' (w := 8) (len := 8)

theorem append_eq_append_iff {m n : Nat} {a c : BitVec m} {b d : BitVec n} : a ++ b = c ++ d ↔ a = c ∧ b = d := by
  refine ⟨fun h => ⟨?_, ?_⟩, fun ⟨h1, h2⟩ => by rw [h1, h2]⟩
  · rw [← BitVec.extractLsb'_append_eq_left (a := a) (b := b), h, BitVec.extractLsb'_append_eq_left]
  · rw [← BitVec.extractLsb'_append_eq_right (a := a) (b := b), h, BitVec.extractLsb'_append_eq_right]

/-- A match of a word against a row, byte by byte. -/
theorem matches_append (hi r a b m n : BitVec 8) :
    ((hi ++ r : CmdWord) &&& (m ++ n) == a ++ b) = (hi &&& m == a && r &&& n == b) := by
  rw [Bool.eq_iff_iff, BitVec.and_append (w := 8) (v := 8)]
  simp only [beq_iff_eq, Bool.and_eq_true]
  exact append_eq_append_iff

/-- The rows of R68 other than `WR` and `RD` ask for `REG` = 0. -/
theorem fixedRows_low_byte : ∀ row ∈ fixedRows, row.1.extractLsb' 0 8 = 0#8 ∧ row.2.extractLsb' 0 8 = 0xFF#8 := by
  simp [fixedRows]

theorem fixedRow_matches (hi r : BitVec 8) {row : CmdWord × CmdWord} (h : row ∈ fixedRows) :
    ((hi ++ r : CmdWord) &&& row.2 == row.1) = ((hi ++ 0#8 : CmdWord) &&& row.2 == row.1 && r == 0#8) := by
  obtain ⟨h1, h2⟩ := fixedRows_low_byte row h
  have hr : r &&& 0xFF#8 = r := BitVec.and_allOnes
  rw [← cmdWord_eq_append row.1, ← cmdWord_eq_append row.2, h1, h2, matches_append, matches_append, hr]
  simp

/-- Whether a word matches a row other than `WR` and `RD` is a question of its high byte, and of `REG` = 0. -/
theorem fixedRows_any (hi r : BitVec 8) :
    (fixedRows.any fun row => (hi ++ r : CmdWord) &&& row.2 == row.1) =
      ((fixedRows.any fun row => (hi ++ 0#8 : CmdWord) &&& row.2 == row.1) && r == 0#8) := by
  rw [Bool.eq_iff_iff]
  simp only [List.any_eq_true, Bool.and_eq_true]
  constructor
  · rintro ⟨row, hrow, h⟩
    rw [fixedRow_matches hi r hrow, Bool.and_eq_true] at h
    exact ⟨⟨row, hrow, h.1⟩, h.2⟩
  · rintro ⟨⟨row, hrow, h⟩, hr⟩
    exact ⟨row, hrow, by rw [fixedRow_matches hi r hrow, h, hr]; rfl⟩

/-- R64 and R68 name the same operations and units. -/
theorem fixedRows_any_high : ∀ hi : BitVec 8,
    (fixedRows.any fun row => (hi ++ 0#8 : CmdWord) &&& row.2 == row.1) =
      (unitAt (hi.extractLsb' 0 4)).any fun s => (commandAt (hi.extractLsb' 4 4) s 0#32).isSome := by
  decide

/-- The `WR` pairs of R69 are the RW registers of 20_memory.md R50. -/
theorem legalWrPair_eq : ∀ (u : BitVec 4) (r : BitVec 8),
    legalWrPair u.toNat r.toNat = (unitAt u).any fun s => (regAt s r).any Reg.writable := by
  decide

/-- The `RD` pairs of R69 are the registers of 20_memory.md R50. -/
theorem legalRdPair_eq : ∀ (u : BitVec 4) (r : BitVec 8),
    legalRdPair u.toNat r.toNat = (unitAt u).any fun s => (regAt s r).isSome := by
  decide

/-- The `WR` and `RD` rows of R68 ask for `OP` only. -/
theorem op_matches (hi r : BitVec 8) :
    ((hi ++ r : CmdWord) &&& 0xF000#16 == 0x1000#16) = (hi.extractLsb' 4 4 == 1#4) ∧
    ((hi ++ r : CmdWord) &&& 0xF000#16 == 0x2000#16) = (hi.extractLsb' 4 4 == 2#4) := by
  have h : ∀ hi : BitVec 8, (hi &&& 0xF0#8 == 0x10#8) = (hi.extractLsb' 4 4 == 1#4) ∧
      (hi &&& 0xF0#8 == 0x20#8) = (hi.extractLsb' 4 4 == 2#4) := by decide
  have h1 := matches_append hi r 0x10#8 0#8 0xF0#8 0#8
  have h2 := matches_append hi r 0x20#8 0#8 0xF0#8 0#8
  rw [(h hi).1] at h1
  rw [(h hi).2] at h2
  simpa using And.intro h1 h2

theorem append_toNat_fields (hi r : BitVec 8) :
    (hi ++ r : CmdWord).toNat / 256 % 16 = (hi.extractLsb' 0 4).toNat ∧ (hi ++ r : CmdWord).toNat % 256 = r.toNat := by
  rw [BitVec.toNat_append, ← Nat.shiftLeft_add_eq_or_of_lt r.isLt, Nat.shiftLeft_eq, BitVec.extractLsb'_toNat]
  omega

/-- R68 and R69 list what R64 and R67 say of the fields. -/
theorem legalWord_eq_legalFields (w : CmdWord) :
    legalWord w = legalFields (opField w) (unitField w) (regField w) := by
  obtain ⟨hi, r, rfl⟩ : ∃ hi r : BitVec 8, hi ++ r = w := ⟨_, _, cmdWord_eq_append w⟩
  have ho : opField (hi ++ r) = hi.extractLsb' 4 4 := BitVec.extractLsb'_append_eq_of_le (by decide)
  have hu : unitField (hi ++ r) = hi.extractLsb' 0 4 := BitVec.extractLsb'_append_eq_of_le (by decide)
  have hr : regField (hi ++ r) = r := BitVec.extractLsb'_append_eq_right
  obtain ⟨h1, h2⟩ := op_matches hi r
  obtain ⟨hn1, hn2⟩ := append_toNat_fields hi r
  rw [ho, hu, hr, legalWord, fixedRows_any, fixedRows_any_high, h1, h2, hn1, hn2, legalWrPair_eq,
    legalRdPair_eq, legalFields]
  cases unitAt (hi.extractLsb' 0 4) with
  | none => simp
  | some s =>
    simp only [Option.any_some]
    split
    · next h => simp [h, commandAt_register]
    · split
      · next h => simp [h, commandAt_register]
      · next hne1 hne2 =>
        rw [beq_false_of_ne hne1, beq_false_of_ne hne2, Bool.false_and, Bool.false_and, Bool.or_false, Bool.or_false]

/-- R67, R68, R69: the legal words are those that decode. -/
theorem isSome_decode_eq_legalWord (w : CmdWord) (d : Word) : (decode w d).instr?.isSome = legalWord w := by
  rw [isSome_decode, legalWord_eq_legalFields]

/-- A register is found at its own unit number and index. -/
theorem regAt_index (r : Reg) : (unitAt r.unit).bind (fun s => regAt s r.index) = some r := by
  cases r with
  | osc u r => cases u <;> cases r <;> rfl
  | env e r => cases e <;> cases r <;> rfl
  | voice r => cases r <;> rfl

/-- The command word of a command is legal exactly when the block has the command. -/
theorem legalWord_cmdWord (i : Instr) : legalWord i.cmdWord = i.wellFormed := by
  obtain ⟨hop, hunit, hreg⟩ := Laws.CommandFields.fields_of_cmdWord i
  rw [legalWord_eq_legalFields, hop, hunit, hreg]
  cases i with
  | wr r v =>
    obtain ⟨s, hs, hr⟩ := Option.bind_eq_some_iff.mp (regAt_index r)
    simp [legalFields, Instr.op, Instr.unit, Instr.reg, Instr.wellFormed, hs, hr]
  | rd r =>
    obtain ⟨s, hs, hr⟩ := Option.bind_eq_some_iff.mp (regAt_index r)
    simp [legalFields, Instr.op, Instr.unit, Instr.reg, Instr.wellFormed, hs, hr]
  | oscReset u | oscNext u | oscSquare u np => cases u <;> rfl
  | envReset e | envNext e | envAttack e | envRelease e | envNudge e => cases e <;> rfl
  | nop | voiceReset | voiceRender n | voiceRelease | voicePan | voiceCtrl | voiceSetper => rfl

theorem decodeWr_ok_cases {s : UnitSel} {r : BitVec 8} {d : Word} {i : Instr} (h : decodeWr s r d = .ok i) :
    ∃ q, regAt s r = some q ∧ q.writable = true ∧ i = .wr q d := by
  unfold decodeWr at h
  split at h
  · cases h
  · next q hq =>
    split at h
    · next hw => cases h; exact ⟨q, hq, hw, rfl⟩
    · cases h

theorem decodeRd_ok_cases {s : UnitSel} {r : BitVec 8} {i : Instr} (h : decodeRd s r = .ok i) :
    ∃ q, regAt s r = some q ∧ i = .rd q := by
  unfold decodeRd at h
  split at h
  · cases h
  · next q hq => cases h; exact ⟨q, hq, rfl⟩

theorem decodeOp_ok_cases {op : BitVec 4} {s : UnitSel} {r : BitVec 8} {d : Word} {i : Instr}
    (h : decodeOp op s r d = .ok i) : commandAt op s d = some i ∧ r = 0#8 := by
  unfold decodeOp at h
  split at h
  · cases h
  · next hi =>
    split at h
    · next hr => cases h; exact ⟨hi, hr⟩
    · cases h

/-- What a word that decodes gives, by its fields. -/
theorem decode_ok_cases {w : CmdWord} {d : Word} {i : Instr} (h : decode w d = .ok i) :
    ∃ s, unitAt (unitField w) = some s ∧
      ((opField w = 1#4 ∧ ∃ q, regAt s (regField w) = some q ∧ q.writable = true ∧ i = .wr q d) ∨
       (opField w = 2#4 ∧ ∃ q, regAt s (regField w) = some q ∧ i = .rd q) ∨
       (commandAt (opField w) s d = some i ∧ regField w = 0#8)) := by
  unfold decode at h
  split at h
  · cases h
  split at h
  · cases h
  · next s hs =>
    refine ⟨s, hs, ?_⟩
    split at h
    · next hop => exact .inl ⟨hop, decodeWr_ok_cases h⟩
    · split at h
      · next hop => exact .inr (.inl ⟨hop, decodeRd_ok_cases h⟩)
      · exact .inr (.inr (decodeOp_ok_cases h))

theorem commandAt_wellFormed {op : BitVec 4} {s : UnitSel} {d : Word} {i : Instr} (h : commandAt op s d = some i) :
    i.wellFormed = true := by
  unfold commandAt at h
  split at h <;> cases h <;> rfl

/-- R67 item 6: the decoder gives only commands the block has. -/
theorem decode_wellFormed {w : CmdWord} {d : Word} {i : Instr} (h : decode w d = .ok i) : i.wellFormed = true := by
  obtain ⟨s, -, ⟨-, q, -, hq, rfl⟩ | ⟨-, q, -, rfl⟩ | ⟨hi, -⟩⟩ := decode_ok_cases h
  · exact hq
  · rfl
  · exact commandAt_wellFormed hi

/-! ## The invariant of the state -/

/-- R152: what `VOICE_CTRL` stores in `MODCUT`. -/
theorem clampCutoff_range (m : Word) :
    isNaN (clampCutoff m) = true ∨
      (fle Config.cutMin (clampCutoff m) = true ∧ fle (clampCutoff m) Config.cutMax = true) := by
  cases hm : isNaN m with
  | true => exact .inl (by rw [clampCutoff, fclamp_of_isNaN _ _ hm, hm])
  | false => exact .inr (fclamp_in_range (by decide) hm)

/-- A command that completes keeps the invariant: `VOICE_CTRL` sets `FCOEF` and a clamped `MODCUT`, and of the rest
that the invariant speaks of only `CTRL` is written, without its reserved bits. -/
theorem State.Inv.of_completedFrame {i : Instr} {s t : State} (hs : s.Inv) (h : CompletedFrame i s t) : t.Inv := by
  obtain ⟨hfault, hfcmd⟩ := h.record
  obtain ⟨hflight, -⟩ := h.port
  obtain ⟨d0, d1, d2, hrsp⟩ := h.response
  have hcoef : t.fcoef = t.voice.modcut.isSome ∧ ∀ m, t.voice.modcut = some m →
      isNaN m = true ∨ (fle Config.cutMin m = true ∧ fle m Config.cutMax = true) := by
    by_cases hi : i = .voiceCtrl
    · obtain ⟨hf, m, hm⟩ := h.coefficients_set hi
      rw [hf, hm]
      exact ⟨rfl, fun x hx => Option.some.inj hx ▸ clampCutoff_range m⟩
    · obtain ⟨hf, hm⟩ := h.coefficients_kept hi
      rw [hf, hm]
      exact ⟨hs.coefficients, hs.cutoff_range⟩
  exact {
    ctrl_reserved := h.ctrl.elim (fun hc => by rw [hc, hs.ctrl_reserved]) id
    fault_codes := by rw [hfault]; exact hs.fault_codes
    fcmd_reserved := by rw [hfcmd]; exact hs.fcmd_reserved
    no_fault_no_word := by rw [hfault, hfcmd]; exact hs.no_fault_no_word
    illegal_cause := by rw [hfault, hfcmd]; exact hs.illegal_cause
    legal_cause := by rw [hfault, hfcmd]; exact hs.legal_cause
    coefficients := hcoef.1
    cutoff_range := hcoef.2
    in_flight := by rw [hflight]; exact hs.in_flight
    response := by
      rw [hrsp]
      rintro _ ⟨⟩
      exact ⟨fun _ => rfl, nofun⟩ }

/-- The clauses of the invariant on the fault record (R41, R42; 60_exceptions.md R160, R162). -/
structure RecordInv (fault fcmd : Word) : Prop where
  codes : fault.toNat ≤ 4
  reserved : fcmdWord fcmd = fcmd
  no_fault : fault = 0#32 → fcmd = 0#32
  illegal : fault = 1#32 → legalWord (fcmd.setWidth 16) = false
  legal : 2 ≤ fault.toNat → legalWord (fcmd.setWidth 16) = true

theorem State.Inv.record {s : State} (hs : s.Inv) : RecordInv s.voice.fault s.voice.fcmd :=
  ⟨hs.fault_codes, hs.fcmd_reserved, hs.no_fault_no_word, hs.illegal_cause, hs.legal_cause⟩

/-- The record that a fault writes: `ILLEGAL_CMD` with an illegal word, any other cause with a legal one. -/
theorem recordInv_of_fault {c : Cause} {w : CmdWord} (hw : legalWord w = true ↔ c ≠ .illegalCmd) :
    RecordInv (c.code.setWidth 32) (w.setWidth 32) := by
  have hword : (w.setWidth 32).setWidth 16 = w := by simp
  have hreserved : fcmdWord (w.setWidth 32) = w.setWidth 32 := by
    have hlow := Nat.and_two_pow_sub_one_of_lt_two_pow w.isLt
    apply BitVec.eq_of_toNat_eq
    rw [fcmdWord, BitVec.toNat_and, BitVec.toNat_setWidth_of_le (by decide)]
    exact hlow
  cases c with
  | illegalCmd =>
    exact ⟨by decide, hreserved, nofun, fun _ => by rw [hword]; simpa using hw,
      fun h => absurd h (by decide)⟩
  | unsetOperand | pmodNonpos | oscDegenerate =>
    have hlegal : legalWord w = true := hw.mpr nofun
    exact ⟨by decide, hreserved, nofun, nofun, fun _ => by rw [hword, hlegal]⟩

/-- The response of a fault is one of R66. -/
theorem faultResponse_fields (c : Cause) :
    1 ≤ (faultResponse c).cause.toNat ∧ (faultResponse c).cause.toNat ≤ 4 ∧
      (faultResponse c).d0 = 0#32 ∧ (faultResponse c).d1 = 0#32 ∧ (faultResponse c).d2 = 0#32 := by
  cases c <;> decide

/-- A fault keeps the invariant: it writes its own record, or keeps the first one. -/
theorem State.Inv.of_raiseFault {c : Cause} {w : CmdWord} {s : State} (hs : s.Inv)
    (hw : legalWord w = true ↔ c ≠ .illegalCmd) : (raiseFault c w s).Inv := by
  obtain ⟨f, m, hv, hr⟩ :
      ∃ f m, (raiseFault c w s).voice = { s.voice with fault := f, fcmd := m } ∧ RecordInv f m := by
    rw [raiseFault_voice, recordFault]
    split
    · exact ⟨_, _, rfl, recordInv_of_fault hw⟩
    · exact ⟨_, _, rfl, hs.record⟩
  exact {
    ctrl_reserved := by rw [hv]; exact hs.ctrl_reserved
    fault_codes := by rw [hv]; exact hr.codes
    fcmd_reserved := by rw [hv]; exact hr.reserved
    no_fault_no_word := by rw [hv]; exact hr.no_fault
    illegal_cause := by rw [hv]; exact hr.illegal
    legal_cause := by rw [hv]; exact hr.legal
    coefficients := by rw [hv]; exact hs.coefficients
    cutoff_range := by rw [hv]; exact hs.cutoff_range
    in_flight := hs.in_flight
    response := by
      rintro _ ⟨⟩
      exact ⟨nofun, fun _ => faultResponse_fields c⟩ }

/-- No clause of the invariant joins registers and port: a change of the port alone asks for the port's clauses. -/
theorem State.Inv.of_port {s : State} (hs : s.Inv) {fl : Option InFlight} {rsp : Option Response} {pins : List Pins}
    (hfl : ∀ c, fl = some c → 1 ≤ c.left ∧ c.left ≤ Config.cmdLatency) (hrsp : rsp = none ∨ rsp = s.rsp) :
    ({ s with inflight := fl, rsp := rsp, pins := pins } : State).Inv :=
  { hs with
    in_flight := hfl
    response := fun r hr => by
      rcases hrsp with rfl | rfl
      · cases hr
      · exact hs.response r hr }

theorem State.Inv.takeInFlight {s : State} (hs : s.Inv) : (takeInFlight s).Inv :=
  hs.of_port nofun (.inl rfl)

theorem State.Inv.dropPins {s : State} (hs : s.Inv) : s.dropPins.Inv := hs.of_port hs.in_flight (.inr rfl)

theorem State.Inv.accept {s : State} (hs : s.Inv) (p : Pins) : (accept p s).Inv := by
  unfold Machine.accept
  split
  · refine hs.of_port ?_ (.inr rfl)
    rintro _ ⟨⟩
    exact ⟨Nat.succ_pos _, le_rfl⟩
  · exact hs

/-- An edge that is no response edge leaves a command in flight at least one edge more. -/
theorem State.Inv.waitEdge {s : State} (hs : s.Inv) (h : ∀ c, s.inflight = some c → c.responds = false) :
    (waitEdge s).Inv := by
  refine hs.of_port (fun c hc => ?_) (.inl rfl)
  obtain ⟨d, hd, rfl⟩ := Option.map_eq_some_iff.mp hc
  have hwait : ¬ d.left ≤ 1 := by simpa [InFlight.responds] using h d hd
  have hle := (hs.in_flight d hd).2
  dsimp only
  omega

/-- The empty record of a reset. -/
theorem recordInv_zero : RecordInv 0#32 0#32 := ⟨by decide, by decide, fun _ => rfl, nofun, by decide⟩

theorem hardReset_inv (s : State) : (hardReset s).Inv where
  ctrl_reserved := ctrlWord_ctrlWord 0#32
  fault_codes := recordInv_zero.codes
  fcmd_reserved := recordInv_zero.reserved
  no_fault_no_word := recordInv_zero.no_fault
  illegal_cause := recordInv_zero.illegal
  legal_cause := recordInv_zero.legal
  coefficients := rfl
  cutoff_range := nofun
  in_flight := nofun
  response := nofun

/-- A command given as its words keeps the invariant: a fault's cause agrees with whether its word is legal. -/
theorem State.Inv.runCommand {w : CmdWord} {d : Word} {s t : State} (hs : s.Inv)
    (h : runCommand w d s = .next t) : t.Inv := by
  rcases runCommand_cases w d s with ⟨i, hi, hrun⟩ | ⟨r, hr, hrun⟩
  · have hwf := decode_wellFormed hi
    rcases exec_cases (hrun ▸ h) with hf | ⟨c, hc, rfl⟩
    · exact hs.of_completedFrame hf
    · exact hs.of_raiseFault (by simp [legalWord_cmdWord, hwf, hc hwf])
  · have hw : legalWord w = false := by rw [← isSome_decode_eq_legalWord w d, hr]; rfl
    rw [hrun] at h
    cases h
    exact hs.of_raiseFault (by simp [hw])

/-- Settles O10: each phase of an edge (hardware reset, the command at its response edge, a waiting edge, acceptance)
keeps the invariant. -/
theorem stepKeepsTheInvariant : Obligations.StepKeepsTheInvariant := by
  intro s t hs h
  rcases step_cases s with ⟨-, hstep⟩ | ⟨-, c, -, -, hstep⟩ | ⟨-, hwait, hstep⟩
  · rw [hstep] at h
    cases h
    exact hardReset_inv _
  · rw [hstep] at h
    cases hrun : Machine.runCommand c.word c.data (Machine.takeInFlight s.dropPins) with
    | next u =>
      rw [hrun] at h
      cases h
      exact (hs.dropPins.takeInFlight.runCommand hrun).accept _
    | fault r => cases r
    | refused r => rw [hrun] at h; cases h
  · rw [hstep] at h
    cases h
    exact (hs.dropPins.waitEdge hwait).accept _

end Sys2Proof.Machine

namespace Sys2Proof.Machine

/-! # What a command writes (20_memory.md R54) -/

/-- A command whose response reports no fault completed: it has the frame of one that completes. -/
theorem exec_completedFrame {i : Instr} {s t : State} {r : Response} (h : exec i s = .next t)
    (hrsp : t.rsp = some r) (hok : r.fault = false) : CompletedFrame i s t := by
  rcases exec_cases h with hframe | ⟨c, -, rfl⟩
  · exact hframe
  · rw [raiseFault_rsp] at hrsp
    obtain rfl : faultResponse c = r := Option.some.inj hrsp
    exact absurd hok (by simp [faultResponse])

/-- Settles O18: these are clauses of the frame of a command that completes. -/
theorem commandsWriteOnlyWhatTheirRuleNames : Obligations.CommandsWriteOnlyWhatTheirRuleNames := by
  intro i s t r h hrsp hok
  have hframe := exec_completedFrame h hrsp hok
  exact ⟨hframe.registers, hframe.filter, fun hi => (hframe.coefficients_kept hi).1, hframe.port⟩

end Sys2Proof.Machine

namespace Sys2Proof.Machine

/-! # Encoding and the command port (30_encoding.md)

## Decoding and encoding (R62 to R67)

A word decodes to a command exactly when it is the command's word, the block has the command, and a data word that the
command uses is its own: `decode_eq_ok_iff`. -/

theorem cmdWord_eq_fields (w : CmdWord) : opField w ++ unitField w ++ regField w = w := by
  rw [opField, unitField, regField, BitVec.extractLsb'_append_extractLsb'_eq_extractLsb' (by decide),
    BitVec.extractLsb'_append_extractLsb'_eq_extractLsb' (by decide)]
  exact BitVec.extractLsb'_eq_self

/-- The unit number of a decoded unit (R62). -/
def unitNumber : UnitSel → BitVec 4
  | .osc o => o.number
  | .env e => e.number
  | .voice => voiceNumber

theorem number_of_unitAt {u : BitVec 4} {s : UnitSel} (h : unitAt u = some s) : unitNumber s = u := by
  unfold unitAt at h
  split at h <;> cases h <;> exact BitVec.eq_of_toNat_eq (Eq.symm ‹_›)

theorem index_of_oscRegAt {r : BitVec 8} {q : OscReg} (h : oscRegAt r = some q) : q.index = r := by
  unfold oscRegAt at h
  split at h <;> cases h <;> exact BitVec.eq_of_toNat_eq (Eq.symm ‹_›)

theorem index_of_envRegAt {r : BitVec 8} {q : EnvReg} (h : envRegAt r = some q) : q.index = r := by
  unfold envRegAt at h
  split at h <;> cases h <;> exact BitVec.eq_of_toNat_eq (Eq.symm ‹_›)

theorem index_of_voiceRegAt {r : BitVec 8} {q : VoiceReg} (h : voiceRegAt r = some q) : q.index = r := by
  unfold voiceRegAt at h
  split at h <;> cases h <;> exact BitVec.eq_of_toNat_eq (Eq.symm ‹_›)

/-- A register found at an index of a unit has that unit and that index. -/
theorem unit_index_of_regAt {s : UnitSel} {r : BitVec 8} {q : Reg} (h : regAt s r = some q) :
    q.unit = unitNumber s ∧ q.index = r := by
  cases s with
  | osc o =>
    obtain ⟨_, hq, rfl⟩ := Option.map_eq_some_iff.mp h
    exact ⟨rfl, index_of_oscRegAt hq⟩
  | env e =>
    obtain ⟨_, hq, rfl⟩ := Option.map_eq_some_iff.mp h
    exact ⟨rfl, index_of_envRegAt hq⟩
  | voice =>
    obtain ⟨_, hq, rfl⟩ := Option.map_eq_some_iff.mp h
    exact ⟨rfl, index_of_voiceRegAt hq⟩

/-- A command of the operation map has the operation and the unit it stands at, and holds the data word it uses. -/
theorem fields_of_commandAt {op : BitVec 4} {s : UnitSel} {d : Word} {i : Instr} (h : commandAt op s d = some i) :
    i.op = op ∧ i.unit = unitNumber s ∧ i.reg = 0#8 ∧ (usesData i = true → i.data = d) := by
  unfold commandAt at h
  split at h <;> cases h <;>
    exact ⟨BitVec.eq_of_toNat_eq (Eq.symm ‹_›), rfl, rfl, by simp [usesData, Instr.data]⟩

/-- A word that decodes has the fields of its command, which holds the data word it uses. -/
theorem fields_of_decode {w : CmdWord} {d : Word} {i : Instr} (h : decode w d = .ok i) :
    i.op = opField w ∧ i.unit = unitField w ∧ i.reg = regField w ∧ (usesData i = true → i.data = d) := by
  obtain ⟨s, hs, hcases⟩ := decode_ok_cases h
  rw [← number_of_unitAt hs]
  obtain ⟨hop, q, hq, -, rfl⟩ | ⟨hop, q, hq, rfl⟩ | ⟨hi, hreg⟩ := hcases
  · obtain ⟨hunit, hindex⟩ := unit_index_of_regAt hq
    exact ⟨hop.symm, hunit, hindex, fun _ => rfl⟩
  · obtain ⟨hunit, hindex⟩ := unit_index_of_regAt hq
    exact ⟨hop.symm, hunit, hindex, nofun⟩
  · rw [hreg]
    exact fields_of_commandAt hi

theorem cmdWord_of_decode {w : CmdWord} {d : Word} {i : Instr} (h : decode w d = .ok i) : i.cmdWord = w := by
  obtain ⟨hop, hunit, hreg, -⟩ := fields_of_decode h
  rw [Instr.cmdWord, hop, hunit, hreg, cmdWord_eq_fields]

/-- The word of a command the block has decodes to it, beside any data word that holds what the command uses. -/
theorem decode_cmdWord {i : Instr} {d : Word} (hwf : i.wellFormed = true) (hd : usesData i = true → i.data = d) :
    decode i.cmdWord d = .ok i := by
  obtain ⟨hop, hunit, hreg⟩ := Laws.CommandFields.fields_of_cmdWord i
  rw [decode, hop, hunit, hreg]
  cases i with
  | wr r v =>
    obtain rfl : v = d := hd rfl
    have hw : r.writable = true := hwf
    obtain ⟨s, hs, hr⟩ := Option.bind_eq_some_iff.mp (regAt_index r)
    simp [Instr.op, Instr.unit, Instr.reg, decodeWr, hs, hr, hw]
  | rd r =>
    obtain ⟨s, hs, hr⟩ := Option.bind_eq_some_iff.mp (regAt_index r)
    simp [Instr.op, Instr.unit, Instr.reg, decodeRd, hs, hr]
  | voiceRender n => obtain rfl : n = d := hd rfl; rfl
  | oscSquare u np => obtain rfl : np = d := hd rfl; cases u <;> rfl
  | oscReset u | oscNext u => cases u <;> rfl
  | envReset e | envNext e | envAttack e | envRelease e | envNudge e => cases e <;> rfl
  | nop | voiceReset | voiceRelease | voicePan | voiceCtrl | voiceSetper => rfl

theorem decode_eq_ok_iff {w : CmdWord} {d : Word} {i : Instr} :
    decode w d = .ok i ↔ i.cmdWord = w ∧ i.wellFormed = true ∧ (usesData i = true → i.data = d) := by
  constructor
  · intro h
    obtain ⟨-, -, -, hdata⟩ := fields_of_decode h
    exact ⟨cmdWord_of_decode h, decode_wellFormed h, hdata⟩
  · rintro ⟨rfl, hwf, hdata⟩
    exact decode_cmdWord hwf hdata

/-- Settles O1: the words of a command meet `decode_eq_ok_iff`, and a command that uses no data word asks nothing of
it. -/
theorem decodeOfEncodeIsTheCommand : Obligations.DecodeOfEncodeIsTheCommand := fun i hwf =>
  ⟨decode_eq_ok_iff.mpr ⟨rfl, hwf, fun _ => rfl⟩,
    fun hunused d => decode_eq_ok_iff.mpr ⟨rfl, hwf, fun hused => by simp [hunused] at hused⟩⟩

/-- Settles O2: the other direction of `decode_eq_ok_iff`. -/
theorem encodeOfDecodeIsTheWord : Obligations.EncodeOfDecodeIsTheWord := fun _ _ _ => decode_eq_ok_iff.mp

/-- Settles O4: each of the six words is the command word of its command. -/
theorem writtenOutWordsDecode : Obligations.WrittenOutWordsDecode := by
  refine ⟨?_, ?_, ?_, ?_, ?_, ?_⟩ <;> exact decode_eq_ok_iff.mpr (by decide)

/-! ## The rows of the opcode map (R68) -/

/-- Two rows that disagree on a bit that both ask for match no word together. -/
theorem rows_agree_of_matches {w : CmdWord} {row row' : CmdWord × CmdWord} (h : w &&& row.2 = row.1)
    (h' : w &&& row'.2 = row'.1) : row.1 &&& row'.2 = row'.1 &&& row.2 := by
  rw [← h, ← h', BitVec.and_assoc, BitVec.and_assoc, BitVec.and_comm row.2]

/-- Any two rows of R68 disagree on a bit that both ask for. -/
theorem tableRows_disagree : tableRows.Pairwise fun row row' => row.1 &&& row'.2 ≠ row'.1 &&& row.2 := by
  decide

theorem length_filter_le_one {α : Type} {p : α → Bool} {l : List α}
    (h : l.Pairwise fun a b => ¬(p a = true ∧ p b = true)) : (l.filter p).length ≤ 1 := by
  have hmem : ∀ a ∈ l.filter p, p a = true := fun a ha => (List.mem_filter.mp ha).2
  have hpair := h.sublist (List.filter_sublist (p := p))
  generalize l.filter p = m at hmem hpair
  match m with
  | [] | [_] => simp
  | a :: b :: _ => exact absurd ⟨hmem a (by simp), hmem b (by simp)⟩ (List.rel_of_pairwise_cons hpair (by simp))

/-- Settles O3: the decoder and the list agree by `isSome_decode_eq_legalWord`, and any two rows of the map
disagree on a bit that both ask for. -/
theorem legalWordsAreTheListedOnes : Obligations.LegalWordsAreTheListedOnes := by
  refine ⟨isSome_decode_eq_legalWord, fun w => length_filter_le_one ?_⟩
  refine tableRows_disagree.imp fun hne hmatch => hne ?_
  rw [beq_iff_eq, beq_iff_eq] at hmatch
  exact rows_agree_of_matches hmatch.1 hmatch.2

/-! ## Acceptance (R60) -/

theorem accept_of_inflight_none {s : State} (p : Pins) (h : s.inflight = none) :
    accept p s = if p.cmdValid then
      { s with inflight := some { word := p.cmdWord, data := p.cmdData, left := Config.cmdLatency } } else s := by
  simp [accept, h]

theorem accept_of_inflight_some {s : State} {c : InFlight} (p : Pins) (h : s.inflight = some c) : accept p s = s := by
  simp [accept, h]

theorem exec_keeps_port {i : Instr} {s t : State} (h : exec i s = .next t) :
    t.inflight = s.inflight ∧ t.pins = s.pins := by
  rcases exec_cases h with hframe | ⟨c, -, rfl⟩
  · exact hframe.port
  · exact ⟨rfl, rfl⟩

/-! ## One edge of the port, by what is in flight (R60, R61) -/

theorem step_of_idle {s : State} (hf : s.inflight = none) (hr : s.nextPins.rstN = true) :
    step s = .next (accept s.nextPins (waitEdge s.dropPins)) := by
  simp [step, clockEdge, responsePhase, thenAccept, hf, hr]

theorem step_of_waiting {s : State} {c : InFlight} (hf : s.inflight = some c) (hc : 2 ≤ c.left)
    (hr : s.nextPins.rstN = true) :
    step s = .next { s with
      inflight := some { c with left := c.left - 1 }, rsp := none, pins := s.pins.tail } := by
  have hwait : c.responds = false := decide_eq_false (by omega)
  have hin : (waitEdge s.dropPins).inflight = some { c with left := c.left - 1 } := by simp [hf]
  have hstep : step s = .next (accept s.nextPins (waitEdge s.dropPins)) := by
    simp [step, clockEdge, responsePhase, thenAccept, hf, hr, hwait]
  rw [hstep, accept_of_inflight_some _ hin, ← hin]
  rfl

theorem step_of_responding {s : State} {c : InFlight} (hf : s.inflight = some c) (hc : c.left ≤ 1)
    (hr : s.nextPins.rstN = true) :
    step s = thenAccept s.nextPins
      (runCommand c.word c.data { s with inflight := none, rsp := none, pins := s.pins.tail }) := by
  have hresp : c.responds = true := decide_eq_true hc
  simp only [step, clockEdge, responsePhase, dropPins_inflight, hf, hr, hresp, if_true]
  rfl

theorem runCommand_of_decode {w : CmdWord} {d : Word} {i : Instr} (h : decode w d = .ok i) (s : State) :
    runCommand w d s = exec i s := by
  rw [runCommand, h]

theorem decode_of_decodeTableWord {nbits w : Nat} {i : Instr} (h : decodeTableWord nbits w = some i) :
    decode (tableCmdWord nbits w) (tableDataWord nbits w) = .ok i := by
  unfold decodeTableWord at h
  cases hd : decode (tableCmdWord nbits w) (tableDataWord nbits w) with
  | ok j => rw [hd] at h; exact congrArg Decoded.ok (Option.some.inj h)
  | reject r => rw [hd] at h; cases h

/-- Settles O13: `step_of_responding`; the command keeps the port, so the offered one is accepted after it. -/
theorem stepRunsTheDecodedCommand : Obligations.StepRunsTheDecodedCommand := by
  constructor
  · intro s c i hf hc hr hd
    obtain ⟨t, ht⟩ := exec_answers_next i { s with inflight := none, rsp := none, pins := s.pins.tail }
    refine ⟨t, ht, ?_⟩
    rw [step_of_responding hf hc hr, runCommand_of_decode hd, ht]
    exact congrArg Host.Outcome.next (accept_of_inflight_none _ (exec_keeps_port ht).1)
  · intro s nbits w i hi
    obtain ⟨t, ht⟩ := exec_answers_next i { s with inflight := none, rsp := none }
    have hstep := step_of_responding (s := s.withFetchWord nbits w) rfl le_rfl rfl
    rw [hstep, runCommand_of_decode (decode_of_decodeTableWord hi)]
    exact (congrArg (thenAccept Pins.idle) ht).trans ht.symm

/-- Settles O15: `step_of_waiting`. -/
theorem nothingAcceptedInFlight : Obligations.NothingAcceptedInFlight := by
  intro s c hf hc hr
  refine ⟨?_, step_of_waiting hf hc hr⟩
  simp only [cmdReady, hf, InFlight.responds, Bool.true_and, decide_eq_false_iff_not]
  omega

/-! ## From acceptance to the response edge (R60, 70_reset_and_hazards.md R200, R202) -/

theorem run_succ_of_step {M : Host.Core} {s t : M.State} (h : M.step s = .next t) (k : Nat) :
    M.run (k + 1) s = M.run k t := by
  rw [Host.Core.run, h]

/-- A run goes on with one step. -/
theorem run_succ_of_run {M : Host.Core} {k : Nat} {s t : M.State} (h : M.run k s = .next t) :
    M.run (k + 1) s = M.step t := by
  induction k generalizing s with
  | zero =>
    cases h
    simp only [Host.Core.run]
    cases M.step t <;> rfl
  | succ k ih =>
    cases hs : M.step s with
    | next u =>
      rw [run_succ_of_step hs] at h
      rw [run_succ_of_step hs, ih h]
    | fault r => rw [Host.Core.run, hs] at h; cases h
    | refused r => rw [Host.Core.run, hs] at h; cases h

theorem core_run_succ_of_step {s t : State} (h : step s = .next t) (k : Nat) :
    Sys2Proof.core.run (k + 1) s = Sys2Proof.core.run k t :=
  run_succ_of_step (M := Sys2Proof.core) h k

theorem core_run_succ_of_run {k : Nat} {s t : State} (h : Sys2Proof.core.run k s = .next t) :
    Sys2Proof.core.run (k + 1) s = step t :=
  run_succ_of_run (M := Sys2Proof.core) h

/-- The block while a command is in flight: its registers as in `s`, no response, and the host's coming pins. -/
def State.awaiting (s : State) (c : InFlight) (pins : List Pins) : State :=
  { s with inflight := some c, rsp := none, pins := pins }

theorem awaiting_regRead (s : State) (c : InFlight) (pins : List Pins) (q : Reg) :
    (s.awaiting c pins).regRead q = s.regRead q := by
  cases q with
  | osc u r => cases u <;> rfl
  | env u r => cases u <;> rfl
  | voice r => cases r <;> rfl

/-- An idle block accepts the command it is offered. -/
theorem step_accepts {s : State} {w : CmdWord} {d : Word} {ps : List Pins} (hf : s.inflight = none)
    (hp : s.pins = { rstN := true, cmdValid := true, cmdWord := w, cmdData := d } :: ps) :
    step s = .next (s.awaiting { word := w, data := d, left := Config.cmdLatency } ps) := by
  have hnext : s.nextPins = { rstN := true, cmdValid := true, cmdWord := w, cmdData := d } := by
    rw [State.nextPins, hp]
  have hin : (waitEdge s.dropPins).inflight = none := by simp [hf]
  rw [step_of_idle hf (by rw [hnext]), accept_of_inflight_none _ hin, hnext]
  simp [State.awaiting, waitEdge, State.dropPins, hp]

theorem step_awaiting_responds (s : State) (c : InFlight) (hc : c.left ≤ 1) {p : Pins} (ps : List Pins)
    (hp : p.rstN = true) :
    step (s.awaiting c (p :: ps)) =
      thenAccept p (runCommand c.word c.data { s with inflight := none, rsp := none, pins := ps }) :=
  step_of_responding (s := s.awaiting c (p :: ps)) rfl hc hp

/-- A command in flight counts down the edges without reset before its response edge. -/
theorem run_awaiting (s : State) (w : CmdWord) (d : Word) {ps : List Pins} (qs : List Pins) (left : Nat)
    (hr : ∀ p ∈ ps, p.rstN = true) :
    Sys2Proof.core.run ps.length (s.awaiting { word := w, data := d, left := left + 1 + ps.length } (ps ++ qs)) =
      .next (s.awaiting { word := w, data := d, left := left + 1 } qs) := by
  induction ps with
  | nil => rfl
  | cons p ps ih =>
    obtain ⟨hp, hps⟩ := List.forall_mem_cons.mp hr
    have hstep : step (s.awaiting { word := w, data := d, left := left + 1 + (ps.length + 1) } (p :: ps ++ qs)) =
        .next (s.awaiting { word := w, data := d, left := left + 1 + ps.length } (ps ++ qs)) :=
      step_of_waiting (s := s.awaiting _ (p :: ps ++ qs)) rfl (show 2 ≤ left + 1 + (ps.length + 1) by omega) hp
    exact (core_run_succ_of_step hstep _).trans (ih hps)

/-- Settles O14: acceptance, then the edges that count down, then the response edge. -/
theorem commandRespondsAfterItsLatency : Obligations.CommandRespondsAfterItsLatency := by
  intro s w d ps qs hf hp hlen hr
  have haccept := step_accepts hf hp
  constructor
  · intro n hn
    obtain ⟨left, hleft⟩ : ∃ left, Config.cmdLatency = left + 1 + n := ⟨Config.cmdLatency - n - 1, by omega⟩
    have htake : (ps.take n).length = n := List.length_take_of_le (by omega)
    have hrun := run_awaiting s w d (ps.drop n ++ qs) left (ps := ps.take n)
      fun p hp => hr p (List.mem_of_mem_take hp)
    rw [htake, ← hleft, ← List.append_assoc, List.take_append_drop] at hrun
    exact ⟨_, (core_run_succ_of_step haccept n).trans hrun, rfl, awaiting_regRead s _ _⟩
  · intro last hlast
    obtain ⟨init, rfl⟩ := List.getLast?_eq_some_iff.mp hlast
    have hinit : Config.cmdLatency = 0 + 1 + init.length := by simpa [Nat.add_comm] using hlen.symm
    have hrun := run_awaiting s w d (last :: qs) 0 fun p hp => hr p (List.mem_append_left _ hp)
    have hend := step_awaiting_responds s { word := w, data := d, left := 0 + 1 } le_rfl qs (hr last (by simp))
    rw [← hf] at hend
    rw [hinit, List.append_assoc] at haccept
    rw [hinit, Nat.add_comm _ init.length]
    exact (core_run_succ_of_step haccept _).trans ((core_run_succ_of_run hrun).trans hend)

end Sys2Proof.Machine

namespace Sys2Proof.Machine

/-! # Register access (40_register_access.md R80 to R82)

What `NOP`, `WR` and `RD` do, once per case of their rules. -/

theorem exec_nop (s : State) : exec .nop s = .next (respond 0#32 0#32 0#32 s) := rfl

theorem exec_wr_of_writable {r : Reg} (hr : r.writable = true) (v : Word) (s : State) :
    exec (.wr r v) s = .next (respond 0#32 0#32 0#32 (s.regWrite r v)) := by
  simp [exec, execWr, writeCommand, hr]

theorem exec_wr_of_not_writable {r : Reg} (hr : r.writable = false) (v : Word) (s : State) :
    exec (.wr r v) s = .next (raiseFault .illegalCmd (Instr.wr r v).cmdWord s) := by
  simp [exec, execWr, writeCommand, hr]

theorem exec_rd_of_regRead_some {r : Reg} {w : Word} {s : State} (h : s.regRead r = some w) :
    exec (.rd r) s = .next (respond w 0#32 0#32 s) := by
  simp [exec, execRd, readCommand, h]

theorem exec_rd_of_regRead_none {r : Reg} {s : State} (h : s.regRead r = none) :
    exec (.rd r) s = .next (raiseFault .unsetOperand (Instr.rd r).cmdWord s) := by
  simp [exec, execRd, readCommand, h]

theorem eq_nop_of_op {i : Instr} (h : i.op = 0#4) : i = .nop := by
  cases i with
  | nop => rfl
  | _ => exact absurd h (by simp [Instr.op])

/-- R80: 0x0000 is the one legal word with `OP` = 0, since a legal word is the word of the command it decodes to. -/
theorem eq_zero_of_legalWord {w : CmdWord} (hop : opField w = 0#4) (h : legalWord w = true) : w = 0#16 := by
  rw [← isSome_decode_eq_legalWord w 0#32] at h
  cases hd : decode w 0#32 with
  | reject r => simp [hd, Decoded.instr?] at h
  | ok i =>
    obtain ⟨hi, -⟩ := fields_of_decode hd
    obtain rfl : i = .nop := eq_nop_of_op (hi.trans hop)
    exact (cmdWord_of_decode hd).symm

/-- Settles O21: 0x0000 decodes to `NOP` beside any data word, and is the one legal word with `OP` = 0. -/
theorem nopDoesNothing : Obligations.NopDoesNothing := by
  refine ⟨exec_nop, fun d s => ?_, fun w hop hne => ?_⟩
  · have hd : decode 0x0000#16 d = .ok .nop := decode_eq_ok_iff.mpr ⟨rfl, rfl, nofun⟩
    rw [runCommand_of_decode hd]
    exact exec_nop s
  · exact Bool.eq_false_iff.mpr fun h => hne (eq_zero_of_legalWord hop h)

/-- Settles O24: a register either holds a value or is UNSET, and the three named ones have no set flag (R22). -/
theorem rdAnswersTheRegister : Obligations.RdAnswersTheRegister := by
  refine ⟨fun r w s h => exec_rd_of_regRead_some h, fun r s h => exec_rd_of_regRead_none h, fun s r hr => ?_⟩
  have hflag : ∀ r ∈ [VoiceReg.fault, .fcmd, .vstatus], hasSetFlag (.voice r) = false := by decide
  exact regRead_isSome_of_not_hasSetFlag s (hflag r hr)

/-- Settles O23: the command word of a `WR` is legal only when its register is RW. -/
theorem wrOfReadOnlyRegisterFaults : Obligations.WrOfReadOnlyRegisterFaults := fun r v s hr =>
  ⟨exec_wr_of_not_writable hr v s, (legalWord_cmdWord (.wr r v)).trans hr⟩

/-- Settles O22: `regWrite_regRead` says what every register reads after the write, so what `RD` answers too; the
Filter, `FCOEF` and the port are in the frame of a command that completes. -/
theorem wrStoresTheWord : Obligations.WrStoresTheWord := by
  intro r v s hr
  have hexec := exec_wr_of_writable hr v s
  have hframe := exec_completedFrame hexec rfl rfl
  have hread (q : Reg) := (respond_regRead 0#32 0#32 0#32 (s.regWrite r v) q).trans (regWrite_regRead s q v hr)
  have hself := (hread r).trans (if_pos rfl)
  obtain ⟨hfcoef, -⟩ := hframe.coefficients_kept nofun
  obtain ⟨hinflight, -⟩ := hframe.port
  exact ⟨_, hexec, rfl, hself, fun q hq => (hread q).trans (if_neg hq), hframe.filter rfl, hfcoef, hinflight,
    exec_rd_of_regRead_some hself⟩

end Sys2Proof.Machine

namespace Sys2Proof.Machine

/-! # Rounded results in the order of the comparisons (00_scope.md R9, R12)

Each operation with one operand fixed keeps the order of the other. -/

theorem isNaN_or_isInf_of_not_isFinite {w : Word} (h : isFinite w = false) : isNaN w = true ∨ isInf w = true := by
  simp only [isFinite, isNaN, isInf, decide_eq_true_eq, decide_eq_false_iff_not, beq_iff_eq] at *
  omega

theorem isFinite_nanResult (k : Nat) : isFinite (nanResult k) = false := by
  have h := isNaN_nanResult k
  simp only [isNaN, isFinite, decide_eq_true_eq, decide_eq_false_iff_not] at *
  omega

theorem isFinite_pack_infBits (s : Bool) : isFinite (pack s infBits) = false := by cases s <;> decide

/-- Flushing is done once. -/
@[simp] theorem flush_flush (w : Word) : flush (flush w) = flush w := by
  cases hs : isSubnormal w with
  | false => rw [flush_of_not_subnormal hs, flush_of_not_subnormal hs]
  | true =>
    cases hf : Config.ftz with
    | false => rw [flush_self (.inr hf), flush_self (.inr hf)]
    | true => rw [flush_of_ftz hs hf, flush_pack_zero]

@[simp] theorem flush_roundResult (s : Bool) (n d : Nat) : flush (roundResult s n d) = roundResult s n d :=
  flush_flush _

theorem magBits_roundResult_le (s : Bool) (n d : Nat) : magBits (roundResult s n d) ≤ roundMag n d := by
  rw [roundResult, magBits_flush, magBits_pack _ _ (roundMag_lt n d)]
  exact flushedMag_le _

@[simp] theorem isNaN_roundResult (s : Bool) (n d : Nat) : isNaN (roundResult s n d) = false :=
  decide_eq_false ((magBits_roundResult_le s n d).trans (roundMag_le_infBits n d)).not_gt

/-- Rounding the magnitude with its sign is rounding the signed value, as far as the order sees it. -/
theorem orderKey_roundResult_signed (s : Bool) (n : Nat) {d : Nat} (hd : 0 < d) :
    orderKey (roundResult s n d) =
      orderKey (roundResult (decide ((if s then -(n : Int) else n) < 0)) (if s then -(n : Int) else n).natAbs d) := by
  rcases Nat.eq_zero_or_pos n with rfl | hn
  · cases s <;> simp [roundResult_zero _ hd, orderKey_pack]
  · have hn' : ¬(n : Int) < 0 := by omega
    cases s <;> simp [hn, hn']

theorem flt_of_flt_of_fle {a b c : Word} (hab : flt a b = true) (hbc : fle b c = true) : flt a c = true := by
  rw [flt_eq_true_iff] at hab ⊢
  rw [fle_eq_true_iff] at hbc
  exact ⟨hab.1, hbc.2.1, hab.2.2.trans_le hbc.2.2⟩

section Order
variable {a b c : Word} (k : Nat) (ha : isFinite a = true) (hb : isFinite b = true) (hc : isFinite c = true)
include ha hb

theorem isNaN_addCore_of_isFinite : isNaN (addCore k a b) = false := by
  rw [addCore_of_isFinite k ha hb]
  split
  · cases signBit a && signBit b <;> decide
  · exact isNaN_roundResult _ _ _

/-- An exact zero sum is ordered as the rounding of 0. -/
theorem orderKey_flush_addCore :
    orderKey (flush (addCore k a b)) =
      orderKey (roundResult (decide (val a + val b < 0)) (val a + val b).natAbs 1) := by
  rw [addCore_of_isFinite k ha hb]
  split
  · rename_i h0
    rw [h0, Int.natAbs_zero, roundResult_zero _ Nat.one_pos, flush_pack_zero, orderKey_pack _ _ (by decide),
      orderKey_pack _ _ (by decide)]
    simp
  · rw [flush_roundResult]

/-- A sum below the overflow threshold is finite. -/
theorem isFinite_fadd (h : (val (flush a) + val (flush b)).natAbs < overflowMag) : isFinite (fadd k a b) = true := by
  obtain ⟨w, ⟨-, -, -, hfin⟩, hw⟩ := fadd_nearestEven k ha hb
  rw [hw, isFinite_flush]
  exact (hfin (by simpa using h)).1

include hc

theorem addCore_mono_left (h : val a ≤ val b) : fle (addCore k a c) (addCore k b c) = true := by
  rw [fle_of_numbers (isNaN_addCore_of_isFinite k ha hc) (isNaN_addCore_of_isFinite k hb hc),
    orderKey_flush_addCore k ha hc, orderKey_flush_addCore k hb hc]
  exact decide_eq_true (orderKey_round_mono 1 (by omega))

theorem addCore_mono_right (h : val a ≤ val b) : fle (addCore k c a) (addCore k c b) = true := by
  rw [fle_of_numbers (isNaN_addCore_of_isFinite k hc ha) (isNaN_addCore_of_isFinite k hc hb),
    orderKey_flush_addCore k hc ha, orderKey_flush_addCore k hc hb]
  exact decide_eq_true (orderKey_round_mono 1 (by omega))

variable (h : fle a b = true)
include h

theorem fadd_mono_right : fle (fadd k c a) (fadd k c b) = true :=
  addCore_mono_right k (by simpa using ha) (by simpa using hb) (by simpa using hc) ((fle_iff_val ha hb).mp h)

theorem fsub_mono_left : fle (fsub k a c) (fsub k b c) = true :=
  addCore_mono_left k (by simpa using ha) (by simpa using hb) (by simpa using hc) ((fle_iff_val ha hb).mp h)

theorem fdiv_mono_left (hs : signBit c = false) (h0 : isZero (flush c) = false) :
    fle (fdiv k a c) (fdiv k b c) = true := by
  have hval : val (flush a) ≤ val (flush b) := (fle_iff_val ha hb).mp h
  have hkey (w : Word) : orderKey (roundResult (signBit w) (mag (flush w) * 2 ^ 149) (mag (flush c))) =
      orderKey (roundResult (decide (val (flush w) * 2 ^ 149 < 0)) (val (flush w) * 2 ^ 149).natAbs
        (mag (flush c))) := by
    rw [orderKey_roundResult_signed _ _ (mag_pos h0), val, signBit_flush]
    cases signBit w <;> simp
  rw [fdiv_of_isFinite k ha hc, fdiv_of_isFinite k hb hc, h0, hs]
  simp only [Bool.bne_false, Bool.false_eq_true, if_false]
  rw [fle_of_numbers (isNaN_roundResult _ _ _) (isNaN_roundResult _ _ _), flush_roundResult, flush_roundResult,
    hkey, hkey]
  exact decide_eq_true (orderKey_round_mono _ (by omega))

end Order

theorem flush_ffloor_of_isFinite {a : Word} (h : isFinite a = true) : flush (ffloor a) = ffloor a := by
  cases h0 : isZero (flush a) with
  | true => rw [ffloor_of_isZero_flush h h0, flush_flush]
  | false => rw [ffloor_of_nonzero h h0, flush_roundResult]

/-- Whole numbers with the floors' bounds are ordered as what they are the floors of. -/
theorem ffloor_mono {a b : Word} (ha : isFinite a = true) (hb : isFinite b = true) (h : fle a b = true) :
    fle (ffloor a) (ffloor b) = true := by
  have hval : val (flush a) ≤ val (flush b) := (fle_iff_val ha hb).mp h
  obtain ⟨hfa, ⟨m, hm⟩, hlo, -⟩ := ffloor_finite ha
  obtain ⟨hfb, ⟨n, hn⟩, -, hhi⟩ := ffloor_finite hb
  rw [fle_iff_val hfa hfb, flush_ffloor_of_isFinite ha, flush_ffloor_of_isFinite hb]
  omega

/-- 1.0 is neutral. -/
theorem fmul_one_of_isFinite (k : Nat) {a : Word} (h : isFinite a = true) : fmul k a Config.one = flush a := by
  have hbits : magBits (flush a) < infBits := by simpa [isFinite] using (isFinite_flush a).trans h
  have hsign : signBit Config.one = false := by decide
  have hmag : mag (flush Config.one) = 2 ^ 149 := by decide
  rw [fmul_of_isFinite k h (by decide), hsign, hmag, mag_eq_magOf, roundResult,
    roundMag_exact _ _ (by decide) hbits.le, Bool.bne_false, ← signBit_flush, pack_self, flush_flush]

theorem isFinite_fmul_one (k : Nat) (a : Word) : isFinite (fmul k a Config.one) = isFinite a := by
  cases h : isFinite a with
  | true => rw [fmul_one_of_isFinite k h, isFinite_flush, h]
  | false =>
    rcases isNaN_or_isInf_of_not_isFinite h with hnan | hinf
    · rw [fmul_of_isNaN k (.inl hnan), isFinite_nanResult]
    · have hone : isZero (flush Config.one) = false := by decide
      rw [fmul_of_isInf_isFinite k hinf (by decide), hone, if_neg Bool.false_ne_true, isFinite_pack_infBits]

end Sys2Proof.Machine

namespace Sys2Proof.Machine

/-! # Oscillators (41_oscillator.md)

## `OSC_NEXT` by its branches (R91, R93, R94) -/

theorem oscNext_of_inside {k : Nat} {o : Osc} (h : startsCycle k o = false) :
    oscNext k o = .ok (inCycle (k + 1) (nextPhase k o) o) := by
  simp [oscNext, h]

theorem oscNext_of_unset {k : Nat} {o : Osc} (h : startsCycle k o = true) (hp : o.period = none ∨ o.ampl = none) :
    oscNext k o = .error .unsetOperand := by
  rcases hp with hp | hp
  · simp [oscNext, h, hp]
  · cases hper : o.period <;> simp [oscNext, h, hp, hper]

section CycleStart
variable {k : Nat} {o : Osc} {per amp : Word} (h : startsCycle k o = true) (hp : o.period = some per)
  (ha : o.ampl = some amp)
include h hp ha

theorem oscNext_of_check_ok (hc : cycleCheck (k + 1) per o.pmod = .ok ()) :
    oscNext k o = .ok (cycleStart (k + 1) (nextPhase k o) per o.pmod amp o) := by
  simp [oscNext, h, hp, ha, hc]

theorem oscNext_of_check_error {c : Cause} (hc : cycleCheck (k + 1) per o.pmod = .error c) :
    oscNext k o = .error c := by
  simp [oscNext, h, hp, ha, hc]

end CycleStart

theorem cycleCheck_of_pmod_nonpos (k : Nat) (per : Word) {pm : Word} (h : fgt pm Config.zero = false) :
    cycleCheck k per pm = .error .pmodNonpos := by
  simp [cycleCheck, h]

theorem cycleCheck_of_pmod_pos (k : Nat) (per : Word) {pm : Word} (h : fgt pm Config.zero = true) :
    cycleCheck k per pm =
      if fgt (phaseMaxSamples (k + 2) (halfPeriod k per pm)) Config.zero = true ∧
        isFinite (halfPeriod k per pm) = true then .ok () else .error .oscDegenerate := by
  cases hpms : fgt (phaseMaxSamples (k + 2) (halfPeriod k per pm)) Config.zero <;>
    cases hfin : isFinite (halfPeriod k per pm) <;> simp [cycleCheck, h, hpms, hfin]

/-- R93 of a unit that has both parameters and `PMOD` above 0. -/
theorem parametersGood_iff_of_pmod_pos {k : Nat} {per amp pm : Word} (h : fgt pm Config.zero = true) :
    parametersGood k (some per) (some amp) pm = true ↔
      fgt (phaseMaxSamples (k + 3) (halfPeriod (k + 1) per pm)) Config.zero = true ∧
        isFinite (halfPeriod (k + 1) per pm) = true := by
  simp [parametersGood_iff, cycleCheck_of_pmod_pos _ _ h]

theorem exec_oscNext_of_ok {u : OscUnit} {s : State} {o : Osc} (h : oscNext s.nanDraws (s.osc u) = .ok o) :
    exec (.oscNext u) s = .next (respond o.out 0#32 0#32 ((s.setOsc u o).draw 16)) := by
  simp [exec, execOscNext, oscNextCommand, oscStep_of_ok h, oscNextDraws]

theorem exec_oscNext_of_error {u : OscUnit} {s : State} {c : Cause} (h : oscNext s.nanDraws (s.osc u) = .error c) :
    exec (.oscNext u) s = .next (raiseFault c (Instr.oscNext u).cmdWord s) := by
  simp [exec, execOscNext, oscNextCommand, oscStep, h]

/-- Settles O29: the checks pass, so the answer is `cycleStart`, which is R91's first branch. -/
theorem oscNextStartsACycle : Obligations.OscNextStartsACycle := by
  refine ⟨rfl, rfl, rfl, fun u s per amp hstart hper hamp hpm hpms hfin => ?_⟩
  have hcheck : cycleCheck (s.nanDraws + 1) per (s.osc u).pmod = .ok () :=
    (cycleCheck_of_pmod_pos _ per hpm).trans (if_pos ⟨hpms, hfin⟩)
  exact exec_oscNext_of_ok (oscNext_of_check_ok hstart hper hamp hcheck)

/-- Settles O30: no check is made, and `inCycle` is R91's second branch. -/
theorem oscNextInsideACycle : Obligations.OscNextInsideACycle :=
  fun _ _ hinside => exec_oscNext_of_ok (oscNext_of_inside hinside)

/-- Settles O31: the operands are read before `PMOD` is checked, and `PMOD` before phaseMax and the half-period. -/
theorem oscNextFaultsInOrder : Obligations.OscNextFaultsInOrder := by
  refine fun u s hstart => ⟨fun hunset => ?_, fun per amp hper hamp => ⟨fun hpm => ?_, fun hpm hbad => ?_⟩⟩
  · exact exec_oscNext_of_error (oscNext_of_unset hstart hunset)
  · exact exec_oscNext_of_error (oscNext_of_check_error hstart hper hamp (cycleCheck_of_pmod_nonpos _ per hpm))
  · rw [hper, hamp, ← Bool.not_eq_true, parametersGood_iff_of_pmod_pos hpm] at hbad
    have hcheck := (cycleCheck_of_pmod_pos _ per hpm).trans (if_neg hbad)
    exact exec_oscNext_of_error (oscNext_of_check_error hstart hper hamp hcheck)

/-! ## `OSC_SQUARE` and `OSC_RESET` (R90, R98) -/

/-- A unit cleared and locked half a period from the reference point `ph`, moving by `inc` (R98). -/
def locked (k : Nat) (ph inc np : Word) (o : Osc) : Osc :=
  let point := fadd (k + 4) ph (fdiv (k + 3) (fmul (k + 2) Config.pi np) Config.two)
  { oscReset o with phase := point, phmax := point, inc := inc }

section Reference
variable {k : Nat} {q : Osc} {np : Word} {o : Osc}

theorem oscSquare_of_rising (h : fgt q.inc Config.zero = true) :
    oscSquare k q np o = locked k (fsub (k + 1) (fadd k q.phmax q.phmax) q.phase) (fneg q.inc) np o := by
  simp [oscSquare, locked, h]

theorem oscSquare_of_falling (h : fgt q.inc Config.zero = false) (h' : flt q.inc Config.zero = true) :
    oscSquare k q np o = locked k q.phase q.inc np o := by
  simp [oscSquare, locked, h, h']

theorem oscSquare_of_idle (h : fgt q.inc Config.zero = false) (h' : flt q.inc Config.zero = false) :
    oscSquare k q np o = locked k (fneg Config.pi) Config.pi np o := by
  simp [oscSquare, locked, h, h']

end Reference

theorem exec_oscSquare {u : OscUnit} {np : Word} {s : State} {o : Osc}
    (h : oscSquare s.nanDraws (s.osc u.other) np (s.osc u) = o) :
    exec (.oscSquare u np) s = .next (respond 0#32 0#32 0#32 ((s.setOsc u o).draw 5)) := by
  rw [← h]
  rfl

/-- Settles O35: the copy of `OSC_SQUARE` always commits, and its three branches each lock the unit. -/
theorem oscSquareLocksToTheOther : Obligations.OscSquareLocksToTheOther := by
  refine ⟨fun np => by simp [Instr.cmdWord, Instr.op, Instr.unit, Instr.reg, OscUnit.number], fun u np s => ?_⟩
  exact ⟨fun hrise => exec_oscSquare (oscSquare_of_rising hrise),
    fun hrise hfall => exec_oscSquare (oscSquare_of_falling hrise hfall),
    fun hrise hfall => exec_oscSquare (oscSquare_of_idle hrise hfall)⟩

/-- The sum of two +0.0 is at most `PI_OVER_4`. -/
theorem startsCycle_of_zero {o : Osc} (k : Nat) (hp : o.phase = Config.zero) (hi : o.inc = Config.zero) :
    startsCycle k o = true := by
  have hsum : fadd k Config.zero Config.zero = Config.zero := fadd_of_val_eq_zero k (by decide) (by decide) (by decide)
  rw [startsCycle, nextPhase, hp, hi, hsum]
  decide

/-- Settles O27: `OSC_RESET` puts `oscReset` of the unit in its place, and from a zero `PHASE` and `INC` a cycle
starts. -/
theorem oscResetClearsTheContinuousState : Obligations.OscResetClearsTheContinuousState :=
  ⟨rfl, rfl, fun u s => ⟨_, rfl, rfl, startsCycle_of_zero _ (by simp [oscReset]) (by simp [oscReset])⟩⟩

/-! ## The check of a cycle start at `PMOD` = 1.0 (R93) -/

/-- Halving a finite number rounds its halved magnitude. -/
theorem fdiv_two_of_isFinite (k : Nat) {a : Word} (h : isFinite a = true) :
    fdiv k a Config.two = roundResult (signBit a) (mag (flush a) * 2 ^ 149) (2 ^ 150) := by
  have hsign : signBit Config.two = false := by decide
  have hzero : isZero (flush Config.two) = false := by decide
  have hmag : mag (flush Config.two) = 2 ^ 150 := by decide
  rw [fdiv_of_isFinite k h (by decide), hzero, hsign, hmag]
  simp

/-- The half-period is at most half the largest finite number. -/
theorem magBits_fdiv_two_le (k : Nat) {a : Word} (h : isFinite a = true) :
    magBits (fdiv k a Config.two) ≤ 0x7EFFFFFF := by
  have hbits : magBits (flush a) ≤ infBits - 1 := by
    have : magBits (flush a) < infBits := by simpa [isFinite] using (isFinite_flush a).trans h
    omega
  have hmag : mag (flush a) ≤ magOf (infBits - 1) := by
    rw [mag_eq_magOf]
    exact magOf_strictMono.monotone hbits
  rw [fdiv_two_of_isFinite k h]
  calc _ ≤ roundMag (mag (flush a) * 2 ^ 149) (2 ^ 150) := magBits_roundResult_le _ _ _
    _ ≤ roundMag (magOf (infBits - 1) * 2 ^ 149) (2 ^ 150) := roundMag_mono _ (Nat.mul_le_mul_right _ hmag)
    _ = 0x7EFFFFFF := by decide

theorem isFinite_fdiv_two (k : Nat) (a : Word) : isFinite (fdiv k a Config.two) = isFinite a := by
  cases h : isFinite a with
  | true => exact decide_eq_true ((magBits_fdiv_two_le k h).trans_lt (by decide))
  | false =>
    rcases isNaN_or_isInf_of_not_isFinite h with hnan | hinf
    · rw [fdiv_of_isNaN k (.inl hnan), isFinite_nanResult]
    · rw [fdiv_of_isInf_isFinite k hinf (by decide), isFinite_pack_infBits]

/-- At `PMOD` = 1.0 the half-period is half the period, and no larger than half the largest finite number. -/
theorem halfPeriod_one_of_isFinite (k : Nat) {per : Word} (h : isFinite per = true) :
    halfPeriod k per Config.one = fdiv k per Config.two ∧ magBits (halfPeriod k per Config.one) ≤ 0x7EFFFFFF := by
  have hle := magBits_fdiv_two_le k h
  have hfin : isFinite (fdiv k per Config.two) = true := decide_eq_true (hle.trans_lt (by decide))
  have heq : halfPeriod k per Config.one = fdiv k per Config.two := by
    rw [halfPeriod, fmul_one_of_isFinite _ hfin, fdiv_two_of_isFinite k h, flush_roundResult]
  exact ⟨heq, heq ▸ hle⟩

theorem isFinite_halfPeriod_one (k : Nat) (per : Word) : isFinite (halfPeriod k per Config.one) = isFinite per := by
  rw [halfPeriod, isFinite_fmul_one, isFinite_fdiv_two]

section HalfPeriod
variable {hp hp' : Word} (k : Nat) (h : magBits hp ≤ 0x7EFFFFFF)
include h

theorem isFinite_of_half : isFinite hp = true := decide_eq_true (h.trans_lt (by decide))

theorem isFinite_half_add : isFinite (fadd k Config.half hp) = true := by
  have hmag : mag (flush hp) ≤ magOf 0x7EFFFFFF := by
    rw [mag_eq_magOf, magBits_flush]
    exact magOf_strictMono.monotone ((flushedMag_le _).trans h)
  have hmax : magOf 0x7EFFFFFF = (2 ^ 24 - 1) * 2 ^ 252 := by decide
  have hhalf : val (flush Config.half) = 2 ^ 148 := by decide
  have hval : (val (flush hp)).natAbs = mag (flush hp) := by
    unfold val
    split <;> simp
  apply isFinite_fadd k (by decide) (isFinite_of_half h)
  rw [hhalf]
  unfold overflowMag
  omega

theorem phaseMaxSamples_draw : phaseMaxSamples k hp = phaseMaxSamples 0 hp := by
  have hadd : fadd k Config.half hp = fadd 0 Config.half hp := by
    have hfin := isFinite_of_half h
    simp only [fadd]
    rw [addCore_of_isFinite k (by decide) (by simpa using hfin),
      addCore_of_isFinite 0 (by decide) (by simpa using hfin)]
  have hfloor := (ffloor_finite (isFinite_half_add 0 h)).1
  simp only [phaseMaxSamples, hadd, fsub]
  rw [addCore_of_isFinite _ (by simpa using hfloor) (by decide),
    addCore_of_isFinite _ (by simpa using hfloor) (by decide)]

theorem phaseMaxSamples_mono (h' : magBits hp' ≤ 0x7EFFFFFF) (hle : fle hp hp' = true) :
    fle (phaseMaxSamples k hp) (phaseMaxSamples k hp') = true := by
  have hsum := fadd_mono_right k (isFinite_of_half h) (isFinite_of_half h') (c := Config.half) (by decide) hle
  have hx := isFinite_half_add k h
  have hx' := isFinite_half_add k h'
  exact fsub_mono_left _ (ffloor_finite hx).1 (ffloor_finite hx').1 (by decide) (ffloor_mono hx hx' hsum)

end HalfPeriod

/-- At `PMOD` = 1.0 phaseMax grows with the period. -/
theorem phaseMaxSamples_halfPeriod_mono (k j : Nat) {a b : Word} (ha : isFinite a = true) (hb : isFinite b = true)
    (h : fle a b = true) :
    fle (phaseMaxSamples k (halfPeriod j a Config.one)) (phaseMaxSamples k (halfPeriod j b Config.one)) = true := by
  obtain ⟨hhalfA, hmaxA⟩ := halfPeriod_one_of_isFinite j ha
  obtain ⟨hhalfB, hmaxB⟩ := halfPeriod_one_of_isFinite j hb
  apply phaseMaxSamples_mono k hmaxA hmaxB
  rw [hhalfA, hhalfB]
  exact fdiv_mono_left j ha hb (by decide) h (by decide) (by decide)

/-- phaseMax of a period at `PMOD` = 1.0, whatever free values its operations are given. -/
theorem phaseMaxSamples_halfPeriod_draw (k j : Nat) {per : Word} (h : isFinite per = true) :
    phaseMaxSamples k (halfPeriod j per Config.one) =
      phaseMaxSamples 0 (roundResult (signBit per) (mag (flush per) * 2 ^ 149) (2 ^ 150)) := by
  obtain ⟨hhalf, hmax⟩ := halfPeriod_one_of_isFinite j h
  rw [phaseMaxSamples_draw k hmax, hhalf, fdiv_two_of_isFinite j h]

/-- The smallest period accepted: its half and 0.5 sum to a tie that rounds up to 1.0. -/
theorem phaseMaxSamples_at_threshold (k j : Nat) :
    phaseMaxSamples k (halfPeriod j 0x3F7FFFFF#32 Config.one) = Config.half := by
  rw [phaseMaxSamples_halfPeriod_draw k j (by decide)]
  decide

/-- The period below it: its half and 0.5 sum to less than 1.0, whose floor is 0. -/
theorem phaseMaxSamples_below_threshold (k j : Nat) :
    phaseMaxSamples k (halfPeriod j 0x3F7FFFFE#32 Config.one) = fneg Config.half := by
  rw [phaseMaxSamples_halfPeriod_draw k j (by decide)]
  decide

/-- No binary32 lies between 0x3F7FFFFE and 0x3F7FFFFF. -/
theorem fle_below_threshold {per : Word} (hfin : isFinite per = true) (h : fle 0x3F7FFFFF#32 per = false) :
    fle per 0x3F7FFFFE#32 = true := by
  have hnan := isNaN_of_isFinite hfin
  have hkey : orderKey (flush 0x3F7FFFFF#32) = 0x3F7FFFFF := by decide
  have hkey' : orderKey (flush 0x3F7FFFFE#32) = 0x3F7FFFFE := by decide
  rw [fle_of_numbers (by decide) hnan, hkey, decide_eq_false_iff_not] at h
  rw [fle_of_numbers hnan (by decide), hkey', decide_eq_true_iff]
  omega

theorem phaseMaxSamples_pos_iff (k j : Nat) {per : Word} (hfin : isFinite per = true) :
    fgt (phaseMaxSamples k (halfPeriod j per Config.one)) Config.zero = true ↔ fle 0x3F7FFFFF#32 per = true := by
  cases h : fle 0x3F7FFFFF#32 per with
  | true =>
    have hge := phaseMaxSamples_halfPeriod_mono k j (by decide) hfin h
    rw [phaseMaxSamples_at_threshold] at hge
    exact iff_of_true (flt_of_flt_of_fle (by decide) hge) rfl
  | false =>
    have hle := phaseMaxSamples_halfPeriod_mono k j hfin (by decide) (fle_below_threshold hfin h)
    rw [phaseMaxSamples_below_threshold] at hle
    have hneg : flt Config.zero (fneg Config.half) = false := by decide
    exact iff_of_false (fun hpos => by simp [flt_of_flt_of_fle hpos hle] at hneg) Bool.false_ne_true

/-- Settles O32: phaseMax grows with the period, and changes its sign between 0x3F7FFFFE and 0x3F7FFFFF; the half-period
is finite exactly when the period is. -/
theorem periodThresholdAtUnitModulation : Obligations.PeriodThresholdAtUnitModulation := by
  intro k per amp
  change parametersGood k (some per) (some amp) Config.one = true ↔ _
  rw [parametersGood_iff_of_pmod_pos (by decide), isFinite_halfPeriod_one, and_comm]
  exact and_congr_right (phaseMaxSamples_pos_iff _ _)

end Sys2Proof.Machine

namespace Sys2Proof.Machine

/-! # Envelopes (42_envelope.md)

## `ENV_NEXT` by its branches (R111) -/

section Branches
variable {k : Nat} {u : Env}

theorem envNext_of_inside (h : attackEnds k u = false) : envNext k u = .ok { u with level := nextLevel k u } := by
  simp [envNext, h]

theorem envNext_of_attackEnds {m t : Word} (h : attackEnds k u = true) (hm : u.decmul = some m)
    (ht : u.suslvl = some t) : envNext k u = .ok { u with level := nextLevel k u, mult := m, target := t } := by
  simp [envNext, h, hm, ht]

theorem envNext_of_unset (h : attackEnds k u = true) (hp : u.decmul = none ∨ u.suslvl = none) :
    envNext k u = .error .unsetOperand := by
  rcases hp with hp | hp
  · simp [envNext, h, hp]
  · cases hd : u.decmul <;> simp [envNext, h, hp, hd]

end Branches

theorem exec_envNext_of_ok {e : EnvUnit} {s : State} {u : Env} (h : envNext s.nanDraws (s.env e) = .ok u) :
    exec (.envNext e) s = .next (respond u.level 0#32 0#32 ((s.setEnv e u).draw 4)) := by
  simp [exec, execEnvNext, envNextCommand, envStep, envNextDraws, h]

theorem exec_envNext_of_error {e : EnvUnit} {s : State} {c : Cause} (h : envNext s.nanDraws (s.env e) = .error c) :
    exec (.envNext e) s = .next (raiseFault c (Instr.envNext e).cmdWord s) := by
  simp [exec, execEnvNext, envNextCommand, envStep, h]

/-- Settles O38: the exit test of the statement is `attackEnds`, and each of its three branches ends `ENV_NEXT`. -/
theorem envNextStepsAndSwitches : Obligations.EnvNextStepsAndSwitches := by
  refine ⟨rfl, rfl, rfl, fun e s => ⟨fun hinside => ?_, fun hends => ⟨fun m t hm ht => ?_, fun hunset => ?_⟩⟩⟩
  · exact exec_envNext_of_ok (envNext_of_inside hinside)
  · exact exec_envNext_of_ok (envNext_of_attackEnds hends hm ht)
  · exact exec_envNext_of_error (envNext_of_unset hends hunset)

/-! ## An idle envelope (R110, R114) -/

theorem natAbs_val_lt_overflowMag {w : Word} (h : isFinite w = true) : (val w).natAbs < overflowMag := by
  have hbits : magBits w ≤ infBits - 1 := by
    have : magBits w < infBits := by simpa [isFinite] using h
    omega
  have hval : (val w).natAbs = magOf (magBits w) := by rw [val_eq]; split <;> simp
  calc (val w).natAbs = magOf (magBits w) := hval
    _ ≤ magOf (infBits - 1) := magOf_strictMono.monotone hbits
    _ < overflowMag := by decide

/-- Subtracting +0.0 from a finite number does not overflow. -/
theorem isFinite_fsub_zero (k : Nat) {a : Word} (h : isFinite a = true) : isFinite (fsub k a Config.zero) = true := by
  have hzero : val (flush Config.zero) = 0 := by decide
  obtain ⟨w, ⟨-, -, -, hfin⟩, hw⟩ := fsub_nearestEven k h (b := Config.zero) (by decide)
  rw [hzero, Int.sub_zero, Nat.mul_one] at hfin
  rw [hw, isFinite_flush]
  exact (hfin (natAbs_val_lt_overflowMag (by simpa using h))).1

section Idle
variable (k : Nat) {u : Env} (hl : isFinite u.level = true) (ht : u.target = Config.zero) (hm : u.mult = Config.zero)
include hl ht hm

/-- The product is a zero of either sign, and its sum with +0.0 is +0.0. -/
theorem nextLevel_of_idle : nextLevel k u = Config.zero := by
  obtain ⟨s, hs⟩ : ∃ s, fmul (k + 1) Config.zero (fsub k u.level Config.zero) = pack s 0 :=
    ⟨_, fmul_of_isZero (k + 1) (by decide) (isFinite_fsub_zero k hl) (.inl (by decide))⟩
  have hfin : isFinite (pack s 0) = true := by cases s <;> decide
  have hsum : val (flush (pack s 0)) + val (flush Config.zero) = 0 := by cases s <;> decide
  have hsign : signBit Config.zero = false := by decide
  rw [nextLevel, ht, hm, hs, fadd_of_val_eq_zero _ hfin (by decide) hsum, hsign, Bool.and_false]
  rfl

theorem attackEnds_of_idle : attackEnds k u = false := by
  have hsum : fadd (k + 3) Config.zero Config.zero = Config.zero :=
    fadd_of_val_eq_zero _ (by decide) (by decide) (by decide)
  rw [attackEnds, nextLevel_of_idle k hl ht hm, ht, hsum]
  decide

end Idle

/-- Settles O42: the exit test fails on an idle envelope, and its next level is +0.0. -/
theorem idleEnvelopeFallsToZero : Obligations.IdleEnvelopeFallsToZero := by
  intro e s hl ht hm
  have hnext : envNext s.nanDraws (s.env e) = .ok { s.env e with level := Config.zero } := by
    rw [envNext_of_inside (attackEnds_of_idle _ hl ht hm), nextLevel_of_idle _ hl ht hm]
  exact exec_envNext_of_ok hnext

/-! ## The attack exit (R116) -/

/-- The sum of two finite numbers takes no free NaN value. -/
theorem fadd_draw (k : Nat) {a b : Word} (ha : isFinite a = true) (hb : isFinite b = true) :
    fadd k a b = fadd 0 a b := by
  simp only [fadd]
  rw [addCore_of_isFinite k (by simpa using ha) (by simpa using hb),
    addCore_of_isFinite 0 (by simpa using ha) (by simpa using hb)]

theorem fadd_mono_left (k : Nat) {a b c : Word} (ha : isFinite a = true) (hb : isFinite b = true)
    (hc : isFinite c = true) (h : fle a b = true) : fle (fadd k a c) (fadd k b c) = true :=
  addCore_mono_left k (by simpa using ha) (by simpa using hb) (by simpa using hc) ((fle_iff_val ha hb).mp h)

theorem not_flt_of_fle {a b : Word} (h : fle a b = true) : flt b a = false := by
  rw [← Bool.not_eq_true, flt_eq_true_iff]
  rw [fle_eq_true_iff] at h
  omega

/-- A number not at least `c` is at most the binary32 just below `c`. -/
theorem fle_of_fle_succ_eq_false {a b c : Word} (ha : isNaN a = false) (hb : isNaN b = false) (hc : isNaN c = false)
    (hsucc : orderKey (flush c) = orderKey (flush b) + 1) (h : fle c a = false) : fle a b = true := by
  rw [fle_of_numbers hc ha, hsucc, decide_eq_false_iff_not] at h
  rw [fle_of_numbers ha hb, decide_eq_true_iff]
  omega

/-- The smallest level that ends an attack. -/
theorem fadd_two_at_exit (k : Nat) : fadd k 0x3F800002#32 Config.two = 0x40400001#32 :=
  (fadd_draw k (by decide) (by decide)).trans (by decide)

/-- The level below it: its sum with 2.0 is a tie that goes to the even 3.0. -/
theorem fadd_two_below_exit (k : Nat) : fadd k 0x3F800001#32 Config.two = Config.attackExit :=
  (fadd_draw k (by decide) (by decide)).trans (by decide)

/-- Settles O43: among finite levels the sum grows with the level and passes 3.0 between 0x3F800001 and 0x3F800002;
an infinite level is its own sum. -/
theorem attackExitThreshold : Obligations.AttackExitThreshold := by
  intro k lv hnan
  change flt Config.attackExit (fadd k lv Config.two) = true ↔ _
  cases hfin : isFinite lv with
  | false =>
    have hinf : isInf lv = true := (isNaN_or_isInf_of_not_isFinite hfin).resolve_left (by simp [hnan])
    obtain ⟨hexit, -⟩ := compare_isFinite_isInf (a := Config.attackExit) (by decide) hinf
    obtain ⟨-, hthreshold, -⟩ := compare_isFinite_isInf (a := 0x3F800002#32) (by decide) hinf
    rw [fadd_of_isInf_isFinite k hinf (by decide), hexit, hthreshold]
  | true =>
    cases h : fle 0x3F800002#32 lv with
    | true =>
      have hge := fadd_mono_left k (by decide) hfin (c := Config.two) (by decide) h
      rw [fadd_two_at_exit] at hge
      exact iff_of_true (flt_of_flt_of_fle (by decide) hge) rfl
    | false =>
      have hbelow : fle lv 0x3F800001#32 = true :=
        fle_of_fle_succ_eq_false hnan (by decide) (by decide) (by decide) h
      have hle := fadd_mono_left k hfin (by decide) (c := Config.two) (by decide) hbelow
      rw [fadd_two_below_exit] at hle
      exact iff_of_false (by simp [not_flt_of_fle hle]) Bool.false_ne_true

/-! ## `ENV_RESET`, `ENV_ATTACK`, `ENV_RELEASE` and `ENV_NUDGE` (R110, R112 to R114) -/

theorem setEnv_self (s : State) (e : EnvUnit) : s.setEnv e (s.env e) = s := by cases e <;> rfl

/-- An attack's target is the threshold of `STATUS.ATTACK` itself. -/
theorem attacking_of_attackTarget {u : Env} (h : u.target = Config.attackTarget) : u.attacking = true := by
  rw [Env.attacking, h]
  decide

theorem stage_of_attacking {u : Env} (h : u.attacking = true) : u.stage = some .attack := if_pos h

theorem exec_envAttack_of_some {e : EnvUnit} {s : State} {am : Word} (h : (s.env e).attmul = some am) :
    exec (.envAttack e) s = .next (respond 0#32 0#32 0#32
      ((s.setEnv e { s.env e with
        level := nudged s.nanDraws (s.env e), target := Config.attackTarget, mult := am }).draw 1)) := by
  simp [exec, execEnvAttack, envAttackCommand, envAttack, h]

theorem exec_envAttack_of_none {e : EnvUnit} {s : State} (h : (s.env e).attmul = none) :
    exec (.envAttack e) s = .next (raiseFault .unsetOperand (Instr.envAttack e).cmdWord s) := by
  simp [exec, execEnvAttack, envAttackCommand, envAttack, h]

theorem exec_envRelease_of_some {e : EnvUnit} {s : State} {rm : Word} (h : (s.env e).relmul = some rm) :
    exec (.envRelease e) s = .next (respond 0#32 0#32 0#32
      (s.setEnv e { s.env e with target := Config.zero, mult := rm })) := by
  simp [exec, execEnvRelease, envReleaseCommand, releaseStep, envRelease, h]

theorem exec_envRelease_of_none {e : EnvUnit} {s : State} (h : (s.env e).relmul = none) :
    exec (.envRelease e) s = .next (raiseFault .unsetOperand (Instr.envRelease e).cmdWord s) := by
  simp [exec, execEnvRelease, envReleaseCommand, releaseStep, envRelease, h]

/-- Settles O36: `ENV_RESET` puts `envReset` of the unit in its place; an envelope so cleared is idle, and its next
level is the +0.0 it holds. -/
theorem envResetForcesSilence : Obligations.EnvResetForcesSilence := by
  refine ⟨rfl, rfl, fun e s => ⟨_, rfl, rfl, ?_⟩, fun e s hl ht hm => ?_⟩
  · exact congrArg some (status_of_silent (by simp [envReset]) (by simp [envReset]))
  · have hfin : isFinite (s.env e).level = true := by rw [hl]; decide
    have hself : { s.env e with level := 0#32 } = s.env e := by rw [← hl]
    rw [idleEnvelopeFallsToZero e s hfin ht hm, hself, setEnv_self]

/-- Settles O39: the copy of `ENV_ATTACK` faults only in its read of `ATTMUL`. -/
theorem envAttackStartsTheAttack : Obligations.EnvAttackStartsTheAttack := by
  refine ⟨rfl, fun e s => ⟨fun am ham => ⟨_, exec_envAttack_of_some ham, rfl, ?_⟩, exec_envAttack_of_none⟩⟩
  rw [respond_env, draw_env, setEnv_env]
  have hattack := attacking_of_attackTarget (u := { s.env e with
    level := nudged s.nanDraws (s.env e), target := Config.attackTarget, mult := am }) rfl
  exact ⟨hattack, stage_of_attacking hattack⟩

/-- Settles O40: the copy of `ENV_RELEASE` faults only in its read of `RELMUL`. -/
theorem envReleaseStartsTheRelease : Obligations.EnvReleaseStartsTheRelease := by
  refine fun e s => ⟨fun rm hrm => ⟨_, exec_envRelease_of_some hrm, rfl, ?_⟩, exec_envRelease_of_none⟩
  rw [respond_env, setEnv_env]
  exact attacking_of_target_zero rfl

/-- Settles O41: the copy of `ENV_NUDGE` always commits. -/
theorem envNudgeRaisesTheLevel : Obligations.EnvNudgeRaisesTheLevel := ⟨rfl, rfl, fun _ _ => rfl⟩

end Sys2Proof.Machine

namespace Sys2Proof.Machine

/-! # The voice mixer (43_voice_mixer.md)

## Order, finiteness and free values of the pan arithmetic (R9, R12, R13) -/

/-- R13: `toF32` keeps the order of the integers, up to the order of the numbers. -/
theorem toF32_mono {m n : Word} (h : m.toInt ≤ n.toInt) : fle (toF32 m) (toF32 n) = true := by
  have key (w : Word) : orderKey (flush (toF32 w)) =
      orderKey (roundResult (decide (w.toInt * 2 ^ 149 < 0)) (w.toInt * 2 ^ 149).natAbs 1) := by
    have hsign : w.msb = decide (w.toInt * 2 ^ 149 < 0) := by
      rw [BitVec.msb_eq_toInt, decide_eq_decide]
      omega
    have hmag : (w.toInt * 2 ^ 149).natAbs = w.toInt.natAbs * 2 ^ 149 := by rw [Int.natAbs_mul]; rfl
    rw [toF32, flush_roundResult, hsign, hmag]
  rw [fle_of_numbers (by simp [toF32]) (by simp [toF32]), key, key, decide_eq_true_iff]
  exact orderKey_round_mono 1 (by omega)

theorem isFinite_toF32 (n : Word) : isFinite (toF32 n) = true := by
  obtain ⟨-, -, -, hfin⟩ := toF32_nearestEven n
  have hlow := n.le_toInt
  have hhigh := n.toInt_lt
  refine (hfin ?_).1
  unfold overflowMag
  omega

/-- What lies between two finite numbers is finite. -/
theorem isFinite_of_fle_of_fle {a x b : Word} (ha : isFinite a = true) (hb : isFinite b = true)
    (hax : fle a x = true) (hxb : fle x b = true) : isFinite x = true := by
  cases hx : isFinite x with
  | true => rfl
  | false =>
    obtain ⟨-, hnan, -⟩ := (fle_eq_true_iff a x).mp hax
    have hinf : isInf x = true := (isNaN_or_isInf_of_not_isFinite hx).resolve_left (by simp [hnan])
    obtain ⟨-, hlow, -⟩ := compare_isFinite_isInf ha hinf
    obtain ⟨-, -, -, hhigh⟩ := compare_isFinite_isInf hb hinf
    simp [hlow] at hax
    simp [hhigh, hax] at hxb

theorem fsub_draw (k : Nat) {a b : Word} (ha : isFinite a = true) (hb : isFinite b = true) :
    fsub k a b = fsub 0 a b := by
  simp only [fsub]
  rw [addCore_of_isFinite k (by simpa using ha) (by simpa using hb),
    addCore_of_isFinite 0 (by simpa using ha) (by simpa using hb)]

theorem fmul_draw (k : Nat) {a b : Word} (ha : isFinite a = true) (hb : isFinite b = true) :
    fmul k a b = fmul 0 a b := by
  rw [fmul_of_isFinite k ha hb, fmul_of_isFinite 0 ha hb]

theorem fdiv_draw (k : Nat) {a b : Word} (ha : isFinite a = true) (hb : isFinite b = true)
    (h0 : isZero (flush b) = false) : fdiv k a b = fdiv 0 a b := by
  simp [fdiv_of_isFinite _ ha hb, h0]

theorem flt_of_fle_of_flt {a b c : Word} (hab : fle a b = true) (hbc : flt b c = true) : flt a c = true := by
  rw [flt_eq_true_iff] at hbc ⊢
  rw [fle_eq_true_iff] at hab
  exact ⟨hab.1, hbc.2.1, hab.2.2.trans_lt hbc.2.2⟩

/-! ## When the steps of `VOICE_RENDER` complete (R91, R93, R111, R131) -/

/-- A unit is ready exactly when `OSC_NEXT` completes on it. -/
theorem oscReady_iff_ok {k : Nat} {o : Osc} : oscReady k o = true ↔ ∃ o', oscNext k o = .ok o' := by
  refine ⟨oscNext_ok_of_oscReady, fun ⟨o', h⟩ => ?_⟩
  rw [oscReady, Bool.or_eq_true, Bool.not_eq_true']
  rcases oscNext_ok_cases h with ⟨-, per, amp, hper, hamp, hcheck, -⟩ | ⟨hinside, -⟩
  · exact .inr (parametersGood_iff.mpr ⟨per, amp, hper, hamp, hcheck⟩)
  · exact .inl hinside

theorem oscReady_of_ok {k : Nat} {o o' : Osc} (h : oscNext k o = .ok o') : oscReady k o = true :=
  oscReady_iff_ok.mpr ⟨o', h⟩

theorem oscNext_error_of_not_oscReady {k : Nat} {o : Osc} (h : oscReady k o = false) :
    ∃ c, oscNext k o = .error c := by
  cases hn : oscNext k o with
  | error c => exact ⟨c, rfl⟩
  | ok o' => simp [oscReady_of_ok hn] at h

theorem not_oscReady_of_error {k : Nat} {o : Osc} {c : Cause} (h : oscNext k o = .error c) :
    oscReady k o = false := by
  rw [← Bool.not_eq_true, oscReady_iff_ok]
  simp [h]

/-- `ENV_NEXT` faults exactly on a unit that is not ready. -/
theorem envNext_eq_error_iff {k : Nat} {u : Env} {c : Cause} :
    envNext k u = .error c ↔ envReady k u = false ∧ c = .unsetOperand := by
  have hready : envReady k u = (!attackEnds k u || (u.decmul.isSome && u.suslvl.isSome)) := rfl
  rw [hready]
  cases hends : attackEnds k u with
  | false => simp [envNext_of_inside hends]
  | true =>
    cases hm : u.decmul with
    | none => simp [envNext_of_unset hends (.inl hm), eq_comm]
    | some m =>
      cases ht : u.suslvl with
      | none => simp [envNext_of_unset hends (.inr ht), eq_comm]
      | some t => simp [envNext_of_attackEnds hends hm ht]

theorem filterSlot_of_open {s : State} (h : s.voice.fbyp = true ∨ s.fcoef = true) (x : Word) :
    filterSlot s x = .ok (if s.voice.fbyp then (x, s.filter) else Config.filterRender s.filter x) := by
  unfold filterSlot
  split
  · rfl
  · next hb => rw [if_pos (h.resolve_left hb)]

theorem filterSlot_eq_error_iff {s : State} {x : Word} {c : Cause} :
    filterSlot s x = .error c ↔ s.voice.fbyp = false ∧ s.fcoef = false ∧ c = .unsetOperand := by
  cases hb : s.voice.fbyp <;> cases hc : s.fcoef <;> simp [filterSlot, hb, hc, eq_comm]

theorem filterSlot_completes_iff {s : State} {x : Word} :
    (∃ y f, filterSlot s x = .ok (y, f)) ↔ s.voice.fbyp = true ∨ s.fcoef = true := by
  refine ⟨fun ⟨y, f, h⟩ => ?_, fun h => ⟨_, _, filterSlot_of_open h x⟩⟩
  rcases filterSlot_ok_cases h with ⟨hb, -⟩ | ⟨-, hc, -⟩
  · exact .inl hb
  · exact .inr hc

theorem oscStep_of_error {u : OscUnit} {s : State} {c : Cause} (h : oscNext s.nanDraws (s.osc u) = .error c) :
    oscStep u s = .error c := by
  simp [oscStep, h]

theorem envStep_eq_error_iff {e : EnvUnit} {s : State} {c : Cause} :
    envStep e s = .error c ↔ envNext s.nanDraws (s.env e) = .error c := by
  simp [envStep, except_bind_eq_error]

/-! ## `VOICE_RENDER` (R131, R132) -/

/-- R131, R166: the faults of a render in their order; none of them depends on the noise. -/
theorem renderCommand_eq_error_iff {n : Word} {s : State} {c : Cause} :
    renderCommand n s = .error c ↔
      oscNext s.nanDraws s.osc1 = .error c ∨
      oscReady s.nanDraws s.osc1 = true ∧
        (oscNext (s.nanDraws + 16) s.osc2 = .error c ∨
        oscReady (s.nanDraws + 16) s.osc2 = true ∧
          (s.voice.fbyp = false ∧ s.fcoef = false ∧ c = .unsetOperand ∨
          (s.voice.fbyp = true ∨ s.fcoef = true) ∧ envNext (s.nanDraws + 39) s.aenv = .error c)) := by
  cases h1 : oscNext s.nanDraws s.osc1 with
  | error e => simp [renderCommand, oscStep_of_error (u := .osc1) h1, not_oscReady_of_error h1]
  | ok o1 =>
    have hstep1 := oscStep_of_ok (u := .osc1) h1
    cases h2 : oscNext (s.nanDraws + 16) s.osc2 with
    | error e =>
      have hstep2 : oscStep .osc2 ((s.setOsc .osc1 o1).draw oscNextDraws) = _ := oscStep_of_error (u := .osc2) h2
      simp [renderCommand, hstep1, hstep2, oscReady_of_ok h1, not_oscReady_of_error h2]
    | ok o2 =>
      have hstep2 : oscStep .osc2 ((s.setOsc .osc1 o1).draw oscNextDraws) = _ := oscStep_of_ok (u := .osc2) h2
      simp only [renderCommand, hstep1, hstep2, except_bind_ok]
      simp [except_bind_eq_error, filterSlot_eq_error_iff, filterSlot_completes_iff, envStep_eq_error_iff,
        oscReady_of_ok h1, oscReady_of_ok h2, oscNextDraws, mixDraws]

theorem exec_voiceRender_of_ok {n : Word} {s t : State} (h : renderCommand n s = .ok t) :
    exec (.voiceRender n) s = .next t := by
  rw [← commit_ok (.voiceRender n) s t, ← h]
  rfl

theorem renderCommand_ok_of_ready {s : State} (n : Word) (h1 : oscReady s.nanDraws s.osc1 = true)
    (h2 : oscReady (s.nanDraws + 16) s.osc2 = true) (hf : s.voice.fbyp = true ∨ s.fcoef = true)
    (hu : envReady (s.nanDraws + 39) s.aenv = true) : ∃ t, renderCommand n s = .ok t := by
  cases hr : renderCommand n s with
  | ok t => exact ⟨t, rfl⟩
  | error c =>
    obtain ⟨o1, ho1⟩ := oscReady_iff_ok.mp h1
    obtain ⟨o2, ho2⟩ := oscReady_iff_ok.mp h2
    rw [renderCommand_eq_error_iff, ho1, ho2, envNext_eq_error_iff, hu] at hr
    rcases hf with hf | hf <;> simp [hf] at hr

/-- Settles O46: what a completed render leaves is written out from its steps, each of which is that of the
command alone. -/
theorem voiceRenderComposesItsSteps : Obligations.VoiceRenderComposesItsSteps := by
  refine ⟨rfl, fun n s h1 h2 (hf : s.voice.fbyp = true ∨ s.fcoef = true) hu => ?_⟩
  obtain ⟨t, ht⟩ := renderCommand_ok_of_ready n h1 h2 hf hu
  obtain ⟨o1, o2, u, y, f, ho1, ho2, hnext, hslot, heq⟩ := renderCommand_ok_cases ht
  refine ⟨o1, o2, u, exec_oscNext_of_ok ho1, exec_oscNext_of_ok (u := .osc2) (s := s.draw 16) ho2,
    exec_envNext_of_ok (e := .aenv) (s := s.draw 39) hnext, ?_⟩
  rw [filterSlot_of_open hf, Except.ok.injEq] at hslot
  rw [exec_voiceRender_of_ok ht, heq]
  intro k saw x slot
  rw [show slot = (y, f) from hslot]
  rfl

/-- Settles O47: `renderCommand_eq_error_iff` lists the faults, and each is that of its step alone. -/
theorem voiceRenderFaultsInOrder : Obligations.VoiceRenderFaultsInOrder := by
  refine fun n s => ⟨fun h1 => ?_, fun h1 => ⟨fun h2 => ?_, fun h2 => ⟨fun hb hc => ?_, fun hf hu => ?_⟩⟩⟩
  · obtain ⟨c, hc⟩ := oscNext_error_of_not_oscReady h1
    exact ⟨c, exec_oscNext_of_error hc, exec_voiceRender_of_error (renderCommand_eq_error_iff.mpr (.inl hc))⟩
  · obtain ⟨c, hc⟩ := oscNext_error_of_not_oscReady h2
    exact ⟨c, exec_oscNext_of_error (u := .osc2) (s := s.draw 16) hc,
      exec_voiceRender_of_error (renderCommand_eq_error_iff.mpr (.inr ⟨h1, .inl hc⟩))⟩
  · exact exec_voiceRender_of_error (renderCommand_eq_error_iff.mpr (.inr ⟨h1, .inr ⟨h2, .inl ⟨hb, hc, rfl⟩⟩⟩))
  · have hnext := envNext_eq_error_iff.mpr ⟨hu, rfl⟩
    exact exec_voiceRender_of_error (renderCommand_eq_error_iff.mpr (.inr ⟨h1, .inr ⟨h2, .inr ⟨hf, hnext⟩⟩⟩))

/-- Settles O48: a render with the other noise faults as the one does, or both complete, and then what precedes the
noise is the same in both. -/
theorem noiseDoesNotReachTheIntegrator : Obligations.NoiseDoesNotReachTheIntegrator := by
  intro n n' s t t' h h'
  have hfault (c : Cause) : renderCommand n s = .error c ↔ renderCommand n' s = .error c :=
    renderCommand_eq_error_iff.trans renderCommand_eq_error_iff.symm
  cases hr : renderCommand n s with
  | error c =>
    rw [exec_voiceRender_of_error hr] at h
    rw [exec_voiceRender_of_error ((hfault c).mp hr)] at h'
    cases h
    cases h'
    exact ⟨rfl, rfl, rfl, rfl, rfl⟩
  | ok v =>
    cases hr' : renderCommand n' s with
    | error c => simp [(hfault c).mpr hr'] at hr
    | ok v' =>
      rw [exec_voiceRender_of_ok hr] at h
      rw [exec_voiceRender_of_ok hr'] at h'
      cases h
      cases h'
      obtain ⟨o1, o2, u, y, f, ho1, ho2, hu, -, rfl⟩ := renderCommand_ok_cases hr
      obtain ⟨o1', o2', u', y', f', ho1', ho2', hu', -, rfl⟩ := renderCommand_ok_cases hr'
      cases ho1.symm.trans ho1'
      cases ho2.symm.trans ho2'
      cases hu.symm.trans hu'
      exact ⟨rfl, rfl, rfl, rfl, rfl⟩

/-! ## The pan position (R136, R137) -/

/-- The pan position before the clamp. -/
def panQuotient (k : Nat) (note : Word) : Word :=
  fdiv (k + 1) (fsub k (toF32 note) Config.noteCentre) Config.noteSpan

theorem panOf_eq (k : Nat) (note : Word) :
    panOf k note = fclamp (panQuotient k note) Config.minusOne Config.one := rfl

theorem fsub_noteCentre_mono (k : Nat) {m n : Word} (h : m.toInt ≤ n.toInt) :
    fle (fsub k (toF32 m) Config.noteCentre) (fsub k (toF32 n) Config.noteCentre) = true :=
  fsub_mono_left k (isFinite_toF32 m) (isFinite_toF32 n) (by decide) (toF32_mono h)

/-- The distance from the centre lies between those of the least and of the greatest int32. -/
theorem isFinite_fsub_noteCentre (k : Nat) (n : Word) : isFinite (fsub k (toF32 n) Config.noteCentre) = true := by
  have hlow := fsub_noteCentre_mono k (m := 0x80000000#32) (n := n) n.le_toInt
  have hhigh := fsub_noteCentre_mono k (m := n) (n := 0x7FFFFFFF#32) (Int.le_of_lt_add_one n.toInt_lt)
  rw [fsub_draw k (isFinite_toF32 0x80000000#32) (by decide)] at hlow
  rw [fsub_draw k (isFinite_toF32 0x7FFFFFFF#32) (by decide)] at hhigh
  exact isFinite_of_fle_of_fle (by decide) (by decide) hlow hhigh

theorem panQuotient_mono (k : Nat) {m n : Word} (h : m.toInt ≤ n.toInt) :
    fle (panQuotient k m) (panQuotient k n) = true :=
  fdiv_mono_left _ (isFinite_fsub_noteCentre k m) (isFinite_fsub_noteCentre k n) (by decide)
    (fsub_noteCentre_mono k h) (by decide) (by decide)

theorem panQuotient_draw (k : Nat) (note : Word) : panQuotient k note = panQuotient 0 note := by
  have hdist := fsub_draw k (isFinite_toF32 note) (b := Config.noteCentre) (by decide)
  rw [panQuotient, fdiv_draw _ (isFinite_fsub_noteCentre k note) (by decide) (by decide), hdist, panQuotient,
    fdiv_draw (0 + 1) (isFinite_fsub_noteCentre 0 note) (by decide) (by decide)]

/-- Note 36 lies on the lower bound of the clamp, and note 35 already below it. -/
theorem panOf_of_le_36 (k : Nat) {note : Word} (h : note.toInt ≤ 36) : panOf k note = Config.minusOne := by
  rw [panOf_eq]
  rcases h.lt_or_eq with hlt | heq
  · have hle : fle (panQuotient k note) (panQuotient k 35#32) = true := panQuotient_mono k (Int.le_of_lt_add_one hlt)
    have h35 : flt (panQuotient k 35#32) Config.minusOne = true := by
      rw [panQuotient_draw]
      decide
    exact fclamp_of_below (flt_of_fle_of_flt hle h35)
  · rw [BitVec.eq_of_toInt_eq (y := 36#32) heq, panQuotient_draw]
    decide

/-- Note 84 lies on the upper bound of the clamp, and note 85 already above it. -/
theorem panOf_of_ge_84 (k : Nat) {note : Word} (h : 84 ≤ note.toInt) : panOf k note = Config.one := by
  rw [panOf_eq]
  rcases h.lt_or_eq with hlt | heq
  · have hle : fle (panQuotient k 85#32) (panQuotient k note) = true := panQuotient_mono k hlt
    have h85 : flt Config.one (panQuotient k 85#32) = true := by
      rw [panQuotient_draw]
      decide
    exact fclamp_of_above (by decide) (flt_of_flt_of_fle h85 hle)
  · rw [BitVec.eq_of_toInt_eq (y := 84#32) heq.symm, panQuotient_draw]
    decide

theorem panOf_of_eq_60 (k : Nat) {note : Word} (h : note.toInt = 60) : panOf k note = Config.zero := by
  rw [panOf_eq, BitVec.eq_of_toInt_eq (y := 60#32) h, panQuotient_draw]
  decide

/-- R7: the sentinel is negative. -/
theorem toInt_sustain_neg : Config.sustain.toInt < 0 := by
  have hmsb : Config.sustain.msb = true := BitVec.msb_append (x := 1#1) (y := Config.sustainLow)
  rw [BitVec.msb_eq_toInt] at hmsb
  exact of_decide_eq_true hmsb

/-! ## `VOICE_PAN` (R136, R137) -/

section Gains
variable (k : Nat) {pan w : Word} (hpan : isFinite pan = true)
include hpan

/-- The angle of a finite position takes no free NaN value. -/
theorem panLeft_of_angle (hfin : isFinite (fsub 0 Config.one pan) = true)
    (h : fmul 0 Config.piOver4 (fsub 0 Config.one pan) = w) : panLeft k pan = Config.sin32 w := by
  rw [panLeft, fsub_draw k (by decide) hpan, fmul_draw _ (by decide) hfin, h]

/-- The angle of a finite position takes no free NaN value. -/
theorem panRight_of_angle (hfin : isFinite (fadd 0 Config.one pan) = true)
    (h : fmul 0 Config.piOver4 (fadd 0 Config.one pan) = w) : panRight k pan = Config.sin32 w := by
  rw [panRight, fadd_draw k (by decide) hpan, fmul_draw _ (by decide) hfin, h]

end Gains

theorem gains_of_minusOne (k j : Nat) :
    panLeft k Config.minusOne = Config.sin32 0x3FC90FDB#32 ∧ panRight j Config.minusOne = Config.sin32 0#32 :=
  ⟨panLeft_of_angle k (by decide) (by decide) (by decide), panRight_of_angle j (by decide) (by decide) (by decide)⟩

theorem gains_of_one (k j : Nat) :
    panLeft k Config.one = Config.sin32 0#32 ∧ panRight j Config.one = Config.sin32 0x3FC90FDB#32 :=
  ⟨panLeft_of_angle k (by decide) (by decide) (by decide), panRight_of_angle j (by decide) (by decide) (by decide)⟩

theorem gains_of_zero (k j : Nat) :
    panLeft k Config.zero = Config.sin32 0x3F490FDB#32 ∧ panRight j Config.zero = Config.sin32 0x3F490FDB#32 :=
  ⟨panLeft_of_angle k (by decide) (by decide) (by decide), panRight_of_angle j (by decide) (by decide) (by decide)⟩

/-- Settles O50: the copy of `VOICE_PAN` always commits. -/
theorem voicePanComputesTheGains : Obligations.VoicePanComputesTheGains := ⟨rfl, fun _ => rfl⟩

/-- Settles O51: the position grows with the note, so the clamp holds it at its bounds from 36 down and from 84 up. -/
theorem panExtremesAndCentre : Obligations.PanExtremesAndCentre := by
  intro s
  obtain ⟨t, ht, hl, hr⟩ : ∃ t, exec .voicePan s = .next t ∧
      t.voice.panl = panLeft (s.nanDraws + 2) (panOf s.nanDraws s.voice.note) ∧
      t.voice.panr = panRight (s.nanDraws + 4) (panOf s.nanDraws s.voice.note) := ⟨_, rfl, rfl, rfl⟩
  refine ⟨t, ht, ?_⟩
  rw [hl, hr]
  refine ⟨fun h => ?left, fun h => ?right, fun h => ?centre, fun h => ?sustain⟩
  case left => rw [panOf_of_le_36 _ h]; exact gains_of_minusOne _ _
  case right => rw [panOf_of_ge_84 _ h]; exact gains_of_one _ _
  case centre => rw [panOf_of_eq_60 _ h]; exact gains_of_zero _ _
  case sustain =>
    have hneg := toInt_sustain_neg
    rw [h, panOf_of_le_36 _ (by omega)]
    exact gains_of_minusOne _ _

/-! ## `VOICE_RESET`, `VOICE_RELEASE` and `VOICE_SETPER` (R130, R135, R138) -/

/-- Settles O45: the copy of `VOICE_RESET` always commits. -/
theorem voiceResetSilencesTheVoice : Obligations.VoiceResetSilencesTheVoice := ⟨rfl, fun _ => rfl⟩

@[simp] theorem setEnv_aenv_fenv (s : State) (u : Env) : (s.setEnv .aenv u).fenv = s.fenv := rfl

theorem releaseStep_of_some {e : EnvUnit} {s : State} {rm : Word} (h : (s.env e).relmul = some rm) :
    releaseStep e s = .ok (s.setEnv e { s.env e with target := Config.zero, mult := rm }) := by
  simp [releaseStep, envRelease, h]

theorem releaseStep_of_none {e : EnvUnit} {s : State} (h : (s.env e).relmul = none) :
    releaseStep e s = .error .unsetOperand := by
  simp [releaseStep, envRelease, h]

theorem voiceReleaseCommand_of_set {s : State} {ra rf : Word} (ha : s.aenv.relmul = some ra)
    (hf : s.fenv.relmul = some rf) :
    voiceReleaseCommand s = .ok (respond 0#32 0#32 0#32 { s with
      aenv := { s.aenv with target := Config.zero, mult := ra }
      fenv := { s.fenv with target := Config.zero, mult := rf } }) := by
  rw [voiceReleaseCommand, releaseStep_of_some (e := .aenv) ha, except_bind_ok,
    releaseStep_of_some (e := .fenv) (rm := rf) (by simpa using hf)]
  rfl

theorem voiceReleaseCommand_of_unset {s : State} (h : s.aenv.relmul = none ∨ s.fenv.relmul = none) :
    voiceReleaseCommand s = .error .unsetOperand := by
  cases ha : s.aenv.relmul with
  | none => simp [voiceReleaseCommand, releaseStep_of_none (e := .aenv) ha]
  | some ra =>
    have hf : s.fenv.relmul = none := h.resolve_left (by simp [ha])
    simp [voiceReleaseCommand, releaseStep_of_some (e := .aenv) ha, releaseStep_of_none (e := .fenv), hf]

/-- Settles O49: the release of `AENV` is kept only when that of `FENV` completes too. -/
theorem voiceReleaseReleasesBothEnvelopes : Obligations.VoiceReleaseReleasesBothEnvelopes := by
  refine ⟨rfl, fun s => ⟨fun ra rf ha hf => ?_, fun h => ?_⟩⟩
  · exact congrArg (commit .voiceRelease s) (voiceReleaseCommand_of_set ha hf)
  · exact congrArg (commit .voiceRelease s) (voiceReleaseCommand_of_unset h)

theorem setperCommand_of_set {s : State} {p pb dt : Word} (hp : s.voice.period = some p)
    (hb : s.voice.pbend = some pb) (hd : s.voice.detune = some dt) :
    setperCommand s = .ok (respond 0#32 0#32 0#32 (({ s with
      osc1 := { s.osc1 with period := some (fmul s.nanDraws p pb) }
      osc2 := { s.osc2 with period := some (fmul (s.nanDraws + 1) (fmul s.nanDraws p pb) dt) } } : State).draw 2)) := by
  simp [setperCommand, hp, hb, hd]

theorem setperCommand_of_unset {s : State}
    (h : s.voice.period = none ∨ s.voice.pbend = none ∨ s.voice.detune = none) :
    setperCommand s = .error .unsetOperand := by
  cases hp : s.voice.period with
  | none => simp [setperCommand, hp]
  | some p =>
    cases hb : s.voice.pbend with
    | none => simp [setperCommand, hp, hb]
    | some pb =>
      have hd : s.voice.detune = none := (h.resolve_left (by simp [hp])).resolve_left (by simp [hb])
      simp [setperCommand, hp, hb, hd]

/-- Settles O52: the three operands are read before anything is written. -/
theorem voiceSetperRefreshesThePeriods : Obligations.VoiceSetperRefreshesThePeriods := by
  refine ⟨rfl, fun s => ⟨fun p pb dt hp hb hd => ?_, fun h => ?_⟩⟩
  · exact congrArg (commit .voiceSetper s) (setperCommand_of_set hp hb hd)
  · exact congrArg (commit .voiceSetper s) (setperCommand_of_unset h)

end Sys2Proof.Machine

namespace Sys2Proof.Machine

/-! # The cutoff modulator (44_cutoff_modulator.md R150 to R155)

## When `VOICE_CTRL` completes and what its fault is -/

/-- R111: an envelope unit is ready exactly when `ENV_NEXT` completes on it. -/
theorem envReady_iff_ok {k : Nat} {u : Env} : envReady k u = true ↔ ∃ u', envNext k u = .ok u' := by
  cases hn : envNext k u with
  | ok u' =>
    have hready : envReady k u ≠ false := fun h => by simp [envNext_eq_error_iff.mpr ⟨h, rfl⟩] at hn
    simpa using hready
  | error c => simp [(envNext_eq_error_iff.mp hn).1]

theorem envStep_of_ok {e : EnvUnit} {s : State} {u : Env} (h : envNext s.nanDraws (s.env e) = .ok u) :
    envStep e s = .ok ((s.setEnv e u).draw envNextDraws) := by
  simp [envStep, h]

/-- A copy whose first step and whose rest fault with one cause only faults with that cause. -/
theorem except_bind_error_cause {ε α β : Type} {x : Except ε α} {f : α → Except ε β} {c c' : ε}
    (hx : x = .error c → c = c') (hf : ∀ a, f a = .error c → c = c') : (x >>= f) = .error c → c = c' := by
  rw [except_bind_eq_error]
  exact fun h => h.elim hx fun ⟨a, _, ha⟩ => hf a ha

/-- R150, R163: every check of `VOICE_CTRL`, the envelope's step included, is for an UNSET operand. -/
theorem ctrlCommand_error_cause {s : State} {c : Cause} : ctrlCommand s = .error c → c = .unsetOperand := by
  have hneed (r : Option Word) (hr : need r = .error c) : c = .unsetOperand := (need_eq_error.mp hr).2
  have hstep (t : State) (ht : envStep .fenv t = .error c) : c = .unsetOperand :=
    (envNext_eq_error_iff.mp (envStep_eq_error_iff.mp ht)).2
  exact except_bind_error_cause (hneed s.voice.glide) fun _ =>
    except_bind_error_cause (hneed s.voice.tperiod) fun _ =>
    except_bind_error_cause (hneed s.voice.period) fun _ =>
    except_bind_error_cause (hstep (s.draw ctrlDraws)) fun _ =>
    except_bind_error_cause (hneed s.voice.cutoff) fun _ =>
    except_bind_error_cause (hneed s.voice.filtmod) fun _ =>
    except_bind_error_cause (hneed s.voice.fenvdepth) fun _ =>
    except_bind_error_cause (hneed s.voice.pbend) fun _ =>
    except_bind_error_cause (hneed s.voice.filtq) fun _ => by simp

/-! ## `VOICE_CTRL` (R150, R155) -/

theorem exec_voiceCtrl (s : State) : exec .voiceCtrl s = commit .voiceCtrl s (ctrlCommand s) := rfl

/-- Settles O53: the filter envelope steps as under `ENV_NEXT` alone, and with it each check of `VOICE_CTRL` passes. -/
theorem voiceCtrlCompletes : Obligations.VoiceCtrlCompletes := by
  refine ⟨rfl, fun s g tp p c fm fd pb q hg htp hp hready hc hfm hfd hpb hq => ?_⟩
  obtain ⟨u, hu⟩ := envReady_iff_ok.mp hready
  have hstep := envStep_of_ok (e := .fenv) (s := s.draw ctrlDraws) hu
  refine ⟨u, exec_envNext_of_ok (e := .fenv) (s := s.draw 7) hu, ?_⟩
  intro k raw mc
  rw [exec_voiceCtrl, ctrlCommand, need_eq_ok.mpr hg, need_eq_ok.mpr htp, need_eq_ok.mpr hp, hstep,
    need_eq_ok.mpr hc, need_eq_ok.mpr hfm, need_eq_ok.mpr hfd, need_eq_ok.mpr hpb, need_eq_ok.mpr hq]
  rfl

/-- Settles O54: a command that completes had all its operands, and one that faults has this one cause. -/
theorem voiceCtrlFaultsOnUnsetOperands : Obligations.VoiceCtrlFaultsOnUnsetOperands := by
  intro s hunset
  have hfault : ctrlCommand s = .error .unsetOperand := by
    cases hr : ctrlCommand s with
    | error c => rw [ctrlCommand_error_cause hr]
    | ok t =>
      obtain ⟨g, tp, p, u, c, fm, fd, pb, q, hg, htp, hp, hu, hc, hfm, hfd, hpb, hq, -⟩ := ctrlCommand_ok_cases hr
      have hready : envReady (s.nanDraws + 7) s.fenv = true := envReady_iff_ok.mpr ⟨u, hu⟩
      simp [hg, htp, hp, hready, hc, hfm, hfd, hpb, hq] at hunset
  rw [exec_voiceCtrl, hfault]
  rfl

/-- Settles O55: a copy that completes stores, answers and hands on one clamped value, which `clampCutoff_range` bounds;
a fault keeps the state found but for the record and the response. -/
theorem cutoffStaysInItsRange : Obligations.CutoffStaysInItsRange := by
  refine ⟨fun s t r h hrsp => ?_, rfl, fun s h => exec_rd_of_regRead_none (r := .voice .modcut) h⟩
  rcases commit_cases ((exec_voiceCtrl s).symm.trans h) with hok | ⟨c, -, rfl⟩
  · obtain ⟨g, tp, p, u, c, fm, fd, pb, q, -, -, -, -, -, -, -, -, hq, rfl⟩ := ctrlCommand_ok_cases hok
    cases hrsp
    exact ⟨fun _ => ⟨_, q, rfl, rfl, hq, rfl, rfl, clampCutoff_range _⟩, nofun⟩
  · obtain ⟨f, w, hv⟩ := recordFault_frame c Instr.voiceCtrl.cmdWord s.voice
    cases hrsp
    exact ⟨nofun, fun _ => ⟨by rw [raiseFault_voice, hv], rfl, rfl⟩⟩

end Sys2Proof.Machine

namespace Sys2Proof.Machine

/-! # Exceptions (60_exceptions.md R160 to R182)

## A fault writes the record and the response only (R161, R162, R167) -/

theorem runCommand_of_illegal {w : CmdWord} (h : legalWord w = false) (d : Word) (s : State) :
    runCommand w d s = .next (raiseFault .illegalCmd w s) := by
  rcases runCommand_cases w d s with ⟨i, hi, -⟩ | ⟨_, -, hrun⟩
  · rw [← isSome_decode_eq_legalWord w d, hi] at h
    cases h
  · exact hrun

/-- Settles O5: an illegal word raises `ILLEGAL_CMD` in the state it found. -/
theorem illegalWordOnlyFaults : Obligations.IllegalWordOnlyFaults :=
  fun _ d s h => runCommand_of_illegal h d s

/-- Settles O6: a command that completes reports no fault, so the answer is `raiseFault` of the state found. -/
theorem faultingCommandIsPrecise : Obligations.FaultingCommandIsPrecise := by
  intro i s t r h hrsp hfault
  rcases exec_cases h with hframe | ⟨c, -, rfl⟩
  · obtain ⟨d0, d1, d2, hok⟩ := hframe.response
    rw [hok] at hrsp
    cases hrsp
    cases hfault
  · cases hrsp
    exact ⟨rfl, faultResponse_fields c⟩

/-! ## The record keeps the first fault (R161, R170) -/

theorem recordFault_of_recorded {v : Voice} (h : v.cause ≠ 0#4) (c : Cause) (w : CmdWord) : recordFault c w v = v :=
  if_neg h

theorem recordFault_of_empty {v : Voice} (h : v.cause = 0#4) (c : Cause) (w : CmdWord) :
    recordFault c w v = { v with fault := c.code.setWidth 32, fcmd := w.setWidth 32 } :=
  if_pos h

theorem Cause.code_ne_zero (c : Cause) : c.code ≠ 0#4 := by cases c <;> decide

theorem cause_recordFault_of_empty {v : Voice} (h : v.cause = 0#4) (c : Cause) (w : CmdWord) :
    (recordFault c w v).cause = c.code := by
  rw [recordFault_of_empty h]
  cases c <;> rfl

theorem cause_recordFault_ne_zero (c : Cause) (w : CmdWord) (v : Voice) : (recordFault c w v).cause ≠ 0#4 := by
  by_cases h : v.cause = 0#4
  · rw [cause_recordFault_of_empty h]
    exact c.code_ne_zero
  · rwa [recordFault_of_recorded h]

theorem cause_eq_of_fault_eq {v v' : Voice} (h : v'.fault = v.fault) : v'.cause = v.cause := by
  rw [Voice.cause, h, Voice.cause]

/-- A command given as its words completes, or raises a fault under its own word. -/
theorem runCommand_next_cases {w : CmdWord} {d : Word} {s t : State} (h : runCommand w d s = .next t) :
    (∃ i, CompletedFrame i s t) ∨ ∃ c, t = raiseFault c w s := by
  rcases runCommand_cases w d s with ⟨i, hi, hrun⟩ | ⟨_, -, hrun⟩
  · rcases exec_cases (hrun ▸ h) with hframe | ⟨c, -, ht⟩
    · exact .inl ⟨i, hframe⟩
    · exact .inr ⟨c, cmdWord_of_decode hi ▸ ht⟩
  · rw [hrun] at h
    cases h
    exact .inr ⟨_, rfl⟩

theorem runCommand_keeps_record {w : CmdWord} {d : Word} {s t : State} (hrec : s.voice.cause ≠ 0#4)
    (h : runCommand w d s = .next t) : t.voice.fault = s.voice.fault ∧ t.voice.fcmd = s.voice.fcmd := by
  rcases runCommand_next_cases h with ⟨_, hframe⟩ | ⟨c, rfl⟩
  · exact hframe.record
  · rw [raiseFault_voice, recordFault_of_recorded hrec]
    exact ⟨rfl, rfl⟩

theorem thenAccept_eq_next {p : Pins} {x : Host.Outcome State Fault Refusal} {t : State}
    (h : thenAccept p x = .next t) : ∃ u, x = .next u ∧ t = accept p u := by
  cases x with
  | next u =>
    cases h
    exact ⟨u, rfl, rfl⟩
  | fault r => cases r
  | refused r => cases h

/-- Settles O7: of the phases of an edge only the command at its response edge could change the record, and it keeps one
that is there. -/
theorem faultRecordIsSticky : Obligations.FaultRecordIsSticky := by
  intro s t h hrst hrec
  rcases step_cases s with ⟨hreset, -⟩ | ⟨-, c, -, -, hstep⟩ | ⟨-, -, hstep⟩
  · rw [hrst] at hreset
    cases hreset
  · obtain ⟨u, hu, rfl⟩ := thenAccept_eq_next (hstep.symm.trans h)
    rw [accept_voice]
    exact runCommand_keeps_record (s := takeInFlight s.dropPins) hrec hu
  · rw [hstep] at h
    cases h
    rw [accept_voice]
    exact ⟨rfl, rfl⟩

/-! ## Runs (R57, R188) -/

theorem runCommands_cons_eq_next {w : CmdWord} {d : Word} {cs : List (CmdWord × Word)} {s t : State}
    (h : runCommands ((w, d) :: cs) s = .next t) : ∃ u, runCommand w d s = .next u ∧ runCommands cs u = .next t := by
  rw [runCommands] at h
  cases hrun : runCommand w d s with
  | next u => exact ⟨u, rfl, by rwa [hrun] at h⟩
  | fault r => cases r
  | refused r =>
    rw [hrun] at h
    cases h

theorem runCommands_keeps_record {cs : List (CmdWord × Word)} {s t : State} (hrec : s.voice.cause ≠ 0#4)
    (h : runCommands cs s = .next t) : t.voice.fault = s.voice.fault ∧ t.voice.fcmd = s.voice.fcmd := by
  induction cs generalizing s with
  | nil =>
    cases h
    exact ⟨rfl, rfl⟩
  | cons head cs ih =>
    obtain ⟨u, hu, hrest⟩ := runCommands_cons_eq_next h
    obtain ⟨hfault, hfcmd⟩ := runCommand_keeps_record hrec hu
    have hlater := ih (by rwa [cause_eq_of_fault_eq hfault]) hrest
    rwa [hfault, hfcmd] at hlater

section RunFaults
variable {w : CmdWord} {d : Word} {s t : State} (cs : List (CmdWord × Word))

theorem runFaults_cons_of_completed {i : Instr} (h : runCommand w d s = .next t) (hframe : CompletedFrame i s t) :
    runFaults ((w, d) :: cs) s = runFaults cs t := by
  obtain ⟨d0, d1, d2, hrsp⟩ := hframe.response
  simp [runFaults, h, hrsp, okResponse]

theorem runFaults_cons_of_fault {c : Cause} (h : runCommand w d s = .next (raiseFault c w s)) :
    runFaults ((w, d) :: cs) s = (c.code, w) :: runFaults cs (raiseFault c w s) := by
  simp [runFaults, h, faultResponse]

end RunFaults

/-- Settles O8, by induction on the run: the first command that faults fills the record, which the rest of the run
keeps; a command that completes leaves it empty for the rest. -/
theorem runRecordsItsFirstFault : Obligations.RunRecordsItsFirstFault := by
  intro cs s t hempty h
  induction cs generalizing s with
  | nil =>
    cases h
    exact ⟨fun _ => ⟨rfl, rfl⟩, nofun⟩
  | cons head cs ih =>
    obtain ⟨w, d⟩ := head
    obtain ⟨u, hu, hrest⟩ := runCommands_cons_eq_next h
    rcases runCommand_next_cases hu with ⟨i, hframe⟩ | ⟨c, rfl⟩
    · obtain ⟨hfault, hfcmd⟩ := hframe.record
      have hlater := ih u (by rwa [cause_eq_of_fault_eq hfault]) hrest
      rwa [safeRun, runFaults_cons_of_completed cs hu hframe, ← hfault, ← hfcmd]
    · have hkept := runCommands_keeps_record (cause_recordFault_ne_zero c w s.voice) hrest
      rw [raiseFault_voice, recordFault_of_empty hempty] at hkept
      rw [safeRun, runFaults_cons_of_fault cs hu]
      refine ⟨nofun, ?_⟩
      rintro _ _ _ ⟨⟩
      exact ⟨c.code_ne_zero, hkept⟩

/-! ## The record steers nothing (R161, R171)

A command's copy is a function of the state it found. `IgnoresRecord` says that this function neither reads nor writes
the record; the commit then differs in the record only. -/

/-- A copy that runs the same whatever the fault record holds, and carries the record over. -/
def IgnoresRecord (copy : State → Except Cause State) : Prop :=
  ∀ (s : State) (f w : Word), copy (s.withRecord f w) = (State.withRecord · f w) <$> copy s

section Record
variable (s : State) (f w : Word)

@[simp] theorem withRecord_withRecord (f' w' : Word) :
    (s.withRecord f w).withRecord f' w' = s.withRecord f' w' := rfl

@[simp] theorem withRecord_osc (u : OscUnit) : (s.withRecord f w).osc u = s.osc u := by cases u <;> rfl

@[simp] theorem withRecord_env (e : EnvUnit) : (s.withRecord f w).env e = s.env e := by cases e <;> rfl

@[simp] theorem withRecord_setOsc (u : OscUnit) (o : Osc) :
    (s.withRecord f w).setOsc u o = (s.setOsc u o).withRecord f w := by
  cases u <;> rfl

@[simp] theorem withRecord_setEnv (e : EnvUnit) (u : Env) :
    (s.withRecord f w).setEnv e u = (s.setEnv e u).withRecord f w := by
  cases e <;> rfl

@[simp] theorem withRecord_draw (n : Nat) : (s.withRecord f w).draw n = (s.draw n).withRecord f w := rfl

@[simp] theorem withRecord_respond (d0 d1 d2 : Word) :
    respond d0 d1 d2 (s.withRecord f w) = (respond d0 d1 d2 s).withRecord f w := rfl

theorem withRecord_regRead {r : Reg} (h : readsRecord (.rd r) = false) :
    (s.withRecord f w).regRead r = s.regRead r := by
  cases r with
  | osc u r => cases u <;> rfl
  | env e r => cases e <;> rfl
  | voice r => cases r <;> cases h <;> rfl

theorem withRecord_regWrite (r : Reg) (v : Word) :
    (s.withRecord f w).regWrite r v = (s.regWrite r v).withRecord f w := by
  cases r with
  | osc u r => simp [State.regWrite]
  | env e r => simp [State.regWrite]
  | voice r => cases r <;> rfl

theorem withRecord_filterSlot (x : Word) : filterSlot (s.withRecord f w) x = filterSlot s x := rfl

theorem withRecord_raiseFault (c : Cause) (cmd : CmdWord) :
    (raiseFault c cmd s).withRecord f w = { s.withRecord f w with rsp := some (faultResponse c) } := by
  obtain ⟨f', m, hv⟩ := recordFault_frame c cmd s.voice
  rw [raiseFault, hv]
  rfl

end Record

/-! ### The copies, from the unit steps up to the commands

Each copy is a chain of steps: its simp set carries the change of record over every state update and through every
bind, out to the end of the chain. -/

theorem ignoresRecord_oscStep (u : OscUnit) : IgnoresRecord (oscStep u) := fun s f w => by simp [oscStep]

theorem ignoresRecord_envStep (e : EnvUnit) : IgnoresRecord (envStep e) := fun s f w => by simp [envStep]

theorem ignoresRecord_releaseStep (e : EnvUnit) : IgnoresRecord (releaseStep e) := fun s f w => by simp [releaseStep]

theorem ignoresRecord_ok {g : State → State} (h : ∀ s f w, g (s.withRecord f w) = (g s).withRecord f w) :
    IgnoresRecord fun s => .ok (g s) :=
  fun s f w => congrArg Except.ok (h s f w)

theorem ignoresRecord_writeCommand (r : Reg) (v : Word) : IgnoresRecord (writeCommand r v) := fun s f w => by
  cases hr : r.writable <;> simp [writeCommand, hr, withRecord_regWrite]

theorem ignoresRecord_readCommand {r : Reg} (h : readsRecord (.rd r) = false) : IgnoresRecord (readCommand r) :=
  fun s f w => by simp [readCommand, withRecord_regRead s f w h]

theorem ignoresRecord_oscNextCommand (u : OscUnit) : IgnoresRecord (oscNextCommand u) := fun s f w => by
  simp [oscNextCommand, ignoresRecord_oscStep u s f w]

theorem ignoresRecord_envNextCommand (e : EnvUnit) : IgnoresRecord (envNextCommand e) := fun s f w => by
  simp [envNextCommand, ignoresRecord_envStep e s f w]

theorem ignoresRecord_envAttackCommand (e : EnvUnit) : IgnoresRecord (envAttackCommand e) := fun s f w => by
  simp [envAttackCommand]

theorem ignoresRecord_envReleaseCommand (e : EnvUnit) : IgnoresRecord (envReleaseCommand e) := fun s f w => by
  simp [envReleaseCommand, ignoresRecord_releaseStep e s f w]

theorem ignoresRecord_voiceReleaseCommand : IgnoresRecord voiceReleaseCommand := fun s f w => by
  simp [voiceReleaseCommand, ignoresRecord_releaseStep _ _ f w]

theorem ignoresRecord_renderCommand (n : Word) : IgnoresRecord (renderCommand n) := fun s f w => by
  simp [renderCommand, ignoresRecord_oscStep _ _ f w, ignoresRecord_envStep _ _ f w, withRecord_filterSlot] <;> rfl

theorem ignoresRecord_ctrlCommand : IgnoresRecord ctrlCommand := fun s f w => by
  simp [ctrlCommand, ignoresRecord_envStep _ _ f w] <;> rfl

theorem ignoresRecord_setperCommand : IgnoresRecord setperCommand := fun s f w => by
  simp [setperCommand] <;> rfl

/-! ### Their commits -/

theorem blankRecord_commit (i : Instr) {copy : State → Except Cause State} (h : IgnoresRecord copy) (s : State)
    (f w : Word) : blankRecord (commit i (s.withRecord f w) (copy (s.withRecord f w))) =
      blankRecord (commit i s (copy s)) := by
  rw [h]
  cases copy s with
  | ok t => simp [blankRecord]
  | error c => simp [blankRecord, withRecord_raiseFault]

/-- Every command but the three reads of the record commits a copy that ignores the record. -/
theorem exec_commits_ignoresRecord {i : Instr} (h : readsRecord i = false) :
    ∃ copy : State → Except Cause State, IgnoresRecord copy ∧ ∀ s, exec i s = commit i s (copy s) := by
  cases i with
  | nop => exact ⟨_, ignoresRecord_ok fun _ _ _ => rfl, fun _ => rfl⟩
  | wr r v => exact ⟨_, ignoresRecord_writeCommand r v, fun _ => rfl⟩
  | rd r => exact ⟨_, ignoresRecord_readCommand h, fun _ => rfl⟩
  | oscReset u => exact ⟨_, ignoresRecord_ok fun _ _ _ => by simp, fun _ => rfl⟩
  | envReset e => exact ⟨_, ignoresRecord_ok fun _ _ _ => by simp, fun _ => rfl⟩
  | voiceReset => exact ⟨_, ignoresRecord_ok fun _ _ _ => rfl, fun _ => rfl⟩
  | oscNext u => exact ⟨_, ignoresRecord_oscNextCommand u, fun _ => rfl⟩
  | envNext e => exact ⟨_, ignoresRecord_envNextCommand e, fun _ => rfl⟩
  | voiceRender n => exact ⟨_, ignoresRecord_renderCommand n, fun _ => rfl⟩
  | envAttack e => exact ⟨_, ignoresRecord_envAttackCommand e, fun _ => rfl⟩
  | envRelease e => exact ⟨_, ignoresRecord_envReleaseCommand e, fun _ => rfl⟩
  | voiceRelease => exact ⟨_, ignoresRecord_voiceReleaseCommand, fun _ => rfl⟩
  | envNudge e => exact ⟨_, ignoresRecord_ok fun _ _ _ => by simp, fun _ => rfl⟩
  | oscSquare u np => exact ⟨_, ignoresRecord_ok fun _ _ _ => by simp, fun _ => rfl⟩
  | voicePan => exact ⟨_, ignoresRecord_ok fun _ _ _ => rfl, fun _ => rfl⟩
  | voiceCtrl => exact ⟨_, ignoresRecord_ctrlCommand, fun _ => rfl⟩
  | voiceSetper => exact ⟨_, ignoresRecord_setperCommand, fun _ => rfl⟩

/-- Settles O9: the commits of one copy that ignores the record differ in the record only. -/
theorem faultRecordSteersNothing : Obligations.FaultRecordSteersNothing := by
  intro i s f w hread
  obtain ⟨copy, hcopy, hexec⟩ := exec_commits_ignoresRecord hread
  rw [hexec, hexec, blankRecord_commit i hcopy]

/-! ## The host's duties and the checks of a cycle start (R182, 41_oscillator.md R91, R93) -/

/-- phaseMax in samples at `PERIOD` = 6 and `PMOD` = 0.01: the half-period 0.03 rounds to 0, so this is -0.5. -/
theorem phaseMaxSamples_of_small_modulation :
    phaseMaxSamples 3 (halfPeriod 1 0x40C00000#32 0x3C23D70A#32) = 0xBF000000#32 := by
  decide

/-- Refutes O33: `PERIOD` = 6 and `PMOD` = 0.01 keep the duties of R182, but phaseMax is not above 0. -/
theorem not_hostDutiesExcludeOscillatorFaults : ¬ Obligations.HostDutiesExcludeOscillatorFaults := by
  intro h
  have hpm : fgt 0x3C23D70A#32 0#32 = true := by decide
  have hgood := h 0 0x40C00000#32 0#32 0x3C23D70A#32 (by decide) (by decide) hpm
  obtain ⟨hpos, -⟩ := (parametersGood_iff_of_pmod_pos hpm).mp hgood
  rw [phaseMaxSamples_of_small_modulation] at hpos
  exact absurd hpos (by decide)

end Sys2Proof.Machine

namespace Sys2Proof.Machine

/-! # Reset and hazards (70_reset_and_hazards.md R190 to R203)

## A unit replaced more than once (R196, R197) -/

@[simp] theorem setOsc_setOsc (s : State) (u : OscUnit) (o o' : Osc) : (s.setOsc u o).setOsc u o' = s.setOsc u o' := by
  cases u <;> rfl

@[simp] theorem setEnv_setEnv (s : State) (e : EnvUnit) (u u' : Env) : (s.setEnv e u).setEnv e u' = s.setEnv e u' := by
  cases e <;> rfl

@[simp] theorem draw_setOsc (s : State) (n : Nat) (u : OscUnit) (o : Osc) :
    (s.draw n).setOsc u o = (s.setOsc u o).draw n := by
  cases u <;> rfl

@[simp] theorem draw_setEnv (s : State) (n : Nat) (e : EnvUnit) (u : Env) :
    (s.draw n).setEnv e u = (s.setEnv e u).draw n := by
  cases e <;> rfl

@[simp] theorem respond_setOsc (d0 d1 d2 : Word) (s : State) (u : OscUnit) (o : Osc) :
    (respond d0 d1 d2 s).setOsc u o = respond d0 d1 d2 (s.setOsc u o) := by
  cases u <;> rfl

@[simp] theorem respond_setEnv (d0 d1 d2 : Word) (s : State) (e : EnvUnit) (u : Env) :
    (respond d0 d1 d2 s).setEnv e u = respond d0 d1 d2 (s.setEnv e u) := by
  cases e <;> rfl

/-! ## Where parameters are read (R92, R196, R197) -/

/-- An oscillator with other parameters. -/
def Osc.withParameters (o : Osc) (per amp : Option Word) (pm : Word) : Osc :=
  { o with period := per, ampl := amp, pmod := pm }

/-- An envelope with other parameters. -/
def Env.withParameters (u : Env) (a d l r : Option Word) : Env :=
  { u with attmul := a, decmul := d, suslvl := l, relmul := r }

section OscParameters
variable {k : Nat} {o : Osc} (per amp : Option Word) (pm : Word)

theorem startsCycle_withParameters : startsCycle k (o.withParameters per amp pm) = startsCycle k o := rfl

theorem inCycle_withParameters (p : Word) :
    inCycle k p (o.withParameters per amp pm) = (inCycle k p o).withParameters per amp pm := by
  cases hreflects : fgt p o.phmax <;> simp [inCycle, Osc.withParameters, hreflects]

theorem oscNext_withParameters_of_inside (h : startsCycle k o = false) :
    oscNext k (o.withParameters per amp pm) = .ok ((inCycle (k + 1) (nextPhase k o) o).withParameters per amp pm) := by
  rw [oscNext_of_inside ((startsCycle_withParameters per amp pm).trans h), inCycle_withParameters]
  rfl

end OscParameters

/-- Settles O34: inside a cycle the unit's step commutes with a change of its parameters, and the sample is in none. -/
theorem inCycleSampleIgnoresParameters : Obligations.InCycleSampleIgnoresParameters := by
  intro u s per amp pm hinside
  have hother : exec (.oscNext u) (s.setOsc u ((s.osc u).withParameters per amp pm)) = _ :=
    exec_oscNext_of_ok (by simpa using oscNext_withParameters_of_inside per amp pm hinside)
  refine ⟨_, exec_oscNext_of_ok (oscNext_of_inside hinside), hother.trans ?_⟩
  simp [Osc.withParameters]

section EnvParameters
variable {k : Nat} {u : Env} (a d l r : Option Word)

theorem attackEnds_withParameters : attackEnds k (u.withParameters a d l r) = attackEnds k u := rfl

theorem nextLevel_withParameters : nextLevel k (u.withParameters a d l r) = nextLevel k u := rfl

theorem envNext_withParameters_of_inside (h : attackEnds k u = false) :
    envNext k (u.withParameters a d l r) = .ok ({ u with level := nextLevel k u }.withParameters a d l r) := by
  rw [envNext_of_inside ((attackEnds_withParameters a d l r).trans h), nextLevel_withParameters]
  rfl

end EnvParameters

/-- Settles O44: a step inside a stage reads no parameter, and the copies of `ENV_ATTACK` and `ENV_RELEASE` read `ATTMUL`
and `RELMUL`, which are left as they are. -/
theorem envelopeLatchPoints : Obligations.EnvelopeLatchPoints := by
  refine fun e s a d l r => ⟨fun hinside => ?_, fun hset => ?_, fun hset => ?_⟩
  · have hother : exec (.envNext e) (s.setEnv e ((s.env e).withParameters a d l r)) = _ :=
      exec_envNext_of_ok (by simpa using envNext_withParameters_of_inside a d l r hinside)
    refine ⟨_, exec_envNext_of_ok (envNext_of_inside hinside), hother.trans ?_⟩
    simp [Env.withParameters]
  · obtain ⟨am, ham⟩ := Option.isSome_iff_exists.mp hset
    refine ⟨_, exec_envAttack_of_some ham, (exec_envAttack_of_some (am := am) (by simpa using ham)).trans ?_⟩
    simp [nudged]
  · obtain ⟨rm, hrm⟩ := Option.isSome_iff_exists.mp hset
    refine ⟨_, exec_envRelease_of_some hrm, (exec_envRelease_of_some (rm := rm) (by simpa using hrm)).trans ?_⟩
    simp

/-! ## The edge in reset (R190, R191) -/

theorem step_of_reset {s : State} (h : s.nextPins.rstN = false) : step s = .next (hardReset s.dropPins) := by
  simp [step, clockEdge, h]

theorem hardReset_of_step {s t : State} (h : s.nextPins.rstN = false) (ht : step s = .next t) :
    t = hardReset s.dropPins :=
  Host.Outcome.next.inj (ht.symm.trans (step_of_reset h))

@[simp] theorem hardReset_regRead (s : State) (q : Reg) : (hardReset s).regRead q = State.reset.regRead q := by
  cases q with
  | osc u r => cases u <;> rfl
  | env e r => cases e <;> rfl
  | voice r => cases r <;> rfl

theorem cmdReady_of_idle {s : State} (h : s.inflight = none) : cmdReady true s = true := by
  simp [cmdReady, h]

/-! ## What the registers read after reset (R190) -/

theorem reset_osc_eq_oscReset (u : OscUnit) : State.reset.osc u = oscReset (State.reset.osc u) := by cases u <;> rfl

theorem reset_env_eq_envReset (e : EnvUnit) : State.reset.env e = envReset (State.reset.env e) := by cases e <;> rfl

theorem reset_regRead_oscContinuous (u : OscUnit) {r : OscReg} (hr : oscContinuous r = true) :
    State.reset.regRead (.osc u r) = some 0#32 :=
  (regRead_of_oscReset (reset_osc_eq_oscReset u) r).trans (if_pos hr)

theorem reset_regRead_env_writable (e : EnvUnit) {r : EnvReg} (hr : r.writable = true) :
    State.reset.regRead (.env e r) = none := by
  cases r
  case attmul | decmul | suslvl | relmul => cases e <;> rfl
  case level | target | mult | status => cases hr

theorem reset_regRead_env (e : EnvUnit) (r : EnvReg) :
    State.reset.regRead (.env e r) = if r.writable then none else some 0#32 := by
  cases hr : r.writable with
  | true => exact reset_regRead_env_writable e hr
  | false => exact (regRead_of_envReset (reset_env_eq_envReset e) r).trans (if_neg (by simp [hr]))

/-- Settles O16: the edge is `hardReset`, and the reset state reads R190's value in each register; with no command in
flight after it, `cmd_ready` is 1 at the next edge. -/
theorem hardwareResetState : Obligations.HardwareResetState := by
  have hvoice {v : Option Word} {rs : List VoiceReg} (h : rs.map State.reset.readVoice = rs.map fun _ => v) :
      ∀ r ∈ rs, State.reset.regRead (.voice r) = v := fun _ hr => List.map_inj_left.mp h _ hr
  refine ⟨fun s hrst => ⟨step_of_reset hrst, rfl⟩, fun u => ?_, reset_regRead_env, hvoice rfl, hvoice rfl, hvoice rfl,
    rfl, rfl, rfl, fun s t hrst ht => ?_⟩
  · have hosc : State.reset.osc u = Osc.afterReset := by cases u <;> rfl
    exact ⟨congrArg Osc.period hosc, congrArg Osc.ampl hosc, congrArg (some ∘ Osc.pmod) hosc,
      fun _ => reset_regRead_oscContinuous u⟩
  · exact cmdReady_of_idle (by simp [hardReset_of_step hrst ht, State.reset])

/-- Settles O17: `hardReset` keeps nothing of the state before but the model's own fields. -/
theorem resetAbandonsTheCommandInFlight : Obligations.ResetAbandonsTheCommandInFlight := by
  rintro s t c - hrst ht
  rw [hardReset_of_step hrst ht]
  exact ⟨rfl, rfl, hardReset_regRead _, rfl, rfl⟩

/-- Settles O11: the reset state is the hardware reset of itself. -/
theorem resetMeetsTheInvariant : Obligations.ResetMeetsTheInvariant := hardReset_inv State.reset

/-! ## No step stalls (R203) -/

theorem runCommand_answers_next (w : CmdWord) (d : Word) (s : State) : ∃ t, runCommand w d s = .next t := by
  rcases runCommand_cases w d s with ⟨i, -, hrun⟩ | ⟨_, -, hrun⟩
  · rw [hrun]
    exact exec_answers_next i s
  · exact ⟨_, hrun⟩

/-- Settles O12: of the phases of an edge only the command at its response edge could stop, and it answers. -/
theorem stepAlwaysAnswersNext : Obligations.StepAlwaysAnswersNext := by
  intro s
  rcases step_cases s with ⟨-, hstep⟩ | ⟨-, c, -, -, hstep⟩ | ⟨-, -, hstep⟩
  · exact ⟨_, hstep⟩
  · obtain ⟨t, ht⟩ := runCommand_answers_next c.word c.data (takeInFlight s.dropPins)
    exact ⟨_, hstep.trans (congrArg (thenAccept s.nextPins) ht)⟩
  · exact ⟨_, hstep⟩

end Sys2Proof.Machine
